-- ==== Sys2Proof/Word.lean ====
section
/-!
DEFINITION. The word types of the neiler-64 core (spec/00_scope.md R7): bytes and 16-bit values. A byte is 8 bits,
bit 0 the least significant; register, memory and port values are unsigned bit patterns.
-/

namespace Sys2Proof

/-- An 8-bit pattern: a register, a memory byte, a port value (R7, R20, R32, R61). -/
abbrev Byte := BitVec 8

/-- A 16-bit pattern: an address operand, a pair address, the SP, a stacked PC (R7, R24, R72). -/
abbrev Addr := BitVec 16

end Sys2Proof
end

