-- ==== Sys2Proof/Syntax.lean ====
section
/-!
DEFINITION. The instruction set as syntax: the registers, the address bases of LOAD and STORE, the 36 opcodes and the
36 instructions of spec/opcode_table.json (spec/30_encoding.md R91, R97). The pseudo-instructions NOP, CLR and TST
(R112) are other names of MOV and CMP words and have no constructor.
-/

namespace Sys2Proof

/-- The six general registers (spec/10_state.md R20; codes in R92). -/
inductive Reg where
  | a | b | c | d | x | y
deriving DecidableEq, Repr

/-- The address bases of LOAD and STORE, each named by the low register of its pair: B:A, D:C, Y:X
(spec/30_encoding.md R95; that a base is a pair is the spec's decision D4). No other register can be named, so an
instruction with the base B, D or Y cannot be written down here: its encoding is refused by the decoder. -/
inductive Base where
  | a | c | x
deriving DecidableEq, Repr

/-- The 36 opcodes, one per row of R97: what an opcode byte selects (the range of OPCODE_MAP, spec/00_scope.md R6). -/
inductive Opcode where
  | movReg | movImm | load | store | push | pop
  | addReg | addImm | subReg | subImm | mulReg | mulImm | divReg | divImm | inc | dec
  | andReg | andImm | orReg | orImm | xorReg | xorImm | notReg | shl | shr
  | jmp | jz | jnz | call | ret | reti | hlt
  | outPort | inPort
  | cmpReg | cmpImm
deriving DecidableEq, Repr

/-- The instructions: one constructor per row of spec/opcode_table.json, its operands in the order of the syntax (R94). -/
inductive Instr where
  /-- `MOV r, s` (R120) -/
  | movReg (r s : Reg)
  /-- `MOV r, #imm` (R121) -/
  | movImm (r : Reg) (imm : Byte)
  /-- `LOAD r, [p]` (R122) -/
  | load (r : Reg) (p : Base)
  /-- `STORE [p], r` (R123) -/
  | store (p : Base) (r : Reg)
  /-- `PUSH r` (R126) -/
  | push (r : Reg)
  /-- `POP r` (R127) -/
  | pop (r : Reg)
  /-- `ADD r, s` (R142) -/
  | addReg (r s : Reg)
  /-- `ADD r, #imm` (R143) -/
  | addImm (r : Reg) (imm : Byte)
  /-- `SUB r, s` (R144) -/
  | subReg (r s : Reg)
  /-- `SUB r, #imm` (R145) -/
  | subImm (r : Reg) (imm : Byte)
  /-- `MUL s` (R146) -/
  | mulReg (s : Reg)
  /-- `MUL #imm` (R147) -/
  | mulImm (imm : Byte)
  /-- `DIV s` (R148) -/
  | divReg (s : Reg)
  /-- `DIV #imm` (R149) -/
  | divImm (imm : Byte)
  /-- `INC r` (R150) -/
  | inc (r : Reg)
  /-- `DEC r` (R151) -/
  | dec (r : Reg)
  /-- `AND r, s` (R171) -/
  | andReg (r s : Reg)
  /-- `AND r, #imm` (R172) -/
  | andImm (r : Reg) (imm : Byte)
  /-- `OR r, s` (R173) -/
  | orReg (r s : Reg)
  /-- `OR r, #imm` (R174) -/
  | orImm (r : Reg) (imm : Byte)
  /-- `XOR r, s` (R175) -/
  | xorReg (r s : Reg)
  /-- `XOR r, #imm` (R176) -/
  | xorImm (r : Reg) (imm : Byte)
  /-- `NOT r` (R177) -/
  | notReg (r : Reg)
  /-- `SHL r` (R178) -/
  | shl (r : Reg)
  /-- `SHR r` (R179) -/
  | shr (r : Reg)
  /-- `JMP addr` (R191) -/
  | jmp (target : Addr)
  /-- `JZ addr` (R192) -/
  | jz (target : Addr)
  /-- `JNZ addr` (R193) -/
  | jnz (target : Addr)
  /-- `CALL addr` (R194) -/
  | call (target : Addr)
  /-- `RET` (R195) -/
  | ret
  /-- `RETI` (R196; the spec's own addition, decision D13) -/
  | reti
  /-- `HLT` (R197) -/
  | hlt
  /-- `OUT port, r` (R210) -/
  | outPort (port : Byte) (r : Reg)
  /-- `IN r, port` (R211) -/
  | inPort (r : Reg) (port : Byte)
  /-- `CMP r, s` (R220) -/
  | cmpReg (r s : Reg)
  /-- `CMP r, #imm` (R221) -/
  | cmpImm (r : Reg) (imm : Byte)
deriving DecidableEq, Repr

/-- The row of the opcode map an instruction belongs to. -/
def Instr.opcode : Instr → Opcode
  | .movReg _ _ => .movReg
  | .movImm _ _ => .movImm
  | .load _ _ => .load
  | .store _ _ => .store
  | .push _ => .push
  | .pop _ => .pop
  | .addReg _ _ => .addReg
  | .addImm _ _ => .addImm
  | .subReg _ _ => .subReg
  | .subImm _ _ => .subImm
  | .mulReg _ => .mulReg
  | .mulImm _ => .mulImm
  | .divReg _ => .divReg
  | .divImm _ => .divImm
  | .inc _ => .inc
  | .dec _ => .dec
  | .andReg _ _ => .andReg
  | .andImm _ _ => .andImm
  | .orReg _ _ => .orReg
  | .orImm _ _ => .orImm
  | .xorReg _ _ => .xorReg
  | .xorImm _ _ => .xorImm
  | .notReg _ => .notReg
  | .shl _ => .shl
  | .shr _ => .shr
  | .jmp _ => .jmp
  | .jz _ => .jz
  | .jnz _ => .jnz
  | .call _ => .call
  | .ret => .ret
  | .reti => .reti
  | .hlt => .hlt
  | .outPort _ _ => .outPort
  | .inPort _ _ => .inPort
  | .cmpReg _ _ => .cmpReg
  | .cmpImm _ _ => .cmpImm

end Sys2Proof
end

