-- ==== Sys2Proof/Config.lean ====
section
/-!
DEFINITION. What an implementation fixes (spec/00_scope.md R6): the configuration record, plain data that no operation
writes, and the OPEN functions and values to which the spec gives no default, as constants with no body. The record rides
in State (Machine/State.lean), so that a statement over all states is a statement over all configurations. The default
values the spec names (MODE, VBLANK_VECTOR, OPCODE_MAP, PORT_CONFIG, TILE_FORMAT, SPRITE_FORMAT) stand in Decode.lean and
Machine/Defaults.lean.
-/

namespace Sys2Proof

/-- MODE: the two resolution modes (R6, R350). -/
inductive VideoMode where
  | m320x200x8
  | m640x480x16
deriving DecidableEq, Repr

/-- An RGB triple of three 8-bit components: a palette entry (R35). -/
structure Rgb where
  r : Byte
  g : Byte
  b : Byte
deriving DecidableEq, Repr

/-- OPCODE_MAP (R6, R97): opcode byte to opcode. -/
abbrev OpcodeMap := List (Byte × Opcode)

/-- Where a configured port's read value comes from (R347): a function of the block state, named by a number and
interpreted by `Config.handlerValue`, or an input from outside the block, drawn fresh at each IN (I9). -/
inductive ReadSource where
  | blockFunction (id : Nat)
  | externalInput
deriving DecidableEq, Repr

/-- A PORT_CONFIG handler (R347). Its write effect is a function from the written byte and the GPU state, named by
`write` and interpreted by `Config.handlerWriteEffect`; `read` is the source of its read value. `readEffect` names the
side effect a read has, where it has one ("A configured port may have read or write side effects", R76). -/
structure PortHandler where
  write      : Nat
  read       : ReadSource
  readEffect : Option Nat
deriving DecidableEq, Repr

/-- Where tile pixels come from: the default (bytes of VRAM, R357) or a TilePixel of the configuration's own, named by
a number and interpreted by `Config.customTilePixel`. -/
inductive TileGraphics where
  | vram
  | custom (id : Nat)
deriving DecidableEq, Repr

/-- TILE_FORMAT (R6, R355): tile size, grid size, tile pixel function. -/
structure TileFormat where
  tw : Nat
  th : Nat
  gw : Nat
  gh : Nat
  graphics : TileGraphics
deriving DecidableEq, Repr

/-- SPRITE_FORMAT (R6, R356): the default (bitmaps in SRAM, R358) or a SpritePixel of the configuration's own, named by
a number and interpreted by `Config.customSpritePixel`. -/
inductive SpriteFormat where
  | sram
  | custom (id : Nat)
deriving DecidableEq, Repr

/-- The implementation parameters of R6 that are plain data. No operation of the machine writes them (R41, R350). -/
structure MachineConfig where
  mode          : VideoMode
  vblankVector  : Addr
  opcodeMap     : OpcodeMap
  ports         : List (Byte × PortHandler)
  tileFormat    : TileFormat
  spriteFormat  : SpriteFormat
deriving DecidableEq, Repr

/-- CONV16 (R6, R351, I3): from an RGB triple to a 16-bit colour. OPEN, no default: uninterpreted. -/
opaque Config.conv16 : Rgb → BitVec 16

/-- CYCLES_PER_FRAME (R6, R325, I7): the initial `cyclesPerFrame`. OPEN, "no default value is claimed": uninterpreted. -/
opaque Config.cyclesPerFrame : Nat

/-- I9, R347: the byte that an input from outside the block gives at its n-th draw, on a port. "any value (an input from
outside the block, drawn fresh at each IN)": uninterpreted. -/
opaque Config.externalInput : (port : Byte) → (draw : Nat) → Byte

/-- A configured TilePixel (R355), given the bytes of VRAM and SRAM, which are all the render may read (R62), the tile index
and the pixel within the tile: a palette index, or none (transparent). Uninterpreted; that it may use SRAM as well as VRAM is
DEDUCED, and that it is given nothing else of the state a DESIGN CHOICE (log entry 7). -/
opaque Config.customTilePixel : (id : Nat) → (graphics : List Host.Cell) → (t : Byte) → (tx ty : Nat) → Option Byte

/-- A configured SpritePixel (R356), given the bytes of SRAM, where bitmaps lie (R36, R62), the slot's `bitmap` and `pal` and
the pixel within the bitmap: a palette index, or none (transparent). Uninterpreted; that it is given nothing else of the state
is a DESIGN CHOICE (log entry 7). -/
opaque Config.customSpritePixel :
  (id : Nat) → (spriteRam : List Host.Cell) → (bitmap pal : Byte) → (bx byRow : Nat) → Option Byte

end Sys2Proof
end

