-- ==== Sys2Proof/WellFormed.lean ====
section
/-!
DEFINITION. Well-formedness of syntax and of a configuration. Every term of Instr has legal operand fields by its types
(a register of R92, a base of R95, an 8-bit immediate or port, a 16-bit address), so what is left to check of an
instruction is that the opcode map in force gives its opcode a byte. The configuration is checked against the constraints
R6, R90, R340, R347 and R355 put on its parameters.
-/

namespace Sys2Proof

/-- Whether an opcode map gives some byte to an opcode. -/
def OpcodeMap.names (m : OpcodeMap) (o : Opcode) : Bool :=
  m.any fun row => row.2 = o

/-- Whether no byte stands in the map twice: the opcode byte alone selects the instruction (R90, R97). -/
def OpcodeMap.wf : OpcodeMap → Bool
  | [] => true
  | (b, _) :: rest => !(rest.any fun row => row.1 = b) && OpcodeMap.wf rest

/-- An instruction is well-formed under an opcode map when the map can encode it: some byte selects its opcode. -/
def Instr.wf (m : OpcodeMap) (i : Instr) : Bool :=
  m.names i.opcode

/-- The ports whose handlers are fixed (R341). -/
def fixedPorts : List Byte := [0x01, 0x80, 0x81, 0x82]

/-- PORT_CONFIG maps port numbers other than the fixed ones (R347), and each port has exactly one handler (R340). -/
def portsWf : List (Byte × PortHandler) → Bool
  | [] => true
  | (p, _) :: rest => !fixedPorts.contains p && !(rest.any fun row => row.1 = p) && portsWf rest

/-- A tile format has tiles and a grid of at least one pixel and one tile each way: R355 divides by TW, TH and by the
layer's size in pixels. -/
def TileFormat.wf (f : TileFormat) : Bool :=
  decide (0 < f.tw) && decide (0 < f.th) && decide (0 < f.gw) && decide (0 < f.gh)

/-- A configuration that meets the spec's constraints on its parameters. -/
def MachineConfig.wf (c : MachineConfig) : Bool :=
  c.opcodeMap.wf && portsWf c.ports && c.tileFormat.wf

end Sys2Proof
end

