-- ==== Sys2Proof/Decode.lean ====
section
/-!
DEFINITION. Encodings (spec/30_encoding.md R90 to R99, R102): the register and base codes, the operand bytes, the default
opcode map, the decoder (total on any bytes, rejecting by name) and the encoder.
-/

namespace Sys2Proof

/-! ## Bytes and 16-bit values (R7, R72) -/

/-- `hi:lo`, little-endian: the low byte comes first (R72, R96). -/
def addrOfBytes (lo hi : Byte) : Addr := hi ++ lo

/-- Bits 7:0 of a 16-bit value. -/
def loByte (w : Addr) : Byte := w.extractLsb' 0 8

/-- Bits 15:8 of a 16-bit value. -/
def hiByte (w : Addr) : Byte := w.extractLsb' 8 8

/-- Bits 7:4 of a byte. -/
def hiNibble (b : Byte) : BitVec 4 := b.extractLsb' 4 4

/-- Bits 3:0 of a byte. -/
def loNibble (b : Byte) : BitVec 4 := b.extractLsb' 0 4

/-! ## Operand fields -/

/-- R92: A = 0, B = 1, C = 2, D = 3, X = 4, Y = 5. -/
def Reg.code : Reg → BitVec 4
  | .a => 0
  | .b => 1
  | .c => 2
  | .d => 3
  | .x => 4
  | .y => 5

/-- R92: codes 6 to 15 name no register. -/
def regOfCode (c : BitVec 4) : Option Reg :=
  if c = 0 then some .a
  else if c = 1 then some .b
  else if c = 2 then some .c
  else if c = 3 then some .d
  else if c = 4 then some .x
  else if c = 5 then some .y
  else none

/-- R95: the base field is A (0), C (2) or X (4). -/
def Base.code : Base → BitVec 4
  | .a => 0
  | .c => 2
  | .x => 4

/-- R95: every other base field is an invalid encoding. -/
def baseOfCode (c : BitVec 4) : Option Base :=
  if c = 0 then some .a
  else if c = 2 then some .c
  else if c = 4 then some .x
  else none

/-- The R byte of a register: bits 7:4 are 0000 (R93). -/
def rByte (r : Reg) : Byte := (0#4) ++ r.code

/-- R93: an R byte decodes only if its bits 7:4 are 0 and its bits 3:0 a register code. -/
def regOfRByte (b : Byte) : Option Reg :=
  if hiNibble b = 0 then regOfCode (loNibble b) else none

/-- An RR byte: the first operand's code in bits 7:4, the second's in bits 3:0 (R94). -/
def rrByte (first second : BitVec 4) : Byte := first ++ second

/-! ## The opcode map -/

/-- The number of operand bytes after the opcode, by the format of R91 and R97. -/
def Opcode.operandBytes : Opcode → Nat
  | .ret | .reti | .hlt => 0
  | .push | .pop | .inc | .dec | .notReg | .shl | .shr | .mulReg | .divReg => 1
  | .movReg | .load | .store | .addReg | .subReg | .andReg | .orReg | .xorReg | .cmpReg => 1
  | .mulImm | .divImm => 1
  | .movImm | .addImm | .subImm | .andImm | .orImm | .xorImm | .cmpImm => 2
  | .jmp | .jz | .jnz | .call => 2
  | .outPort | .inPort => 2

/-- The instruction's length in bytes, fixed by the opcode alone (R90, R97). -/
def Opcode.length (o : Opcode) : Nat := 1 + o.operandBytes

/-- The length of an instruction (R90). -/
def Instr.length (i : Instr) : Nat := i.opcode.length

/-- R97, data movement. -/
def opcodeRowsMove : OpcodeMap :=
  [(0x01, .movReg), (0x02, .movImm), (0x03, .load), (0x04, .store), (0x05, .push), (0x06, .pop)]

/-- R97, arithmetic. -/
def opcodeRowsArith : OpcodeMap :=
  [(0x10, .addReg), (0x11, .addImm), (0x12, .subReg), (0x13, .subImm), (0x14, .mulReg),
   (0x15, .mulImm), (0x16, .divReg), (0x17, .divImm), (0x18, .inc), (0x19, .dec)]

/-- R97, logic and shifts. -/
def opcodeRowsLogic : OpcodeMap :=
  [(0x20, .andReg), (0x21, .andImm), (0x22, .orReg), (0x23, .orImm), (0x24, .xorReg),
   (0x25, .xorImm), (0x26, .notReg), (0x27, .shl), (0x28, .shr)]

/-- R97, control transfer. -/
def opcodeRowsControl : OpcodeMap :=
  [(0x30, .jmp), (0x31, .jz), (0x32, .jnz), (0x33, .call), (0x34, .ret), (0x35, .reti), (0x36, .hlt)]

/-- R97, port I/O and comparison. -/
def opcodeRowsIoCompare : OpcodeMap :=
  [(0x40, .outPort), (0x41, .inPort), (0x50, .cmpReg), (0x51, .cmpImm)]

/-- The default OPCODE_MAP: the table of R97 (the values are the spec's decision D1). -/
def defaultOpcodeMap : OpcodeMap :=
  (opcodeRowsMove ++ opcodeRowsArith).append
    ((opcodeRowsLogic ++ opcodeRowsControl).append opcodeRowsIoCompare)

/-- What an opcode byte selects, if anything (R97, R98 (a)). -/
def OpcodeMap.lookup : OpcodeMap → Byte → Option Opcode
  | [], _ => none
  | (k, o) :: rest, b => if b = k then some o else OpcodeMap.lookup rest b

/-- The byte that selects an opcode, if there is one. -/
def OpcodeMap.byteOf : OpcodeMap → Opcode → Option Byte
  | [], _ => none
  | (k, o') :: rest, o => if o = o' then some k else OpcodeMap.byteOf rest o

/-! ## Decoding -/

/-- A byte of operands that does not decode: its index in the instruction, and the byte (R98 (b) to (d)). -/
abbrev BadOperand := Nat × Byte

/-- An R byte as operand byte k (R93). -/
def decodeR (k : Nat) (b : Byte) (mk : Reg → Instr) : Except BadOperand Instr :=
  match regOfRByte b with
  | some r => .ok (mk r)
  | none => .error (k, b)

/-- An RR byte as operand byte 1, both fields registers (R94). -/
def decodeRR (b : Byte) (mk : Reg → Reg → Instr) : Except BadOperand Instr :=
  match regOfCode (hiNibble b), regOfCode (loNibble b) with
  | some r, some s => .ok (mk r s)
  | _, _ => .error (1, b)

/-- The operand fields of an instruction, in order; the first byte that fails is the one reported (R91 to R96, R98,
R100). A byte the format does not have is not looked at. -/
def decodeOperands (o : Opcode) (b1 b2 : Byte) : Except BadOperand Instr :=
  match o with
  | .movReg => decodeRR b1 .movReg
  | .movImm => decodeR 1 b1 fun r => .movImm r b2
  | .load =>
    match regOfCode (hiNibble b1), baseOfCode (loNibble b1) with
    | some r, some p => .ok (.load r p)
    | _, _ => .error (1, b1)
  | .store =>
    match baseOfCode (hiNibble b1), regOfCode (loNibble b1) with
    | some p, some r => .ok (.store p r)
    | _, _ => .error (1, b1)
  | .push => decodeR 1 b1 .push
  | .pop => decodeR 1 b1 .pop
  | .addReg => decodeRR b1 .addReg
  | .addImm => decodeR 1 b1 fun r => .addImm r b2
  | .subReg => decodeRR b1 .subReg
  | .subImm => decodeR 1 b1 fun r => .subImm r b2
  | .mulReg => decodeR 1 b1 .mulReg
  | .mulImm => .ok (.mulImm b1)
  | .divReg => decodeR 1 b1 .divReg
  | .divImm => .ok (.divImm b1)
  | .inc => decodeR 1 b1 .inc
  | .dec => decodeR 1 b1 .dec
  | .andReg => decodeRR b1 .andReg
  | .andImm => decodeR 1 b1 fun r => .andImm r b2
  | .orReg => decodeRR b1 .orReg
  | .orImm => decodeR 1 b1 fun r => .orImm r b2
  | .xorReg => decodeRR b1 .xorReg
  | .xorImm => decodeR 1 b1 fun r => .xorImm r b2
  | .notReg => decodeR 1 b1 .notReg
  | .shl => decodeR 1 b1 .shl
  | .shr => decodeR 1 b1 .shr
  | .jmp => .ok (.jmp (addrOfBytes b1 b2))
  | .jz => .ok (.jz (addrOfBytes b1 b2))
  | .jnz => .ok (.jnz (addrOfBytes b1 b2))
  | .call => .ok (.call (addrOfBytes b1 b2))
  | .ret => .ok .ret
  | .reti => .ok .reti
  | .hlt => .ok .hlt
  | .outPort => decodeR 2 b2 fun r => .outPort b1 r
  | .inPort => decodeR 1 b1 fun r => .inPort r b2
  | .cmpReg => decodeRR b1 .cmpReg
  | .cmpImm => decodeR 1 b1 fun r => .cmpImm r b2

/-- Why bytes do not decode. -/
inductive DecodeError where
  /-- there is no opcode byte -/
  | noBytes
  /-- the opcode byte is not in the map (R98 (a)) -/
  | unknownOpcode (op : Byte)
  /-- fewer operand bytes follow than the opcode's arity asks for -/
  | missingOperand (op : Byte)
  /-- operand byte k does not decode (R98 (b) to (d)) -/
  | badOperand (k : Nat) (b : Byte)
deriving DecidableEq, Repr

/-- One decoded instruction with the bytes left after it. -/
def decodedWith (r : Except BadOperand Instr) (rest : List Byte) : Except DecodeError (Instr × List Byte) :=
  match r with
  | .ok i => .ok (i, rest)
  | .error (k, b) => .error (.badOperand k b)

/-- The decoder: the first instruction of a byte sequence, and the bytes after it, or why there is none. It looks at no
byte past the instruction (R102). -/
def decode (m : OpcodeMap) : List Byte → Except DecodeError (Instr × List Byte)
  | [] => .error .noBytes
  | op :: rest =>
    match m.lookup op with
    | none => .error (.unknownOpcode op)
    | some o =>
      match o.operandBytes, rest with
      | 0, rest => decodedWith (decodeOperands o 0 0) rest
      | 1, b1 :: rest => decodedWith (decodeOperands o b1 0) rest
      | 2, b1 :: b2 :: rest => decodedWith (decodeOperands o b1 b2) rest
      | _, _ => .error (.missingOperand op)

/-! ## Encoding -/

/-- The operand bytes of an instruction (R91, R93, R94, R95, R96). -/
def Instr.operands : Instr → List Byte
  | .movReg r s => [rrByte r.code s.code]
  | .movImm r imm => [rByte r, imm]
  | .load r p => [rrByte r.code p.code]
  | .store p r => [rrByte p.code r.code]
  | .push r => [rByte r]
  | .pop r => [rByte r]
  | .addReg r s => [rrByte r.code s.code]
  | .addImm r imm => [rByte r, imm]
  | .subReg r s => [rrByte r.code s.code]
  | .subImm r imm => [rByte r, imm]
  | .mulReg s => [rByte s]
  | .mulImm imm => [imm]
  | .divReg s => [rByte s]
  | .divImm imm => [imm]
  | .inc r => [rByte r]
  | .dec r => [rByte r]
  | .andReg r s => [rrByte r.code s.code]
  | .andImm r imm => [rByte r, imm]
  | .orReg r s => [rrByte r.code s.code]
  | .orImm r imm => [rByte r, imm]
  | .xorReg r s => [rrByte r.code s.code]
  | .xorImm r imm => [rByte r, imm]
  | .notReg r => [rByte r]
  | .shl r => [rByte r]
  | .shr r => [rByte r]
  | .jmp t => [loByte t, hiByte t]
  | .jz t => [loByte t, hiByte t]
  | .jnz t => [loByte t, hiByte t]
  | .call t => [loByte t, hiByte t]
  | .ret => []
  | .reti => []
  | .hlt => []
  | .outPort port r => [port, rByte r]
  | .inPort r port => [rByte r, port]
  | .cmpReg r s => [rrByte r.code s.code]
  | .cmpImm r imm => [rByte r, imm]

/-- The bytes of an instruction under an opcode map; none where the map gives its opcode no byte (it is not
well-formed under that map). -/
def encode (m : OpcodeMap) (i : Instr) : Option (List Byte) :=
  match m.byteOf i.opcode with
  | some op => some (op :: i.operands)
  | none => none

/-- The bytes of an instruction given as one number, as spec/opcode_table.json numbers its bits: byte k holds bits
8k+7 to 8k, and every bit from nbits up is 0. Three bytes, the longest instruction (R90). -/
def tableWordBytes (nbits w : Nat) : List Byte :=
  [0, 1, 2].map fun k => BitVec.ofNat 8 ((w % 2 ^ nbits) / 2 ^ (8 * k))

/-- What the decoder reads, under the default opcode map, from an instruction whose bits are w. -/
def decodeTableWord (nbits w : Nat) : Option Instr :=
  match decode defaultOpcodeMap (tableWordBytes nbits w) with
  | .ok (i, _) => some i
  | .error _ => none

end Sys2Proof
end

