-- ==== Sys2Proof/Machine/Defaults.lean ====
section
/-!
DEFINITION. The screen size of each mode (spec/60_exceptions.md R350) and the default parameters of spec/00_scope.md R6:
MODE, VBLANK_VECTOR, OPCODE_MAP, PORT_CONFIG, TILE_FORMAT (R357) and SPRITE_FORMAT (R358).
-/

namespace Sys2Proof

/-- W (R34, R350). -/
def VideoMode.width : VideoMode → Nat
  | .m320x200x8 => 320
  | .m640x480x16 => 640

/-- H (R34, R350). -/
def VideoMode.height : VideoMode → Nat
  | .m320x200x8 => 200
  | .m640x480x16 => 480

/-- The default TILE_FORMAT (R357): 8×8 tiles from VRAM, a grid of exactly the screen's size. -/
def defaultTileFormat (m : VideoMode) : TileFormat :=
  { tw := 8, th := 8, gw := m.width / 8, gh := m.height / 8, graphics := .vram }

/-- The default parameters in a given mode (R6). -/
def configOfMode (m : VideoMode) : MachineConfig :=
  { mode := m, vblankVector := 0xFF00, opcodeMap := defaultOpcodeMap, ports := [],
    tileFormat := defaultTileFormat m, spriteFormat := .sram }

/-- The default configuration: MODE = M320x200x8 (R6; decision D36). -/
def defaultConfig : MachineConfig := configOfMode .m320x200x8

/-- The entry point of a fresh machine (R402, R405). -/
def defaultEntry : Addr := 0x0200

end Sys2Proof
end

