-- ==== Sys2Proof/Machine/Sparse.lean ====
section
/-!
DEFINITION. Sparse data in one canonical form: a list of (key, value) pairs, keys strictly rising, no value equal to what
an unlisted key reads as. Memory, the framebuffer and the tile grids are held so, and equal contents are equal lists.
-/

namespace Sys2Proof.Machine

/-- The value at a key; an unlisted key reads as d. -/
def sparseRead {α : Type} (d : α) : List (Nat × α) → Nat → α
  | [], _ => d
  | (k, v) :: rest, a => if a = k then v else sparseRead d rest a

/-- A cell in front of a list, left out when it holds what an unlisted key reads as. -/
def sparseCons {α : Type} [DecidableEq α] (d : α) (k : Nat) (v : α) (rest : List (Nat × α)) : List (Nat × α) :=
  if v = d then rest else (k, v) :: rest

/-- Writing one key. Writing d removes the entry. -/
def sparseWrite {α : Type} [DecidableEq α] (d : α) : List (Nat × α) → Nat → α → List (Nat × α)
  | [], a, v => sparseCons d a v []
  | (k, w) :: rest, a, v =>
    if a = k then sparseCons d a v rest
    else if a < k then sparseCons d a v ((k, w) :: rest)
    else (k, w) :: sparseWrite d rest a v

/-- The cells whose keys lie from `first` to `last`. -/
def sparseWindow {α : Type} (first last : Nat) (l : List (Nat × α)) : List (Nat × α) :=
  l.filter fun cell => decide (first ≤ cell.1 ∧ cell.1 ≤ last)

/-- The canonical form, for keys from lo up to bound. -/
def sparseWf {α : Type} [DecidableEq α] (d : α) (bound : Nat) : (lo : Nat) → List (Nat × α) → Bool
  | _, [] => true
  | lo, (k, v) :: rest => decide (lo ≤ k) && decide (k < bound) && decide (v ≠ d) && sparseWf d bound (k + 1) rest

/-- Every key from k on, n of them, at once: key j takes the value f j names, and keeps its own where f j is none. One
pass over the list (the list's keys are at least k). -/
def sparseOverlay {α : Type} [DecidableEq α] (d : α) (f : Nat → Option α) :
    (n k : Nat) → List (Nat × α) → List (Nat × α)
  | 0, _, l => l
  | n + 1, k, [] => sparseCons d k ((f k).getD d) (sparseOverlay d f n (k + 1) [])
  | n + 1, k, (j, v) :: rest =>
    if j = k then sparseCons d k ((f k).getD v) (sparseOverlay d f n (k + 1) rest)
    else sparseCons d k ((f k).getD d) (sparseOverlay d f n (k + 1) ((j, v) :: rest))

end Sys2Proof.Machine
end

