-- ==== Sys2Proof/Machine/State.lean ====
section
/-!
DEFINITION. The state of the whole block (spec/10_state.md), the reasons a step could stop, and the state after reset
(R41, R400, R402). State is plain data.
-/

namespace Sys2Proof.Machine

/-- The general registers (R20). -/
structure Regs where
  a : Byte
  b : Byte
  c : Byte
  d : Byte
  x : Byte
  y : Byte
deriving DecidableEq, Repr

/-- The four flags of the flags byte F (R26). Bits 7:4 of F read 0 and cannot be set, so they are not held. -/
structure Flags where
  z : Bool
  c : Bool
  n : Bool
  v : Bool
deriving DecidableEq, Repr

/-- The run state (R28). -/
inductive RunState where
  | running
  | halted
  | faulted
deriving DecidableEq, Repr

/-- The five kinds of fault (R300). -/
inductive FaultKind where
  | invalidOpcode
  | memoryBoundsViolation
  | stackOverflow
  | stackUnderflow
  | divideByZero
deriving DecidableEq, Repr

/-- A fault's kind with the detail that kind has (R29, R300). DivideByZero's detail is always 0. -/
inductive FaultCause where
  /-- the address of the byte that failed to decode, and that byte -/
  | invalidOpcode (at_ : Nat) (byte : Byte)
  /-- the offending address, a natural number up to 0x10000 -/
  | memoryBoundsViolation (address : Nat)
  /-- the SP at the start of the step -/
  | stackOverflow (sp : Addr)
  /-- the SP at the start of the step -/
  | stackUnderflow (sp : Addr)
  | divideByZero
deriving DecidableEq, Repr

/-- The fault record (kind, addr, detail) of R29: addr is the PC at the start of the faulting step. -/
structure FaultRecord where
  cause : FaultCause
  addr  : Nat
deriving DecidableEq, Repr

/-- One sprite slot (R36; the widths are decision D35). -/
structure Sprite where
  bitmap  : Byte
  pal     : Byte
  x       : BitVec 16
  y       : BitVec 16
  hflip   : Bool
  vflip   : Bool
  enabled : Bool
deriving DecidableEq, Repr

/-- One tile layer (R37). The grid is sparse: `tiles[row][col]` stands under the key row * GW + col, an unlisted tile
index is 0. -/
structure TileLayer where
  tiles   : List (Nat × Byte)
  sx      : BitVec 16
  sy      : BitVec 16
  enabled : Bool
deriving DecidableEq, Repr

/-- The GPU's state (R33 to R38). The framebuffer is sparse: `FB[y][x]` stands under the key y * W + x, an unlisted cell
is 0; a cell holds 16 bits, of which M320x200x8 uses the low 8. -/
structure Gpu where
  lx      : Byte
  ly      : Byte
  fb      : List (Nat × BitVec 16)
  pal     : Vector Rgb 256
  spr     : Vector Sprite 64
  tl0     : TileLayer
  tl1     : TileLayer
  /-- the state the PORT_CONFIG handlers keep in the GPU (R38) -/
  latches : List Byte
deriving DecidableEq, Repr

/-- The fields of a sprite slot (R36). -/
inductive SpriteField where
  | bitmap | pal | x | y | hflip | vflip | enabled
deriving DecidableEq, Repr

/-- The two scroll axes of a layer (R37, R353). -/
inductive Axis where
  | x | y
deriving DecidableEq, Repr

/-- The GPU update operations (R353): the only ways a PORT_CONFIG handler may change the GPU's tables. -/
inductive GpuOp where
  | setSprite (slot : Nat) (field : SpriteField) (value : Nat)
  | setTile (layer row col : Nat) (t : Byte)
  | setScroll (layer : Nat) (axis : Axis) (value : Nat)
  | setLayerEnabled (layer : Nat) (b : Bool)
  | setPalette (i : Nat) (rgb : Rgb)
deriving DecidableEq, Repr

/-- The whole block: core, memory, GPU, interrupt queue, driver and configuration. -/
structure State where
  regs           : Regs
  /-- 0x0000 to 0x10000 (R23) -/
  pc             : Nat
  sp             : Addr
  flags          : Flags
  run            : RunState
  fault          : Option FaultRecord
  /-- the pending interrupt vectors, oldest first (R30) -/
  queue          : List Addr
  cycles         : Nat
  /-- the memory's bytes by address, canonical (R32); an unlisted byte is 0x00 -/
  mem            : List Host.Cell
  gpu            : Gpu
  /-- the bytes written to port 0x01, oldest first (R39, R342) -/
  terminal       : List Byte
  cyclesPerFrame : Nat
  /-- every (address, bytes) pair loaded, in call order (R39) -/
  images         : List (Addr × List Byte)
  /-- the reset PC (R405) -/
  entry          : Addr
  /-- the parameters of R6, never written -/
  config         : MachineConfig
  /-- the model's own: how many bytes were drawn from outside the block so far (R347, I9; log entry 4) -/
  inputDraws     : Nat
deriving DecidableEq, Repr

/-- What a configured port's read value may be a function of (R347: "a function of the block state"). What the spec keeps
from a program is no part of it: the PC, the SP and F as data (R21; C, N and V also R27), the cycle counter (R31, R326,
R363), the interrupt queue and the frame cadence, which are seen only through dispatches (R42). DESIGN CHOICE (log entry 6):
of the rest, the model shows the registers, memory, the GPU, the terminal stream, the images, `entry` and the configuration;
the run state and the fault record, Running and None whenever a step executes an IN (R100), and the model's own `inputDraws`
are left out. -/
structure PortView where
  regs     : Regs
  mem      : List Host.Cell
  gpu      : Gpu
  terminal : List Byte
  images   : List (Addr × List Byte)
  entry    : Addr
  config   : MachineConfig
deriving DecidableEq, Repr

/-- The machine's stops: NONE. Every fault of the spec (R300) has an effect the spec gives, a next state in which the core
is Faulted and the record written (R302, R303), and every address that can be formed is one the spec says what happens
at. So no reason to stop exists, and this type has no constructor. -/
inductive Fault where
deriving DecidableEq, Repr

/-- Why an instruction has no meaning. -/
inductive Refusal where
  /-- raised by an arm of exec whose instruction has no meaning yet; safe: nothing is claimed of it. No arm raises it. -/
  | notModelled (mnemonic : String)
deriving DecidableEq, Repr

/-- Reset values of the parts (R41). -/
def Regs.reset : Regs := { a := 0, b := 0, c := 0, d := 0, x := 0, y := 0 }

/-- F = 0x00 (R41). -/
def Flags.reset : Flags := { z := false, c := false, n := false, v := false }

/-- Every field of a slot 0 (R41). -/
def Sprite.reset : Sprite :=
  { bitmap := 0, pal := 0, x := 0, y := 0, hflip := false, vflip := false, enabled := false }

/-- Every tile index 0, sx = sy = 0, enabled = 0 (R41). -/
def TileLayer.reset : TileLayer := { tiles := [], sx := 0, sy := 0, enabled := false }

/-- LX = LY = 0, every cell 0, every entry (0, 0, 0), every slot and layer 0 (R41); the handlers' own state empty (log
entry 5). -/
def Gpu.reset : Gpu :=
  { lx := 0, ly := 0, fb := [], pal := Vector.replicate 256 { r := 0, g := 0, b := 0 },
    spr := Vector.replicate 64 Sprite.reset, tl0 := TileLayer.reset, tl1 := TileLayer.reset, latches := [] }

/-- A freshly created machine (R402): what `reset()` gives with no images and entry = 0x0200, under the default
configuration (R6). -/
def State.reset : State :=
  { regs := Regs.reset, pc := defaultEntry.toNat, sp := 0x01FF, flags := Flags.reset,
    run := .running, fault := none, queue := [], cycles := 0, mem := [], gpu := Gpu.reset,
    terminal := [], cyclesPerFrame := Config.cyclesPerFrame, images := [], entry := defaultEntry,
    config := defaultConfig, inputDraws := 0 }

end Sys2Proof.Machine

namespace Sys2Proof

/-- The write effect of the PORT_CONFIG handler named id (R347): from the written byte and the GPU's state, the handlers'
own new state (R38) and the update operations of R353 it performs, in order. OPEN: uninterpreted. -/
opaque Config.handlerWriteEffect : (id : Nat) → (v : Byte) → Machine.Gpu → List Byte × List Machine.GpuOp

/-- The read value, as a function of the block's state, of the PORT_CONFIG handler named id (R347). OPEN: uninterpreted.
DESIGN CHOICE (log entry 6): what of the state the function is given is `PortView`, in which nothing is that the spec keeps
from a program (R21, R27, R31, R42, R326, R363). -/
opaque Config.handlerValue : (id : Nat) → Machine.PortView → Byte

/-- The side effect of reading the configured port whose handler names id, where it has one (R76). OPEN: uninterpreted.
DESIGN CHOICE (log entry 6): the spec does not say what the effect may depend on; here it is the byte v that the IN read or
drew and the GPU's state before the read, as a write effect has the byte written (R347). -/
opaque Config.handlerReadEffect : (id : Nat) → (v : Byte) → Machine.Gpu → List Byte × List Machine.GpuOp

end Sys2Proof
end

