-- ==== Sys2Proof/Machine/Flags.lean ====
section
/-!
DEFINITION. The flags byte (spec/10_state.md R26) and every flag computation: AddFlags and SubFlags (41_arithmetic.md
R141), the flags of MUL and DIV (R146, R148), of INC and DEC (R150, R151), LogicFlags (42_logic.md R170) and the flags of
the shifts (R178, R179).
-/

namespace Sys2Proof.Machine

/-- F as a byte: `V<<3 | N<<2 | C<<1 | Z`, bits 7:4 zero (R26). -/
def Flags.toByte (f : Flags) : Byte :=
  BitVec.ofBool f.v ++ BitVec.ofBool f.n ++ BitVec.ofBool f.c ++ BitVec.ofBool f.z |>.setWidth 8

/-- F from a byte popped by RETI: bits 7:4 are discarded (R26, R196). -/
def Flags.ofByte (b : Byte) : Flags :=
  { z := b.getLsbD 0, c := b.getLsbD 1, n := b.getLsbD 2, v := b.getLsbD 3 }

/-- Z of a result: the result is 0. -/
def zeroFlag (res : Byte) : Bool := decide (res = 0)

/-- N of a result: its bit 7. -/
def negFlag (res : Byte) : Bool := res.getLsbD 7

/-- AddFlags (R141): the result and all four flags of a + b. -/
def addFlags (a b : Byte) : Byte × Flags :=
  let t := a.toNat + b.toNat
  let r := BitVec.ofNat 8 t
  (r, { z := zeroFlag r, c := decide (t > 255), n := negFlag r,
        v := decide (a.getLsbD 7 = b.getLsbD 7) && decide (r.getLsbD 7 ≠ a.getLsbD 7) })

/-- SubFlags (R141): the result and all four flags of a - b. C is the borrow. -/
def subFlags (a b : Byte) : Byte × Flags :=
  let r := BitVec.ofNat 8 (a.toNat + 256 - b.toNat)
  (r, { z := zeroFlag r, c := decide (a.toNat < b.toNat), n := negFlag r,
        v := decide (a.getLsbD 7 ≠ b.getLsbD 7) && decide (r.getLsbD 7 ≠ a.getLsbD 7) })

/-- LogicFlags (R170): Z and N from the result, C and V as they were. -/
def logicFlags (f : Flags) (res : Byte) : Flags :=
  { f with z := zeroFlag res, n := negFlag res }

/-- MUL (R146): low8 of the exact product; C when the product exceeds 0xFF, Z and N, V as it was. -/
def mulFlags (f : Flags) (a b : Byte) : Byte × Flags :=
  let t := a.toNat * b.toNat
  let r := BitVec.ofNat 8 t
  (r, { logicFlags f r with c := decide (t > 255) })

/-- DIV by a divisor that is not 0 (R148): the floor quotient; C cleared, Z and N, V as it was. -/
def divFlags (f : Flags) (a b : Byte) : Byte × Flags :=
  let q := BitVec.ofNat 8 (a.toNat / b.toNat)
  (q, { logicFlags f q with c := false })

/-- INC (R150): `low8(x + 1)`; Z and N only. -/
def incFlags (f : Flags) (a : Byte) : Byte × Flags :=
  let r := BitVec.ofNat 8 (a.toNat + 1)
  (r, { f with z := zeroFlag r, n := negFlag r })

/-- DEC (R151): `low8(x + 255)`; Z and N only. -/
def decFlags (f : Flags) (a : Byte) : Byte × Flags :=
  let r := BitVec.ofNat 8 (a.toNat + 255)
  (r, { f with z := zeroFlag r, n := negFlag r })

/-- SHL (R178): bit 7 goes to C, bit 0 is filled with 0; Z and N, V as it was. -/
def shlFlags (f : Flags) (a : Byte) : Byte × Flags :=
  let r := a <<< 1
  (r, { logicFlags f r with c := a.getLsbD 7 })

/-- SHR (R179): bit 0 goes to C, bit 7 is filled with 0; Z and N, V as it was. -/
def shrFlags (f : Flags) (a : Byte) : Byte × Flags :=
  let r := a >>> 1
  (r, { logicFlags f r with c := a.getLsbD 0 })

end Sys2Proof.Machine
end

