-- ==== Sys2Proof/Machine/Operands.lean ====
section
/-!
DEFINITION. Reading and writing operands: the general registers (spec/10_state.md R20, R21) and the 16-bit address a
base names (spec/30_encoding.md R95). Immediates, addresses and port numbers are used as they stand in the instruction
(R96).
-/

namespace Sys2Proof.Machine

/-- `x[r]` (spec/00_scope.md R8). -/
def Regs.get (g : Regs) : Reg → Byte
  | .a => g.a
  | .b => g.b
  | .c => g.c
  | .d => g.d
  | .x => g.x
  | .y => g.y

/-- `x[r] <- v` (R8). -/
def Regs.set (g : Regs) (r : Reg) (v : Byte) : Regs :=
  match r with
  | .a => { g with a := v }
  | .b => { g with b := v }
  | .c => { g with c := v }
  | .d => { g with d := v }
  | .x => { g with x := v }
  | .y => { g with y := v }

/-- The low register of the pair a base names (R95). -/
def Base.lowReg : Base → Reg
  | .a => .a
  | .c => .c
  | .x => .x

/-- The high register of the pair a base names: the register after the low one (R95). -/
def Base.highReg : Base → Reg
  | .a => .b
  | .c => .d
  | .x => .y

/-- EA(p): `zext_16(x[p+1]) << 8 | zext_16(x[p])` (R95). -/
def pairAddress (g : Regs) (p : Base) : Addr :=
  addrOfBytes (g.get (Base.lowReg p)) (g.get (Base.highReg p))

end Sys2Proof.Machine
end

