-- ==== Sys2Proof/Machine/Ops.lean ====
section
/-!
DEFINITION. The shared operations over the state: memory and its regions (spec/20_memory.md), the byte stack
(40_data_movement.md R124, R125), taking a fault (60_exceptions.md R302), taking an interrupt (R313) and returning from
one (43_control.md R196).

An operation that can fault answers `Except FaultCause State`. What it answers on success is built from the state it was
given; on a fault nothing of it is kept (`settle`), so the all-or-nothing rule R302 holds by construction.
-/

namespace Sys2Proof.Machine

/-! ## Memory (R60 to R73) -/

/-- What a byte nothing has written reads as: reset writes every byte 0x00 (R32, R41, R401). -/
def unlistedByte : Byte := 0

/-- One byte of a memory. -/
def Memory.read (m : List Host.Cell) (a : Nat) : Byte := sparseRead unlistedByte m a

/-- A memory with one byte written. -/
def Memory.write (m : List Host.Cell) (a : Nat) (v : Byte) : List Host.Cell := sparseWrite unlistedByte m a v

/-- The canonical form: addresses strictly rising and below 0x10000, no byte that reads as an unlisted one. -/
def Memory.wf (m : List Host.Cell) : Bool := sparseWf unlistedByte 0x10000 0 m

/-- Bytes written at consecutive addresses, lowest first. -/
def Memory.writeBytes (m : List Host.Cell) (a : Nat) : List Byte → List Host.Cell
  | [] => m
  | v :: rest => Memory.writeBytes (Memory.write m a v) (a + 1) rest

/-- The bytes of a memory from `first` to `last`, each at its address. -/
def Memory.window (m : List Host.Cell) (first last : Nat) : List Host.Cell := sparseWindow first last m

/-- MemRead(addr, 1): never faults, in any region (R65). -/
def State.byteAt (s : State) (a : Addr) : Byte := Memory.read s.mem a.toNat

/-- MemWrite(addr, 1, v) (R8). -/
def State.storeByte (s : State) (a : Addr) (v : Byte) : State :=
  { s with mem := Memory.write s.mem a.toNat v }

/-- The six regions (R60). -/
inductive Region where
  | zp | stk | pram | vram | sram | rom
deriving DecidableEq, Repr

/-- `region(a)`, for an address up to 0xFFFF (R60). -/
def region (a : Nat) : Region :=
  if a ≤ 0x00FF then .zp
  else if a ≤ 0x01FF then .stk
  else if a ≤ 0x7FFF then .pram
  else if a ≤ 0x9FFF then .vram
  else if a ≤ 0xBFFF then .sram
  else .rom

/-- `executable(a)`: a is an address, and it lies in PRAM or ROM (R64; decision D18). -/
def executable (a : Nat) : Bool :=
  decide (a ≤ 0xFFFF) && (decide (region a = .pram) || decide (region a = .rom))

/-- StoreCheck(a): a store to ROM faults (R67). -/
def storeCheck (a : Addr) : Except FaultCause Unit :=
  if region a.toNat = .rom then .error (.memoryBoundsViolation a.toNat) else .ok ()

/-- TargetCheck(t): a transfer to a target that is not executable faults (R69). -/
def targetCheck (t : Addr) : Except FaultCause Unit :=
  if executable t.toNat then .ok () else .error (.memoryBoundsViolation t.toNat)

/-- Fetch8(a): one instruction byte, a a natural number so that 0x10000 can be tested (R66, R70). -/
def fetch8 (s : State) (a : Nat) : Except FaultCause Byte :=
  if executable a then .ok (Memory.read s.mem a) else .error (.memoryBoundsViolation a)

/-! ## Registers and the PC -/

/-- `x[r]`. -/
def State.reg (s : State) (r : Reg) : Byte := s.regs.get r

/-- `x[r] <- v`. -/
def State.setReg (s : State) (r : Reg) (v : Byte) : State := { s with regs := s.regs.set r v }

/-- `F <- f`. -/
def State.setFlags (s : State) (f : Flags) : State := { s with flags := f }

/-- The PC advanced past an instruction of n bytes (R22, R100). It never wraps (R23, R70). -/
def State.advance (s : State) (n : Nat) : State := { s with pc := s.pc + n }

/-- `pc <- target` (R8). -/
def State.jumpTo (s : State) (t : Addr) : State := { s with pc := t.toNat }

/-! ## The stack (R124, R125) -/

/-- The lowest address of the stack region, and the full position (R25). -/
def stackBottom : Nat := 0x0100

/-- The highest address of the stack region, and the empty position (R25; decision D5). -/
def stackTop : Nat := 0x01FF

/-- The check of an operation that pushes n bytes: `sp - n ≥ 0x0100` (R124). -/
def checkPush (s : State) (n : Nat) : Except FaultCause Unit :=
  if stackBottom + n ≤ s.sp.toNat then .ok () else .error (.stackOverflow s.sp)

/-- The check of an operation that pops n bytes: `sp + n ≤ 0x01FF` (R124). -/
def checkPop (s : State) (n : Nat) : Except FaultCause Unit :=
  if s.sp.toNat + n ≤ stackTop then .ok () else .error (.stackUnderflow s.sp)

/-- Push8(v): decrement before push (R125). -/
def push8 (s : State) (v : Byte) : State :=
  { s with sp := s.sp - 1 }.storeByte (s.sp - 1) v

/-- Pop8(): increment after pop; the byte is not cleared (R125; decision D44). -/
def pop8 (s : State) : Byte × State :=
  (s.byteAt s.sp, { s with sp := s.sp + 1 })

/-- Push16(w): the high byte first, so that the low byte ends at the lower address (R72, R125). -/
def push16 (s : State) (w : Addr) : State :=
  push8 (push8 s (hiByte w)) (loByte w)

/-- Pop16(): the low byte, then the high byte (R125). -/
def pop16 (s : State) : Addr × State :=
  let lo := pop8 s
  let hi := pop8 lo.2
  (addrOfBytes lo.1 hi.1, hi.2)

/-! ## Taking a fault (R300 to R305) -/

/-- A fault's kind. -/
def FaultCause.kind : FaultCause → FaultKind
  | .invalidOpcode _ _ => .invalidOpcode
  | .memoryBoundsViolation _ => .memoryBoundsViolation
  | .stackOverflow _ => .stackOverflow
  | .stackUnderflow _ => .stackUnderflow
  | .divideByZero => .divideByZero

/-- The cause code of a kind (R300; the numbers are decision D23). -/
def FaultKind.code : FaultKind → Nat
  | .invalidOpcode => 1
  | .memoryBoundsViolation => 2
  | .stackOverflow => 3
  | .stackUnderflow => 4
  | .divideByZero => 5

/-- The state a fault leaves, from the state at the start of the step with its cycle counted: nothing changes but run and
the fault record, which takes the PC at the start of the step (R29, R302; decision D22). -/
def State.takeFault (s : State) (c : FaultCause) : State :=
  { s with run := .faulted, fault := some { cause := c, addr := s.pc } }

/-- The end of a step that began in s: what the operation answers, or the fault it raised taken in s (R302). -/
def settle (s : State) (r : Except FaultCause State) : Host.Outcome State Fault Refusal :=
  match r with
  | .ok t => .next t
  | .error c => .next (s.takeFault c)

/-! ## Interrupts (R310 to R317) -/

/-- Enqueue(v): a vector already pending is not queued again (R311; decision D17). -/
def State.enqueue (s : State) (v : Addr) : State :=
  if s.queue.contains v then s else { s with queue := s.queue ++ [v] }

/-- Trap entry, the dispatch of the pending vector v with `rest` queued behind it (R313): the checks in order (the
vector, the saved PC, the stack), then the PC and F pushed, the PC at the handler, and the entry gone from the queue. -/
def enterInterrupt (v : Addr) (rest : List Addr) (s : State) : Except FaultCause State := do
  targetCheck v
  if 0xFFFF < s.pc then .error (.memoryBoundsViolation s.pc)
  checkPush s 3
  let pushed := push8 (push16 s (BitVec.ofNat 16 s.pc)) s.flags.toByte
  .ok { pushed.jumpTo v with queue := rest }

/-- Trap return (R196, R317): F and then the PC popped, the popped PC checked before anything is kept. -/
def returnFromInterrupt (s : State) : Except FaultCause State := do
  checkPop s 3
  let f := pop8 s
  let t := pop16 f.2
  targetCheck t.1
  .ok ((t.2.setFlags (Flags.ofByte f.1)).jumpTo t.1)

end Sys2Proof.Machine
end

