-- ==== Sys2Proof/Machine/Arith.lean ====
section
/-!
DEFINITION. Arithmetic instructions (spec/41_arithmetic.md R140 to R151).
-/

namespace Sys2Proof.Machine

/-- The end of an instruction of n bytes that writes a result and the flags: `x[r] <- res ; F <- flags`. -/
def State.writeResult (s : State) (n : Nat) (r : Reg) (res : Byte × Flags) : State :=
  ((s.advance n).setReg r res.1).setFlags res.2

/-- `ADD r, s` (R142). -/
def execAddReg (r s : Reg) (st : State) : Host.Outcome State Fault Refusal :=
  .next (st.writeResult 2 r (addFlags (st.reg r) (st.reg s)))

/-- `ADD r, #imm` (R143). -/
def execAddImm (r : Reg) (imm : Byte) (st : State) : Host.Outcome State Fault Refusal :=
  .next (st.writeResult 3 r (addFlags (st.reg r) imm))

/-- `SUB r, s` (R144). -/
def execSubReg (r s : Reg) (st : State) : Host.Outcome State Fault Refusal :=
  .next (st.writeResult 2 r (subFlags (st.reg r) (st.reg s)))

/-- `SUB r, #imm` (R145). -/
def execSubImm (r : Reg) (imm : Byte) (st : State) : Host.Outcome State Fault Refusal :=
  .next (st.writeResult 3 r (subFlags (st.reg r) imm))

/-- `MUL s` (R146): A is the multiplicand and the destination. -/
def execMulReg (s : Reg) (st : State) : Host.Outcome State Fault Refusal :=
  .next (st.writeResult 2 .a (mulFlags st.flags (st.reg .a) (st.reg s)))

/-- `MUL #imm` (R147). -/
def execMulImm (imm : Byte) (st : State) : Host.Outcome State Fault Refusal :=
  .next (st.writeResult 2 .a (mulFlags st.flags (st.reg .a) imm))

/-- DIV by a divisor (R148, R149): a divisor of 0 faults, and A is the dividend and the destination. -/
def divideBy (divisor : Byte) (st : State) : Except FaultCause State :=
  if divisor = 0 then .error .divideByZero
  else .ok (st.writeResult 2 .a (divFlags st.flags (st.reg .a) divisor))

/-- `DIV s` (R148). -/
def execDivReg (s : Reg) (st : State) : Host.Outcome State Fault Refusal :=
  settle st (divideBy (st.reg s) st)

/-- `DIV #imm` (R149). -/
def execDivImm (imm : Byte) (st : State) : Host.Outcome State Fault Refusal :=
  settle st (divideBy imm st)

/-- `INC r` (R150): C and V unchanged. -/
def execInc (r : Reg) (st : State) : Host.Outcome State Fault Refusal :=
  .next (st.writeResult 2 r (incFlags st.flags (st.reg r)))

/-- `DEC r` (R151): C and V unchanged. -/
def execDec (r : Reg) (st : State) : Host.Outcome State Fault Refusal :=
  .next (st.writeResult 2 r (decFlags st.flags (st.reg r)))

end Sys2Proof.Machine
end

