-- ==== Sys2Proof/Machine/Compare.lean ====
section
/-!
DEFINITION. Comparison instructions (spec/45_compare.md R220, R221): the flags of a subtraction, no register written.
-/

namespace Sys2Proof.Machine

/-- `CMP r, s` (R220). -/
def execCmpReg (r s : Reg) (st : State) : Host.Outcome State Fault Refusal :=
  .next ((st.advance 2).setFlags (subFlags (st.reg r) (st.reg s)).2)

/-- `CMP r, #imm` (R221). -/
def execCmpImm (r : Reg) (imm : Byte) (st : State) : Host.Outcome State Fault Refusal :=
  .next ((st.advance 3).setFlags (subFlags (st.reg r) imm).2)

end Sys2Proof.Machine
end

