-- ==== Sys2Proof/Machine/Control.lean ====
section
/-!
DEFINITION. Control-transfer instructions (spec/43_control.md R190 to R197). Targets are checked at the transferring
instruction, before anything is kept (R190; decision D19).
-/

namespace Sys2Proof.Machine

/-- A checked transfer: `TargetCheck(t) ; pc <- t` (R69, R190). -/
def transferTo (t : Addr) (s : State) : Except FaultCause State := do
  targetCheck t
  .ok (s.jumpTo t)

/-- `JMP addr` (R191). -/
def execJmp (t : Addr) (st : State) : Host.Outcome State Fault Refusal :=
  settle st (transferTo t st)

/-- `JZ addr` (R192): the target is checked only when the jump is taken. -/
def execJz (t : Addr) (st : State) : Host.Outcome State Fault Refusal :=
  settle st (if st.flags.z then transferTo t st else .ok (st.advance 3))

/-- `JNZ addr` (R193): the target is checked only when the jump is taken. -/
def execJnz (t : Addr) (st : State) : Host.Outcome State Fault Refusal :=
  settle st (if st.flags.z then .ok (st.advance 3) else transferTo t st)

/-- `CALL addr` (R194): the checks in order (target, return address, stack), then the return address pushed and the PC at
the target. -/
def execCall (t : Addr) (st : State) : Host.Outcome State Fault Refusal :=
  settle st do
    targetCheck t
    if 0xFFFF < st.pc + 3 then .error (.memoryBoundsViolation (st.pc + 3))
    checkPush st 2
    .ok ((push16 st (BitVec.ofNat 16 (st.pc + 3))).jumpTo t)

/-- `RET` (R195): the stack check, then the popped target's. -/
def execRet (st : State) : Host.Outcome State Fault Refusal :=
  settle st do
    checkPop st 2
    let p := pop16 st
    transferTo p.1 p.2

/-- `RETI` (R196): F and the PC popped. -/
def execReti (st : State) : Host.Outcome State Fault Refusal :=
  settle st (returnFromInterrupt st)

/-- `HLT` (R197): the PC is past the instruction and the core Halted. -/
def execHlt (st : State) : Host.Outcome State Fault Refusal :=
  .next { st.advance 1 with run := .halted }

end Sys2Proof.Machine
end

