-- ==== Sys2Proof/Machine/Gpu.lean ====
section
/-!
DEFINITION. The GPU engine (spec/60_exceptions.md R350 to R360): colours, the pixel protocol, the update operations of
configured ports, and the frame render.
-/

namespace Sys2Proof.Machine

/-! ## Framebuffer and colours (R34, R351) -/

/-- What an unlisted cell of the framebuffer holds. -/
def blankCell : BitVec 16 := 0

/-- The key of `FB[y][x]`. -/
def pixelKey (m : VideoMode) (x y : Nat) : Nat := y * m.width + x

/-- `FB[y][x]`, for x < W and y < H. -/
def Gpu.pixel (m : VideoMode) (g : Gpu) (x y : Nat) : BitVec 16 := sparseRead blankCell g.fb (pixelKey m x y)

/-- `FB[y][x] <- v` where the pixel is on the screen; elsewhere nothing changes (R352, R356). -/
def Gpu.plot (m : VideoMode) (g : Gpu) (x y : Nat) (v : BitVec 16) : Gpu :=
  if x < m.width ∧ y < m.height then { g with fb := sparseWrite blankCell g.fb (pixelKey m x y) v } else g

/-- Colour(i): the index itself in M320x200x8, CONV16(PAL[i]) in M640x480x16 (R351). -/
def Gpu.colour (m : VideoMode) (g : Gpu) (i : Byte) : BitVec 16 :=
  match m with
  | .m320x200x8 => i.setWidth 16
  | .m640x480x16 => Config.conv16 (g.pal[i.toNat]'i.isLt)

/-- PixelDraw(LX, LY, i), with clipping (R345, R352). -/
def Gpu.pixelDraw (m : VideoMode) (g : Gpu) (i : Byte) : Gpu :=
  g.plot m g.lx.toNat g.ly.toNat (g.colour m i)

/-! ## The update operations of configured ports (R353) -/

/-- One field of a slot set, the value truncated to the field's width (R36, R353). -/
def Sprite.setField (s : Sprite) (f : SpriteField) (value : Nat) : Sprite :=
  match f with
  | .bitmap => { s with bitmap := BitVec.ofNat 8 value }
  | .pal => { s with pal := BitVec.ofNat 8 value }
  | .x => { s with x := BitVec.ofNat 16 value }
  | .y => { s with y := BitVec.ofNat 16 value }
  | .hflip => { s with hflip := decide (value % 2 = 1) }
  | .vflip => { s with vflip := decide (value % 2 = 1) }
  | .enabled => { s with enabled := decide (value % 2 = 1) }

/-- `TL[L] <- f(TL[L])`; there are two layers, and for any other L nothing changes (R37, R353). -/
def Gpu.updateLayer (g : Gpu) (layer : Nat) (f : TileLayer → TileLayer) : Gpu :=
  if layer = 0 then { g with tl0 := f g.tl0 }
  else if layer = 1 then { g with tl1 := f g.tl1 }
  else g

/-- What an unlisted tile index is. -/
def blankTile : Byte := 0

/-- The key of `tiles[row][col]`. -/
def tileKey (f : TileFormat) (row col : Nat) : Nat := row * f.gw + col

/-- `tiles[row][col]`. -/
def TileLayer.tile (f : TileFormat) (l : TileLayer) (row col : Nat) : Byte :=
  sparseRead blankTile l.tiles (tileKey f row col)

/-- `tiles[row][col] <- t`, for row < GH and col < GW; elsewhere nothing changes (R353). -/
def TileLayer.setTile (f : TileFormat) (row col : Nat) (t : Byte) (l : TileLayer) : TileLayer :=
  if row < f.gh ∧ col < f.gw then { l with tiles := sparseWrite blankTile l.tiles (tileKey f row col) t } else l

/-- A 16-bit scroll offset set, the value truncated (R37, R353). -/
def TileLayer.setScroll (axis : Axis) (value : Nat) (l : TileLayer) : TileLayer :=
  match axis with
  | .x => { l with sx := BitVec.ofNat 16 value }
  | .y => { l with sy := BitVec.ofNat 16 value }

/-- One update operation; an out-of-range slot, layer, row, column or entry changes nothing (R353). -/
def Gpu.apply (f : TileFormat) (g : Gpu) (op : GpuOp) : Gpu :=
  match op with
  | .setSprite slot field value =>
    if h : slot < 64 then { g with spr := g.spr.set slot (g.spr[slot].setField field value) } else g
  | .setTile layer row col t => g.updateLayer layer (TileLayer.setTile f row col t)
  | .setScroll layer axis value => g.updateLayer layer (TileLayer.setScroll axis value)
  | .setLayerEnabled layer b => g.updateLayer layer fun l => { l with enabled := b }
  | .setPalette i rgb => if h : i < 256 then { g with pal := g.pal.set i rgb } else g

/-- What a handler does to the GPU: its own state replaced, its update operations performed in order (R347, R353). -/
def Gpu.applyEffect (f : TileFormat) (g : Gpu) (e : List Byte × List GpuOp) : Gpu :=
  e.2.foldl (Gpu.apply f) { g with latches := e.1 }

/-! ## The frame render (R354 to R359) -/

/-- VRAM and SRAM, the memory the render reads (R60, R62). -/
def graphicsMemory (mem : List Host.Cell) : List Host.Cell := Memory.window mem 0x8000 0xBFFF

/-- SRAM, where sprite bitmaps lie (R36, R60). -/
def spriteMemory (mem : List Host.Cell) : List Host.Cell := Memory.window mem 0xA000 0xBFFF

/-- TilePixel(t, tx, ty): the default reads one byte a pixel from VRAM, 0x00 transparent (R357; decision D34); a configured
one is given VRAM and SRAM (R62). -/
def tilePixel (f : TileFormat) (mem : List Host.Cell) (t : Byte) (tx ty : Nat) : Option Byte :=
  match f.graphics with
  | .vram =>
    let b := Memory.read mem (0x8000 + (t.toNat * 64 + ty * 8 + tx) % 0x2000)
    if b = 0 then none else some b
  | .custom id => Config.customTilePixel id (graphicsMemory mem) t tx ty

/-- The pixel of a layer that falls at screen position (px, py), with scroll wrap-around, or none (R355). -/
def layerPixel (f : TileFormat) (mem : List Host.Cell) (l : TileLayer) (px py : Nat) : Option Byte :=
  let lx := (px + l.sx.toNat) % (f.gw * f.tw)
  let ly := (py + l.sy.toNat) % (f.gh * f.th)
  tilePixel f mem (l.tile f (ly / f.th) (lx / f.tw)) (lx % f.tw) (ly % f.th)

/-- What a layer's pixel at the key k writes to the framebuffer, if anything (R355). -/
def layerCell (c : MachineConfig) (mem : List Host.Cell) (l : TileLayer) (g : Gpu) (k : Nat) : Option (BitVec 16) :=
  (layerPixel c.tileFormat mem l (k % c.mode.width) (k / c.mode.width)).map (g.colour c.mode)

/-- RenderLayer(L) (R355): every pixel of the screen once, the ones with a pixel of the layer written. No pixel's value
depends on the framebuffer, so the order does not matter and the screen is written in one pass. -/
def renderLayer (c : MachineConfig) (mem : List Host.Cell) (l : TileLayer) (g : Gpu) : Gpu :=
  if l.enabled then
    { g with fb := sparseOverlay blankCell (layerCell c mem l g) (c.mode.width * c.mode.height) 0 g.fb }
  else g

/-- SpritePixel(bitmap, pal, bx, by): the default reads a 256-byte bitmap of SRAM, 0x00 transparent, and adds the slot's
palette offset (R358; decision D35); a configured one is given SRAM (R36, R62). -/
def spritePixel (f : SpriteFormat) (mem : List Host.Cell) (bitmap pal : Byte) (bx byRow : Nat) : Option Byte :=
  match f with
  | .sram =>
    let b := Memory.read mem (0xA000 + (bitmap.toNat % 32) * 256 + byRow * 16 + bx)
    if b = 0 then none else some (BitVec.ofNat 8 (pal.toNat + b.toNat))
  | .custom id => Config.customSpritePixel id (spriteMemory mem) bitmap pal bx byRow

/-- The pixel (sx, sy) of a sprite, flips applied (R356). -/
def spriteDot (f : SpriteFormat) (mem : List Host.Cell) (s : Sprite) (sx sy : Nat) : Option Byte :=
  spritePixel f mem s.bitmap s.pal (if s.hflip then 15 - sx else sx) (if s.vflip then 15 - sy else sy)

/-- One pixel of a sprite drawn, where it is not transparent and on the screen (R356). Positions are naturals and do not
wrap. -/
def drawDot (c : MachineConfig) (mem : List Host.Cell) (s : Sprite) (sy : Nat) (g : Gpu) (sx : Nat) : Gpu :=
  match spriteDot c.spriteFormat mem s sx sy with
  | some v => g.plot c.mode (s.x.toNat + sx) (s.y.toNat + sy) (g.colour c.mode v)
  | none => g

/-- One row of a sprite (R356). -/
def drawRow (c : MachineConfig) (mem : List Host.Cell) (s : Sprite) (g : Gpu) (sy : Nat) : Gpu :=
  (List.range 16).foldl (drawDot c mem s sy) g

/-- One sprite slot, when it is enabled (R356). -/
def drawSprite (c : MachineConfig) (mem : List Host.Cell) (g : Gpu) (s : Sprite) : Gpu :=
  if s.enabled then (List.range 16).foldl (drawRow c mem s) g else g

/-- RenderSprites(): the slots in ascending order, later slots over earlier (R356). -/
def renderSprites (c : MachineConfig) (mem : List Host.Cell) (g : Gpu) : Gpu :=
  g.spr.toList.foldl (drawSprite c mem) g

/-- What `Render()` does to the GPU: layer 0, layer 1 over it, then the sprites; nothing is cleared first (R354). -/
def composite (c : MachineConfig) (mem : List Host.Cell) (g : Gpu) : Gpu :=
  renderSprites c mem (renderLayer c mem g.tl1 (renderLayer c mem g.tl0 g))

/-- `Render()` (R354): the frame composited, then VBlank raised (R359). -/
def render (s : State) : State :=
  { s with gpu := composite s.config s.mem s.gpu }.enqueue s.config.vblankVector

end Sys2Proof.Machine
end

