-- ==== Sys2Proof/Machine/Ports.lean ====
section
/-!
DEFINITION. The port bus (spec/60_exceptions.md R340 to R347): what a write to a port does and what a read of it gives.
-/

namespace Sys2Proof.Machine

/-- Terminal output (R342). -/
def terminalPort : Byte := 0x01

/-- The GPU X latch (R343). -/
def latchXPort : Byte := 0x80

/-- The GPU Y latch (R344). -/
def latchYPort : Byte := 0x81

/-- The pixel-draw trigger (R345). -/
def drawPort : Byte := 0x82

/-- The PORT_CONFIG handler of a port, if it has one (R347). -/
def handlerOf : List (Byte × PortHandler) → Byte → Option PortHandler
  | [], _ => none
  | (q, h) :: rest, p => if p = q then some h else handlerOf rest p

/-- A handler's effect taken on the GPU (R347, R353). -/
def State.applyHandler (s : State) (e : List Byte × List GpuOp) : State :=
  { s with gpu := s.gpu.applyEffect s.config.tileFormat e }

/-- PortWrite(p, v) (R340, R341): the fixed ports, then the configured ones; a write to any other port does nothing
(R346). -/
def portWrite (s : State) (p v : Byte) : State :=
  if p = terminalPort then { s with terminal := s.terminal ++ [v] }
  else if p = latchXPort then { s with gpu := { s.gpu with lx := v } }
  else if p = latchYPort then { s with gpu := { s.gpu with ly := v } }
  else if p = drawPort then { s with gpu := s.gpu.pixelDraw s.config.mode v }
  else
    match handlerOf s.config.ports p with
    | none => s
    | some h => s.applyHandler (Config.handlerWriteEffect h.write v s.gpu)

/-- The side effect of reading the byte v from a configured port, where its handler has one (R76; log entry 6). -/
def readSideEffect (s : State) (h : PortHandler) (v : Byte) : State :=
  match h.readEffect with
  | none => s
  | some id => s.applyHandler (Config.handlerReadEffect id v s.gpu)

/-- What of the block's state a configured port's read value may depend on (R347; R21, R27, R31, R42, R326, R363; log
entry 6). -/
def State.portView (s : State) : PortView :=
  { regs := s.regs, mem := s.mem, gpu := s.gpu, terminal := s.terminal, images := s.images, entry := s.entry,
    config := s.config }

/-- PortRead(p) (R340, R341): 0x00 on the fixed ports and on every unmapped one (R342 to R346), the handler's value on a
configured one: a function of the block's state, or a byte drawn from outside the block (R347, I9). -/
def portRead (s : State) (p : Byte) : Byte × State :=
  if fixedPorts.contains p then (0, s)
  else
    match handlerOf s.config.ports p with
    | none => (0, s)
    | some h =>
      match h.read with
      | .blockFunction id =>
        let v := Config.handlerValue id s.portView
        (v, readSideEffect s h v)
      | .externalInput =>
        let v := Config.externalInput p s.inputDraws
        (v, readSideEffect { s with inputDraws := s.inputDraws + 1 } h v)

end Sys2Proof.Machine
end

