-- ==== Sys2Proof/Machine/Io.lean ====
section
/-!
DEFINITION. Port I/O instructions (spec/44_io.md R210, R211). Neither changes a flag or faults.
-/

namespace Sys2Proof.Machine

/-- `OUT port, r` (R210): `PortWrite(port8, x[r])`. -/
def execOut (port : Byte) (r : Reg) (st : State) : Host.Outcome State Fault Refusal :=
  .next (portWrite (st.advance 3) port (st.reg r))

/-- `IN r, port` (R211): `x[r] <- PortRead(port8)`. -/
def execIn (r : Reg) (port : Byte) (st : State) : Host.Outcome State Fault Refusal :=
  .next ((portRead (st.advance 3) port).2.setReg r (portRead (st.advance 3) port).1)

end Sys2Proof.Machine
end

