-- ==== Sys2Proof/Machine/Logic.lean ====
section
/-!
DEFINITION. Logic and shift instructions (spec/42_logic.md R170 to R179).
-/

namespace Sys2Proof.Machine

/-- The end of a logic instruction: `x[r] <- res ; LogicFlags(res)` (R170). -/
def State.writeLogic (s : State) (n : Nat) (r : Reg) (res : Byte) : State :=
  s.writeResult n r (res, logicFlags s.flags res)

/-- `AND r, s` (R171). -/
def execAndReg (r s : Reg) (st : State) : Host.Outcome State Fault Refusal :=
  .next (st.writeLogic 2 r (st.reg r &&& st.reg s))

/-- `AND r, #imm` (R172). -/
def execAndImm (r : Reg) (imm : Byte) (st : State) : Host.Outcome State Fault Refusal :=
  .next (st.writeLogic 3 r (st.reg r &&& imm))

/-- `OR r, s` (R173). -/
def execOrReg (r s : Reg) (st : State) : Host.Outcome State Fault Refusal :=
  .next (st.writeLogic 2 r (st.reg r ||| st.reg s))

/-- `OR r, #imm` (R174). -/
def execOrImm (r : Reg) (imm : Byte) (st : State) : Host.Outcome State Fault Refusal :=
  .next (st.writeLogic 3 r (st.reg r ||| imm))

/-- `XOR r, s` (R175). -/
def execXorReg (r s : Reg) (st : State) : Host.Outcome State Fault Refusal :=
  .next (st.writeLogic 2 r (st.reg r ^^^ st.reg s))

/-- `XOR r, #imm` (R176). -/
def execXorImm (r : Reg) (imm : Byte) (st : State) : Host.Outcome State Fault Refusal :=
  .next (st.writeLogic 3 r (st.reg r ^^^ imm))

/-- `NOT r` (R177): the one's complement. -/
def execNot (r : Reg) (st : State) : Host.Outcome State Fault Refusal :=
  .next (st.writeLogic 2 r (~~~(st.reg r)))

/-- `SHL r` (R178): by exactly one. -/
def execShl (r : Reg) (st : State) : Host.Outcome State Fault Refusal :=
  .next (st.writeResult 2 r (shlFlags st.flags (st.reg r)))

/-- `SHR r` (R179): logical, by exactly one. -/
def execShr (r : Reg) (st : State) : Host.Outcome State Fault Refusal :=
  .next (st.writeResult 2 r (shrFlags st.flags (st.reg r)))

end Sys2Proof.Machine
end

