-- ==== Sys2Proof/Machine/Move.lean ====
section
/-!
DEFINITION. Data movement instructions (spec/40_data_movement.md R120 to R127). None changes a flag (decision D7).
-/

namespace Sys2Proof.Machine

/-- `MOV r, s` (R120): `x[r] <- x[s]`. -/
def execMovReg (r s : Reg) (st : State) : Host.Outcome State Fault Refusal :=
  .next ((st.advance 2).setReg r (st.reg s))

/-- `MOV r, #imm` (R121): `x[r] <- imm8`. -/
def execMovImm (r : Reg) (imm : Byte) (st : State) : Host.Outcome State Fault Refusal :=
  .next ((st.advance 3).setReg r imm)

/-- `LOAD r, [p]` (R122): the address is formed before the write; a read never faults. -/
def execLoad (r : Reg) (p : Base) (st : State) : Host.Outcome State Fault Refusal :=
  .next ((st.advance 2).setReg r (st.byteAt (pairAddress st.regs p)))

/-- `STORE [p], r` (R123): a store to ROM faults. -/
def execStore (p : Base) (r : Reg) (st : State) : Host.Outcome State Fault Refusal :=
  settle st do
    storeCheck (pairAddress st.regs p)
    .ok ((st.advance 2).storeByte (pairAddress st.regs p) (st.reg r))

/-- `PUSH r` (R126). -/
def execPush (r : Reg) (st : State) : Host.Outcome State Fault Refusal :=
  settle st do
    checkPush st 1
    .ok (push8 (st.advance 2) (st.reg r))

/-- `POP r` (R127). -/
def execPop (r : Reg) (st : State) : Host.Outcome State Fault Refusal :=
  settle st do
    checkPop st 1
    let p := pop8 (st.advance 2)
    .ok (p.2.setReg r p.1)

end Sys2Proof.Machine
end

