-- ==== Sys2Proof/Machine/Dispatch.lean ====
section
/-!
DEFINITION. The meaning of every instruction: one arm per constructor of Instr. The state an arm is given has the PC at
the instruction and its cycle counted; the meaning moves the PC.
-/

namespace Sys2Proof.Machine

def exec (i : Instr) (s : State) : Host.Outcome State Fault Refusal :=
  match i with
  -- data movement
  | .movReg rd rs => Sys2Proof.Machine.execMovReg rd rs s
  | .movImm rd imm => Sys2Proof.Machine.execMovImm rd imm s
  | .load rd p => Sys2Proof.Machine.execLoad rd p s
  | .store p rs => Sys2Proof.Machine.execStore p rs s
  | .push rs => Sys2Proof.Machine.execPush rs s
  | .pop rd => Sys2Proof.Machine.execPop rd s
  -- arithmetic
  | .addReg rd rs => Sys2Proof.Machine.execAddReg rd rs s
  | .addImm rd imm => Sys2Proof.Machine.execAddImm rd imm s
  | .subReg rd rs => Sys2Proof.Machine.execSubReg rd rs s
  | .subImm rd imm => Sys2Proof.Machine.execSubImm rd imm s
  | .mulReg rs => Sys2Proof.Machine.execMulReg rs s
  | .mulImm imm => Sys2Proof.Machine.execMulImm imm s
  | .divReg rs => Sys2Proof.Machine.execDivReg rs s
  | .divImm imm => Sys2Proof.Machine.execDivImm imm s
  | .inc rd => Sys2Proof.Machine.execInc rd s
  | .dec rd => Sys2Proof.Machine.execDec rd s
  -- logic and shifts
  | .andReg rd rs => Sys2Proof.Machine.execAndReg rd rs s
  | .andImm rd imm => Sys2Proof.Machine.execAndImm rd imm s
  | .orReg rd rs => Sys2Proof.Machine.execOrReg rd rs s
  | .orImm rd imm => Sys2Proof.Machine.execOrImm rd imm s
  | .xorReg rd rs => Sys2Proof.Machine.execXorReg rd rs s
  | .xorImm rd imm => Sys2Proof.Machine.execXorImm rd imm s
  | .notReg rd => Sys2Proof.Machine.execNot rd s
  | .shl rd => Sys2Proof.Machine.execShl rd s
  | .shr rd => Sys2Proof.Machine.execShr rd s
  -- control transfer
  | .jmp t => Sys2Proof.Machine.execJmp t s
  | .jz t => Sys2Proof.Machine.execJz t s
  | .jnz t => Sys2Proof.Machine.execJnz t s
  | .call t => Sys2Proof.Machine.execCall t s
  | .ret => Sys2Proof.Machine.execRet s
  | .reti => Sys2Proof.Machine.execReti s
  | .hlt => Sys2Proof.Machine.execHlt s
  -- port I/O
  | .outPort port rs => Sys2Proof.Machine.execOut port rs s
  | .inPort rd port => Sys2Proof.Machine.execIn rd port s
  -- comparison
  | .cmpReg ra rb => Sys2Proof.Machine.execCmpReg ra rb s
  | .cmpImm ra imm => Sys2Proof.Machine.execCmpImm ra imm s

end Sys2Proof.Machine
end

