-- ==== Sys2Proof/Machine/Fetch.lean ====
section
/-!
DEFINITION. Fetching and decoding the instruction at the PC (spec/30_encoding.md R100 to R102, spec/60_exceptions.md
R307): the opcode byte, its lookup, the operand bytes in order, then the operand fields in order.
-/

namespace Sys2Proof.Machine

/-- Operand byte k, fetched when the opcode's arity has it (R102: no byte past the instruction is read). -/
def fetchOperand (s : State) (o : Opcode) (k : Nat) : Except FaultCause Byte :=
  if k ≤ o.operandBytes then fetch8 s (s.pc + k) else .ok 0

/-- The instruction at the PC, or the first fault of fetch and decode in the order of R307. -/
def fetchInstr (s : State) : Except FaultCause Instr := do
  let op ← fetch8 s s.pc
  match s.config.opcodeMap.lookup op with
  | none => .error (.invalidOpcode s.pc op)
  | some o =>
    let b1 ← fetchOperand s o 1
    let b2 ← fetchOperand s o 2
    match decodeOperands o b1 b2 with
    | .ok i => .ok i
    | .error (k, b) => .error (.invalidOpcode (s.pc + k) b)

end Sys2Proof.Machine
end

