-- ==== Sys2Proof/Machine/Running.lean ====
section
/-!
DEFINITION. What a step of a Running core does (spec/30_encoding.md R100): it counts its cycle, then dispatches a pending
interrupt or fetches, decodes and executes one instruction.
-/

namespace Sys2Proof.Machine

/-- The cycle a step counts when the core is Running (R100, R423). -/
def State.tick (s : State) : State := { s with cycles := s.cycles + 1 }

/-- The rest of a step of a Running core, its cycle counted: a pending interrupt's dispatch (R308, R312), else the
instruction at the PC. -/
def stepRunning (s : State) : Host.Outcome State Fault Refusal :=
  match s.queue with
  | v :: rest => settle s (enterInterrupt v rest s)
  | [] =>
    match fetchInstr s with
    | .ok i => exec i s
    | .error c => .next (s.takeFault c)

/-- s with an instruction's bytes stored at the PC, and the core about to fetch it: Running, with no fault record and no
interrupt pending. Bytes past 0xFFFF have no place and are left out. -/
def State.placeInstr (s : State) (bytes : List Byte) : State :=
  { s with
    mem := Memory.writeBytes s.mem s.pc (bytes.take (0x10000 - s.pc))
    run := .running, fault := none, queue := [] }

end Sys2Proof.Machine
end

