-- ==== Sys2Proof/Machine/Step.lean ====
section
/-!
DEFINITION. One step of the core (spec/30_encoding.md R100), and the placing of an instruction where the next step
fetches it.
-/

namespace Sys2Proof.Machine

/-- Step() (R100): a core that is not Running does nothing (R303, R315). -/
def step (s : State) : Host.Outcome State Fault Refusal :=
  match s.run with
  | .running => stepRunning s.tick
  | .halted => .next s
  | .faulted => .next s

/-- s with an instruction's bytes, as spec/opcode_table.json numbers its bits, where the next step fetches them. -/
def State.withFetchWord (s : State) (nbits w : Nat) : State := s.placeInstr (tableWordBytes nbits w)

end Sys2Proof.Machine
end

