-- ==== Sys2Proof/Machine/Driver.lean ====
section
/-!
DEFINITION. The Execution Driver: the host's operations on the block (spec/70_reset_and_hazards.md R400 to R427).
-/

namespace Sys2Proof.Machine

/-- The state after one step. A step always answers a next state, so the other two cases never occur. -/
def hostStep (s : State) : State :=
  match step s with
  | .next t => t
  | .fault _ => s
  | .refused _ => s

/-- What `step()` returns to the host: (run, fault) (R421). -/
def State.report (s : State) : RunState × Option FaultRecord := (s.run, s.fault)

/-- `runCycles(n)` (R422): the number of steps performed and the state after them. -/
def runCycles : Nat → State → Nat × State
  | 0, s => (0, s)
  | n + 1, s =>
    match s.run with
    | .running =>
      let r := runCycles n (hostStep s)
      (r.1 + 1, r.2)
    | .halted => (0, s)
    | .faulted => (0, s)

/-- The read-only copies the host is given (R426). -/
structure Snapshot where
  fb     : List (Nat × BitVec 16)
  regs   : Regs
  sp     : Addr
  flags  : Byte
  pc     : Nat
  cycles : Nat
  run    : RunState
  fault  : Option FaultRecord
deriving DecidableEq, Repr

/-- `Snapshot()` (R426; decision D46): neither memory nor the palette, sprites or layers. -/
def State.snapshot (s : State) : Snapshot :=
  { fb := s.gpu.fb, regs := s.regs, sp := s.sp, flags := s.flags.toByte, pc := s.pc, cycles := s.cycles,
    run := s.run, fault := s.fault }

/-- `tickFrame()` (R424): up to cyclesPerFrame steps, then the render, whatever the run state. The host is answered with
the snapshot of this state. -/
def tickFrame (s : State) : State := render (runCycles s.cyclesPerFrame s).2

/-- `setCyclesPerFrame(n)` (R425). -/
def setCyclesPerFrame (n : Nat) (s : State) : State := { s with cyclesPerFrame := n }

/-- The entry point after a load: the load's address when it is one of the two fixed load addresses (R405; decision
D26). -/
def entryAfterLoad (old address : Addr) : Addr :=
  if address = 0x0200 ∨ address = 0xC000 then address else old

/-- `loadProgram(bytes, address)` (R420): refused (none) when the image runs past 0xFFFF; else the bytes are written with
no permission check (R71), the image is kept and the entry point updated. Nothing else changes. -/
def loadProgram (bytes : List Byte) (address : Addr) (s : State) : Option State :=
  if address.toNat + bytes.length > 0x10000 then none
  else some
    { s with
      mem := Memory.writeBytes s.mem address.toNat bytes
      images := s.images ++ [(address, bytes)]
      entry := entryAfterLoad s.entry address }

/-- The memory a reset leaves: every byte 0x00, then every image written back in call order (R400, R401). -/
def reloadedMemory (images : List (Addr × List Byte)) : List Host.Cell :=
  images.foldl (fun m image => Memory.writeBytes m image.1.toNat image.2) []

/-- `reset()` (R400). The configuration, cyclesPerFrame, the images, the entry point and the terminal stream are kept; so
is the count of bytes drawn from outside, since each draw is fresh (I9). -/
def hostReset (s : State) : State :=
  { s with
    mem := reloadedMemory s.images
    regs := Regs.reset, flags := Flags.reset, sp := 0x01FF, pc := s.entry.toNat
    run := .running, fault := none, queue := [], cycles := 0
    gpu := Gpu.reset }

/-- The host's operations that act on the block (R427: it can use no others; `Snapshot()` only reads). -/
inductive HostCommand where
  | step
  | runCycles (n : Nat)
  | tickFrame
  | setCyclesPerFrame (n : Nat)
  | loadProgram (bytes : List Byte) (address : Addr)
  | reset
deriving DecidableEq, Repr

/-- The state after a host operation; a refused load changes nothing (R420). -/
def hostApply (c : HostCommand) (s : State) : State :=
  match c with
  | .step => hostStep s
  | .runCycles n => (Machine.runCycles n s).2
  | .tickFrame => Machine.tickFrame s
  | .setCyclesPerFrame n => Machine.setCyclesPerFrame n s
  | .loadProgram bytes address => (Machine.loadProgram bytes address s).getD s
  | .reset => hostReset s

end Sys2Proof.Machine
end

