-- ==== Sys2Proof/Safety.lean ====
section
/-!
DEFINITION. The terms the statements use: the invariant of the machine, the frames of an instruction (what it leaves
unchanged), and the encodings of spec/30_encoding.md written as numbers, apart from the decoder's and the encoder's own
text.
-/

namespace Sys2Proof.Machine

/-! ## The invariant -/

/-- What every reachable state is like. Each field cites the rule it comes from. -/
structure State.Inv (s : State) : Prop where
  /-- memory is in its canonical form: bytes at addresses below 0x10000, strictly rising, none 0x00 (R32) -/
  memWf : Memory.wf s.mem = true
  /-- the PC is in the range 0x0000 to 0x10000 (R23) -/
  pcRange : s.pc ≤ 0x10000
  /-- the SP is in the stack region (R24) -/
  spLow : 0x0100 ≤ s.sp.toNat
  spHigh : s.sp.toNat ≤ 0x01FF
  /-- the fault record is None exactly when the run state is not Faulted (R29) -/
  faultIff : s.fault.isSome = decide (s.run = .faulted)
  /-- a fault's address, and a MemoryBoundsViolation's detail, are at most 0x10000 (R29) -/
  faultAddr : ∀ r, s.fault = some r → r.addr ≤ 0x10000
  faultDetail : ∀ r a, s.fault = some r → r.cause = .memoryBoundsViolation a → a ≤ 0x10000
  /-- the queue is either empty or {VBLANK} (R30) -/
  queueShape : s.queue = [] ∨ s.queue = [s.config.vblankVector]
  /-- the configuration is well-formed (R6, R340, R347) -/
  configWf : s.config.wf = true
  /-- the framebuffer is canonical, its cells on the screen (R34) -/
  fbWf : sparseWf blankCell (s.config.mode.width * s.config.mode.height) 0 s.gpu.fb = true
  /-- in M320x200x8 a cell holds an 8-bit palette index (R34) -/
  fbDepth : s.config.mode = .m320x200x8 → ∀ cell ∈ s.gpu.fb, cell.2.toNat < 256
  /-- the tile grids are canonical, their tiles inside the grid (R37) -/
  tiles0Wf : sparseWf blankTile (s.config.tileFormat.gh * s.config.tileFormat.gw) 0 s.gpu.tl0.tiles = true
  tiles1Wf : sparseWf blankTile (s.config.tileFormat.gh * s.config.tileFormat.gw) 0 s.gpu.tl1.tiles = true
  /-- every image kept fits the address space (R420) -/
  imagesFit : ∀ image ∈ s.images, image.1.toNat + image.2.length ≤ 0x10000
  /-- the entry point is one of the two fixed load addresses (R405) -/
  entryFixed : s.entry = 0x0200 ∨ s.entry = 0xC000

/-- The SP is in the stack region (R24). -/
def State.spInStack (s : State) : Prop := 0x0100 ≤ s.sp.toNat ∧ s.sp.toNat ≤ 0x01FF

/-! ## Frames -/

/-- Every general register but the ones listed is unchanged. -/
def SameRegsBut (rs : List Reg) (s t : State) : Prop := ∀ q, q ∉ rs → t.reg q = s.reg q

/-- Every byte of memory outside the n bytes from lo on reads as before. With n = 0, every byte. -/
def SameMemoryBut (lo n : Nat) (s t : State) : Prop :=
  ∀ a, ¬(lo ≤ a ∧ a < lo + n) → Memory.read t.mem a = Memory.read s.mem a

/-- Every byte of memory reads as before. -/
def SameMemory (s t : State) : Prop := ∀ a, Memory.read t.mem a = Memory.read s.mem a

/-- The driver's state, the configuration, the cycle counter and the interrupt queue are unchanged. -/
def SameDriver (s t : State) : Prop :=
  t.queue = s.queue ∧ t.cycles = s.cycles ∧ t.cyclesPerFrame = s.cyclesPerFrame ∧ t.images = s.images ∧
  t.entry = s.entry ∧ t.config = s.config

/-- Everything outside the registers, the flags, the PC, the SP and memory is unchanged: the run state and the fault
record, the driver's state, the GPU, the terminal stream, the inputs drawn. -/
def SameOutside (s t : State) : Prop :=
  t.run = s.run ∧ t.fault = s.fault ∧ SameDriver s t ∧ t.gpu = s.gpu ∧ t.terminal = s.terminal ∧
  t.inputDraws = s.inputDraws

/-- The frame of an instruction that writes only the registers listed and, perhaps, the flags, and moves the PC. -/
def OnlyRegs (rs : List Reg) (s t : State) : Prop :=
  SameRegsBut rs s t ∧ t.sp = s.sp ∧ SameMemory s t ∧ SameOutside s t

/-- The frame of an instruction that moves the SP and stores n bytes from lo on, and moves the PC. -/
def OnlyStack (lo n : Nat) (s t : State) : Prop :=
  SameRegsBut [] s t ∧ SameMemoryBut lo n s t ∧ SameOutside s t

/-- The state a fault leaves, written out (R302): s with run = Faulted and the record (cause, PC). -/
def FaultedFrom (s : State) (c : FaultCause) : State :=
  { s with run := .faulted, fault := some { cause := c, addr := s.pc } }

/-- An instruction raises a fault: it ends with nothing changed but run and the record. -/
def Raises (i : Instr) (s : State) (c : FaultCause) : Prop := exec i s = .next (FaultedFrom s c)

end Sys2Proof.Machine

namespace Sys2Proof

open Machine

/-! ## Encodings as numbers (R91 to R97) -/

/-- A register's code (R92). -/
def Reg.number : Reg → Nat
  | .a => 0
  | .b => 1
  | .c => 2
  | .d => 3
  | .x => 4
  | .y => 5

/-- A base's field (R95). -/
def Base.number : Base → Nat
  | .a => 0
  | .c => 2
  | .x => 4

/-- `r<<4 | s` (R94). -/
def rrNumber (hi lo : Nat) : Byte := BitVec.ofNat 8 (16 * hi + lo)

/-- `0x0r` (R93). -/
def rNumber (r : Reg) : Byte := BitVec.ofNat 8 r.number

/-- The two bytes of an address operand, the low one first (R96). -/
def addressBytes (t : Addr) : List Byte := [BitVec.ofNat 8 (t.toNat % 256), BitVec.ofNat 8 (t.toNat / 256)]

/-- The bytes are the instruction's encoding under the default opcode map: the encoder gives them, and the decoder reads
the instruction from them, whatever follows. -/
def EncodedAs (i : Instr) (bytes : List Byte) : Prop :=
  encode defaultOpcodeMap i = some bytes ∧ ∀ rest, decode defaultOpcodeMap (bytes ++ rest) = .ok (i, rest)

/-- The n bytes of memory from the PC on. -/
def Machine.bytesAtPc (s : State) (n : Nat) : List Byte :=
  (List.range n).map fun k => Memory.read s.mem (s.pc + k)

/-- A result's Z and N, and C and V kept (R150, R170). -/
def Machine.ZeroNegOnly (old new : Flags) (res : Byte) : Prop :=
  (new.z = true ↔ res.toNat = 0) ∧ (new.n = true ↔ 128 ≤ res.toNat) ∧ new.c = old.c ∧ new.v = old.v

/-- a + b and its four flags, over the numbers: C the unsigned and V the signed overflow (R140, R141). -/
def Machine.IsSum (a b res : Byte) (f : Flags) : Prop :=
  res.toNat = (a.toNat + b.toNat) % 256 ∧ (f.z = true ↔ res.toNat = 0) ∧ (f.c = true ↔ 255 < a.toNat + b.toNat) ∧
  (f.n = true ↔ 128 ≤ res.toNat) ∧ (f.v = true ↔ a.toInt + b.toInt < -128 ∨ 127 < a.toInt + b.toInt)

/-- a - b and its four flags, over the numbers: C the borrow and V the signed overflow (R140, R141). -/
def Machine.IsDifference (a b res : Byte) (f : Flags) : Prop :=
  res.toNat = (a.toNat + 256 - b.toNat) % 256 ∧ (f.z = true ↔ a = b) ∧ (f.c = true ↔ a.toNat < b.toNat) ∧
  (f.n = true ↔ 128 ≤ res.toNat) ∧ (f.v = true ↔ a.toInt - b.toInt < -128 ∨ 127 < a.toInt - b.toInt)

/-- The low 8 bits of a * b and the flags of MUL: C when the product exceeds 0xFF, V kept (R146). -/
def Machine.IsProduct (a b res : Byte) (old f : Flags) : Prop :=
  res.toNat = a.toNat * b.toNat % 256 ∧ (f.z = true ↔ res.toNat = 0) ∧ (f.c = true ↔ 255 < a.toNat * b.toNat) ∧
  (f.n = true ↔ 128 ≤ res.toNat) ∧ f.v = old.v

/-- The floor quotient a / b and the flags of DIV: C cleared, V kept (R148). -/
def Machine.IsQuotient (a b res : Byte) (old f : Flags) : Prop :=
  res.toNat = a.toNat / b.toNat ∧ (f.z = true ↔ res.toNat = 0) ∧ f.c = false ∧
  (f.n = true ↔ 128 ≤ res.toNat) ∧ f.v = old.v

/-- The flags byte as a number (R26). -/
def Machine.Flags.number (f : Flags) : Nat := 8 * f.v.toNat + 4 * f.n.toNat + 2 * f.c.toNat + f.z.toNat

/-- The 16-bit number in the two bytes of memory from a on, the low byte first (R72). -/
def Machine.wordAt (s : State) (a : Nat) : Nat :=
  256 * (Memory.read s.mem (a + 1)).toNat + (Memory.read s.mem a).toNat

/-- The port has no fixed handler (R341). -/
def Machine.notFixed (p : Byte) : Prop := p ≠ 0x01 ∧ p ≠ 0x80 ∧ p ≠ 0x81 ∧ p ≠ 0x82

/-- One more VBlank raised and one step taken: a handler that is interrupted again before it returns (R316). -/
def Machine.interruptedStep (s : State) : State := hostStep (s.enqueue s.config.vblankVector)

/-- The palette index the tile layer shows at the screen position (x, y), if it is enabled and not transparent there
(R355). -/
def Machine.layerShows (c : MachineConfig) (mem : List Host.Cell) (l : TileLayer) (x y : Nat) : Option Byte :=
  let f := c.tileFormat
  let lx := (x + l.sx.toNat) % (f.gw * f.tw)
  let ly := (y + l.sy.toNat) % (f.gh * f.th)
  if l.enabled then tilePixel f mem (l.tile f (ly / f.th) (lx / f.tw)) (lx % f.tw) (ly % f.th) else none

/-- The palette index a sprite shows at the screen position (x, y), if it is enabled, covers the position and is not
transparent there (R356). -/
def Machine.spriteShows (c : MachineConfig) (mem : List Host.Cell) (x y : Nat) (s : Sprite) : Option Byte :=
  if s.enabled = true ∧ s.x.toNat ≤ x ∧ x < s.x.toNat + 16 ∧ s.y.toNat ≤ y ∧ y < s.y.toNat + 16 then
    let sx := x - s.x.toNat
    let sy := y - s.y.toNat
    spritePixel c.spriteFormat mem s.bitmap s.pal (if s.hflip then 15 - sx else sx) (if s.vflip then 15 - sy else sy)
  else none

/-- The palette index of the topmost sprite at (x, y): the highest slot that shows one (R356). -/
def Machine.topSprite (c : MachineConfig) (mem : List Host.Cell) (sprites : List Sprite) (x y : Nat) : Option Byte :=
  sprites.reverse.findSome? (spriteShows c mem x y)

/-- The framebuffer is canonical and on the screen (R34). -/
def Machine.fbCanonical (c : MachineConfig) (g : Gpu) : Prop :=
  sparseWf blankCell (c.mode.width * c.mode.height) 0 g.fb = true

/-- The 16-bit address of the pair a base names: high register * 256 + low register (R95). -/
def Machine.pairNumber (s : State) (p : Base) : Nat :=
  match p with
  | .a => 256 * (s.reg .b).toNat + (s.reg .a).toNat
  | .c => 256 * (s.reg .d).toNat + (s.reg .c).toNat
  | .x => 256 * (s.reg .y).toNat + (s.reg .x).toNat

end Sys2Proof
end

