-- ==== Sys2Proof/Certificates/Slice0/Obligations.lean ====
section
/-!
DEFINITION. The statements for the provers. Each docstring names the rule of spec/ it formalises; where the rule carries
one of the spec's own decisions (spec/92_eei_decisions.md), the docstring names it.
-/

open Sys2Proof Sys2Proof.Machine

/-! ## Encodings and decoding -/

/-- R90 to R97, for every opcode map in which no byte stands twice (OPCODE_MAP is a parameter, R6): the bytes of an
instruction are 1 to 3, as many as its length, and decode to it whatever follows. -/
def Obligations.EncodeThenDecodeGivesTheInstruction : Prop :=
  ∀ (m : OpcodeMap) (i : Instr), m.wf = true → i.wf m = true →
    ∃ bytes, encode m i = some bytes ∧ bytes.length = i.length ∧ 1 ≤ bytes.length ∧ bytes.length ≤ 3 ∧
      ∀ rest, decode m (bytes ++ rest) = .ok (i, rest)

/-- Each encoding is unique (decision D43): bytes that decode are the encoding of what they decode to, followed by the
bytes left over, under the default map. -/
def Obligations.DecodedBytesAreTheEncoding : Prop :=
  ∀ (bytes : List Byte) (i : Instr) (rest : List Byte), decode defaultOpcodeMap bytes = .ok (i, rest) →
    ∃ w, encode defaultOpcodeMap i = some w ∧ bytes = w ++ rest

/-- R98 (a): the opcode bytes that are not in the default map. -/
def Obligations.UnassignedOpcodeBytesDoNotDecode : Prop :=
  ∀ (b : Byte) (rest : List Byte), decode defaultOpcodeMap (b :: rest) = .error (.unknownOpcode b) ↔
    (b.toNat = 0x00 ∨ (0x07 ≤ b.toNat ∧ b.toNat ≤ 0x0F) ∨ (0x1A ≤ b.toNat ∧ b.toNat ≤ 0x1F) ∨
     (0x29 ≤ b.toNat ∧ b.toNat ≤ 0x2F) ∨ (0x37 ≤ b.toNat ∧ b.toNat ≤ 0x3F) ∨
     (0x42 ≤ b.toNat ∧ b.toNat ≤ 0x4F) ∨ 0x52 ≤ b.toNat)

/-- R93, R94, R95, R98 (b) to (d): which operand bytes do not decode, format by format. An R byte decodes only if its
high nibble is 0 and its low nibble at most 5; an RR byte only if both fields are at most 5; a LOAD or STORE base only if
it is 0, 2 or 4. Immediates, addresses and port numbers always decode. -/
def Obligations.OperandBytesThatDoNotDecode : Prop :=
  ∀ b1 b2 : Byte,
    (∀ o ∈ [Opcode.push, .pop, .mulReg, .divReg, .inc, .dec, .notReg, .shl, .shr, .movImm, .addImm, .subImm, .andImm,
        .orImm, .xorImm, .cmpImm, .inPort],
      (decodeOperands o b1 b2 = .error (1, b1) ↔ 5 < b1.toNat) ∧
      ((∃ i, decodeOperands o b1 b2 = .ok i) ↔ b1.toNat ≤ 5)) ∧
    (∀ o ∈ [Opcode.movReg, .addReg, .subReg, .andReg, .orReg, .xorReg, .cmpReg],
      (decodeOperands o b1 b2 = .error (1, b1) ↔ 5 < b1.toNat / 16 ∨ 5 < b1.toNat % 16) ∧
      ((∃ i, decodeOperands o b1 b2 = .ok i) ↔ b1.toNat / 16 ≤ 5 ∧ b1.toNat % 16 ≤ 5)) ∧
    (decodeOperands .load b1 b2 = .error (1, b1) ↔ 5 < b1.toNat / 16 ∨ b1.toNat % 16 ∉ [0, 2, 4]) ∧
    ((∃ i, decodeOperands .load b1 b2 = .ok i) ↔ b1.toNat / 16 ≤ 5 ∧ b1.toNat % 16 ∈ [0, 2, 4]) ∧
    (decodeOperands .store b1 b2 = .error (1, b1) ↔ b1.toNat / 16 ∉ [0, 2, 4] ∨ 5 < b1.toNat % 16) ∧
    ((∃ i, decodeOperands .store b1 b2 = .ok i) ↔ b1.toNat / 16 ∈ [0, 2, 4] ∧ b1.toNat % 16 ≤ 5) ∧
    (decodeOperands .outPort b1 b2 = .error (2, b2) ↔ 5 < b2.toNat) ∧
    ((∃ i, decodeOperands .outPort b1 b2 = .ok i) ↔ b2.toNat ≤ 5) ∧
    (∀ o ∈ [Opcode.mulImm, .divImm, .jmp, .jz, .jnz, .call, .ret, .reti, .hlt],
      ∃ i, decodeOperands o b1 b2 = .ok i)

/-- A sanity statement: words written out from the examples of the instruction rules (R120 to R221) decode to the
instruction they stand for. -/
def Obligations.ExampleWordsDecode : Prop :=
  decode defaultOpcodeMap [0x01, 0x01] = .ok (.movReg .a .b, []) ∧
  decode defaultOpcodeMap [0x02, 0x04, 0x00] = .ok (.movImm .x 0x00, []) ∧
  decode defaultOpcodeMap [0x03, 0x04] = .ok (.load .a .x, []) ∧
  decode defaultOpcodeMap [0x04, 0x40] = .ok (.store .x .a, []) ∧
  decode defaultOpcodeMap [0x13, 0x02, 0x03] = .ok (.subImm .c 0x03, []) ∧
  decode defaultOpcodeMap [0x26, 0x01] = .ok (.notReg .b, []) ∧
  decode defaultOpcodeMap [0x33, 0x0B, 0x02] = .ok (.call 0x020B, []) ∧
  decode defaultOpcodeMap [0x40, 0x01, 0x00] = .ok (.outPort 0x01 .a, []) ∧
  decode defaultOpcodeMap [0x41, 0x01, 0x7F] = .ok (.inPort .b 0x7F, []) ∧
  decode defaultOpcodeMap [0x51, 0x00, 0x00] = .ok (.cmpImm .a 0x00, [])

/-! ## The step -/

/-- R100, R101: when the core is Running, no interrupt is pending, every byte of the instruction lies at an executable
address and the bytes at the PC decode to i, the step is exec of i, on the state with its cycle counted and the PC still
at the instruction (exec itself moves the PC). -/
def Obligations.StepRunsTheDecodedInstruction : Prop :=
  ∀ (s : State) (i : Instr), s.run = .running → s.queue = [] →
    (∀ k, k < i.length → executable (s.pc + k) = true) →
    decode s.config.opcodeMap (bytesAtPc s i.length) = .ok (i, []) →
    step s = exec i { s with cycles := s.cycles + 1 }

/-- R66, R98, R100, R307 (2 to 5): the faults of fetch and decode, in their order: the opcode byte's fetch, its lookup,
the operand bytes' fetch one after the other, then the operand fields. -/
def Obligations.FetchAndDecodeFaultsComeInOrder : Prop :=
  ∀ s : State, s.run = .running → s.queue = [] →
    (executable s.pc = false →
      step s = .next (FaultedFrom { s with cycles := s.cycles + 1 } (.memoryBoundsViolation s.pc))) ∧
    (executable s.pc = true → s.config.opcodeMap.lookup (Memory.read s.mem s.pc) = none →
      step s = .next (FaultedFrom { s with cycles := s.cycles + 1 }
        (.invalidOpcode s.pc (Memory.read s.mem s.pc)))) ∧
    ∀ o : Opcode, executable s.pc = true → s.config.opcodeMap.lookup (Memory.read s.mem s.pc) = some o →
      (2 ≤ o.length → executable (s.pc + 1) = false →
        step s = .next (FaultedFrom { s with cycles := s.cycles + 1 } (.memoryBoundsViolation (s.pc + 1)))) ∧
      (3 ≤ o.length → executable (s.pc + 1) = true → executable (s.pc + 2) = false →
        step s = .next (FaultedFrom { s with cycles := s.cycles + 1 } (.memoryBoundsViolation (s.pc + 2)))) ∧
      (∀ (k : Nat) (b : Byte), (∀ j, j < o.length → executable (s.pc + j) = true) →
        decode s.config.opcodeMap (bytesAtPc s o.length) = .error (.badOperand k b) →
        step s = .next (FaultedFrom { s with cycles := s.cycles + 1 } (.invalidOpcode (s.pc + k) b)))

/-- R302: a step that ends Faulted has changed nothing but the run state, the fault record, which takes the PC at the
start of the step, and the cycle counter (decisions D22, D25). -/
def Obligations.FaultingStepChangesNothingElse : Prop :=
  ∀ s t : State, s.run = .running → step s = .next t → t.run = .faulted →
    ∃ c : FaultCause, t = { s with cycles := s.cycles + 1, run := .faulted, fault := some { cause := c, addr := s.pc } }

/-- R303, R315: a core that is not Running does nothing, whatever is pending. -/
def Obligations.StoppedCoreStaysAsItIs : Prop :=
  ∀ s : State, s.run ≠ .running → step s = .next s ∧ ∀ n, runCycles n s = (0, s)

/-- Nothing stops the model: every step, and every instruction in every state, answers a next state. That a fault is such a
state, and no stop, is the model's choice of outcome (log entry 2, DEDUCED from R302 and R303); R99 and R305 leave no other
reason to stop. It does not say that an instruction completes: a next state may be Faulted. -/
def Obligations.EveryStepAnswersANextState : Prop :=
  (∀ s : State, ∃ t, step s = .next t) ∧ ∀ (i : Instr) (s : State), ∃ t, exec i s = .next t

/-- R28: the run state is Running on a fresh machine. A step of a Running core ends Halted exactly when it executes HLT,
and Faulted exactly when it takes a fault; every other step leaves it Running. Only a reset leaves Halted or Faulted. -/
def Obligations.RunStateMovesOnlyAsStated : Prop :=
  State.reset.run = .running ∧
  (∀ s t : State, s.run = .running → step s = .next t →
    (t.run = .halted ↔ s.queue = [] ∧ fetchInstr s = .ok .hlt) ∧
    (t.run = .faulted ↔ ∃ c, t = FaultedFrom { s with cycles := s.cycles + 1 } c)) ∧
  (∀ (s : State) (c : HostCommand), s.run ≠ .running → c ≠ .reset → (hostApply c s).run = s.run) ∧
  (∀ s : State, (hostApply .reset s).run = .running)

/-- R422, R423: runCycles(n) takes k ≤ n steps, each from a Running core, stops short of n only when the core no longer
runs, and the cycle counter rises by exactly k (decisions D25, D45). No step of a run reads the counter (R31, R326; the
host's snapshot does, R426): a run from the same state with any other count m takes the same k steps and ends in the same
state, with m + k counted. That this holds with configured ports too rests on the model's reading of R347, that a handler is
not given the counter (log entry 6, DEDUCED). -/
def Obligations.RunCyclesTakesAndCountsItsSteps : Prop :=
  ∀ (n : Nat) (s : State),
    let k := (runCycles n s).1
    let t := (runCycles n s).2
    t = hostStep^[k] s ∧ k ≤ n ∧ (∀ j, j < k → (hostStep^[j] s).run = .running) ∧
    (k < n → t.run ≠ .running) ∧ t.cycles = s.cycles + k ∧
    ∀ m : Nat, runCycles n { s with cycles := m } = (k, { t with cycles := m + k })

/-! ## Invariants and whole-machine rules -/

/-- The invariant holds of the fresh machine (R41, R402). -/
def Obligations.ResetStateMeetsTheInvariant : Prop := State.reset.Inv

/-- Every step keeps the invariant: memory canonical (R32), the PC in range (R23), the SP in the stack region (R24), the
fault record there exactly when Faulted (R29), the queue at most one VBlank (R30), the framebuffer and the tile grids
canonical and in bounds, 8-bit cells in M320x200x8 (R34, R37). -/
def Obligations.EveryStepKeepsTheInvariant : Prop :=
  ∀ s t : State, s.Inv → step s = .next t → t.Inv

/-- Every host operation keeps the invariant: steps, runs, frames, loads and resets (R400 to R427). -/
def Obligations.EveryHostOperationKeepsTheInvariant : Prop :=
  ∀ (c : HostCommand) (s : State), s.Inv → (hostApply c s).Inv

/-- R24: every step keeps the SP in the stack region, and an instruction that changes the SP is PUSH, POP, CALL, RET or
RETI (the one other thing that changes it is a dispatch). -/
def Obligations.StackPointerStaysInItsRegion : Prop :=
  (∀ s t : State, s.spInStack → step s = .next t → t.spInStack) ∧
  (∀ (i : Instr) (s t : State), exec i s = .next t → t.sp ≠ s.sp →
    i.opcode ∈ [Opcode.push, .pop, .call, .ret, .reti])

/-- R63, R67, R68, R80: no step changes a byte of ROM. The premises are parts of the invariant. -/
def Obligations.NoStepChangesRom : Prop :=
  ∀ (s t : State) (a : Nat), Memory.wf s.mem = true → s.spInStack → step s = .next t → 0xC000 ≤ a →
    Memory.read t.mem a = Memory.read s.mem a

/-- R39, R41, R350, R405, R425: no host operation writes the configuration; the images, the entry point and
cyclesPerFrame change only by their own operations, and setCyclesPerFrame(n) sets cyclesPerFrame to n and changes nothing
else; terminal output is only ever added to. -/
def Obligations.ConfigurationIsNeverWritten : Prop :=
  ∀ (c : HostCommand) (s : State),
    (hostApply c s).config = s.config ∧
    ((∀ bytes a, c ≠ .loadProgram bytes a) →
      (hostApply c s).images = s.images ∧ (hostApply c s).entry = s.entry) ∧
    ((∀ n, c ≠ .setCyclesPerFrame n) → (hostApply c s).cyclesPerFrame = s.cyclesPerFrame) ∧
    (∀ n, hostApply (.setCyclesPerFrame n) s = { s with cyclesPerFrame := n }) ∧
    ∃ out, (hostApply c s).terminal = s.terminal ++ out

/-- Two canonical memories that read alike are equal data, and a write keeps the canonical form and changes one byte (the
model's memory, R32, R78). -/
def Obligations.CanonicalMemoriesThatReadAlikeAreEqual : Prop :=
  (∀ m m' : List Host.Cell, Memory.wf m = true → Memory.wf m' = true →
    (∀ a, Memory.read m a = Memory.read m' a) → m = m') ∧
  (∀ (m : List Host.Cell) (a : Addr) (v : Byte), Memory.wf m = true →
    Memory.wf (Memory.write m a.toNat v) = true ∧
    ∀ b, Memory.read (Memory.write m a.toNat v) b = if b = a.toNat then v else Memory.read m b)

/-- R26: the flags byte is `V<<3 | N<<2 | C<<1 | Z`, its bits 7:4 are 0 and cannot be set, and a byte loaded into F keeps
its bits 3:0 only (decision D6). -/
def Obligations.FlagsByteHoldsFourFlags : Prop :=
  (∀ f : Flags, f.toByte.toNat = f.number ∧ f.toByte.toNat < 16 ∧ Flags.ofByte f.toByte = f) ∧
  (∀ b : Byte, (Flags.ofByte b).toByte.toNat = b.toNat % 16)

/-- R27 (decisions D7, D9 to D12): which instructions leave which flags unchanged. MOV, LOAD, STORE, PUSH, POP, IN, OUT,
JMP, JZ, JNZ, CALL, RET and HLT leave all four; INC, DEC, AND, OR, XOR and NOT leave C and V; MUL, DIV, SHL and SHR leave
V. A faulting instruction changes no flag at all. -/
def Obligations.FlagsChangeOnlyAsTheTableSays : Prop :=
  ∀ (i : Instr) (s t : State), exec i s = .next t →
    (i.opcode ∈ [Opcode.movReg, .movImm, .load, .store, .push, .pop, .inPort, .outPort, .jmp, .jz, .jnz, .call, .ret,
        .hlt] → t.flags = s.flags) ∧
    (i.opcode ∈ [Opcode.inc, .dec, .andReg, .andImm, .orReg, .orImm, .xorReg, .xorImm, .notReg] →
      t.flags.c = s.flags.c ∧ t.flags.v = s.flags.v) ∧
    (i.opcode ∈ [Opcode.mulReg, .mulImm, .divReg, .divImm, .shl, .shr] → t.flags.v = s.flags.v) ∧
    (s.run = .running → t.run = .faulted → t.flags = s.flags)

/-! ## Data movement -/

/-- R120: `MOV r, s`. -/
def Obligations.MovRegisterCopies : Prop :=
  ∀ (r s : Reg) (st : State),
    EncodedAs (.movReg r s) [0x01, rrNumber r.number s.number] ∧
    ∃ t, exec (.movReg r s) st = .next t ∧
      t.reg r = st.reg s ∧ OnlyRegs [r] st t ∧ t.flags = st.flags ∧ t.pc = st.pc + 2

/-- R121: `MOV r, #imm`. -/
def Obligations.MovImmediateLoads : Prop :=
  ∀ (r : Reg) (imm : Byte) (st : State),
    EncodedAs (.movImm r imm) [0x02, rNumber r, imm] ∧
    ∃ t, exec (.movImm r imm) st = .next t ∧
      t.reg r = imm ∧ OnlyRegs [r] st t ∧ t.flags = st.flags ∧ t.pc = st.pc + 3

/-- R122, with the address of R95 (decision D4): `LOAD r, [p]`, from every address, the address formed before the
register is written; a base of B, D or Y does not decode. -/
def Obligations.LoadReadsThroughThePair : Prop :=
  (∀ (r : Reg) (p : Base) (st : State),
    EncodedAs (.load r p) [0x03, rrNumber r.number p.number] ∧
    (pairAddress st.regs p).toNat = pairNumber st p ∧
    ∃ t, exec (.load r p) st = .next t ∧
      t.reg r = Memory.read st.mem (pairNumber st p) ∧ OnlyRegs [r] st t ∧ t.flags = st.flags ∧ t.pc = st.pc + 2) ∧
  ∀ (r q : Reg) (rest : List Byte), q ∈ [Reg.b, .d, .y] →
    decode defaultOpcodeMap (0x03 :: rrNumber r.number q.number :: rest) =
      .error (.badOperand 1 (rrNumber r.number q.number))

/-- R123, with R95 and R67 (decisions D4, D20): `STORE [p], r` writes one byte, at the pair's address, and outside ROM; in
ROM it faults; a base of B, D or Y does not decode. The premise is part of the invariant. -/
def Obligations.StoreWritesThroughThePair : Prop :=
  (∀ (p : Base) (r : Reg) (st : State), Memory.wf st.mem = true →
    EncodedAs (.store p r) [0x04, rrNumber p.number r.number] ∧
    (pairAddress st.regs p).toNat = pairNumber st p ∧
    ((pairAddress st.regs p).toNat < 0xC000 →
      ∃ t, exec (.store p r) st = .next t ∧
        Memory.read t.mem (pairAddress st.regs p).toNat = st.reg r ∧
        SameMemoryBut (pairAddress st.regs p).toNat 1 st t ∧
        SameRegsBut [] st t ∧ t.flags = st.flags ∧ t.sp = st.sp ∧ t.pc = st.pc + 2 ∧ SameOutside st t) ∧
    (0xC000 ≤ (pairAddress st.regs p).toNat →
      Raises (.store p r) st (.memoryBoundsViolation (pairAddress st.regs p).toNat))) ∧
  ∀ (q r : Reg) (rest : List Byte), q ∈ [Reg.b, .d, .y] →
    decode defaultOpcodeMap (0x04 :: rrNumber q.number r.number :: rest) =
      .error (.badOperand 1 (rrNumber q.number r.number))

/-- R126, with R124 and R125 (decision D5): `PUSH r` writes one byte below the SP, or faults when the stack is full. -/
def Obligations.PushStoresBelowTheStackPointer : Prop :=
  ∀ (r : Reg) (st : State), Memory.wf st.mem = true →
    EncodedAs (.push r) [0x05, rNumber r] ∧
    (0x0101 ≤ st.sp.toNat →
      ∃ t, exec (.push r) st = .next t ∧
        t.sp = st.sp - 1 ∧ Memory.read t.mem (st.sp - 1).toNat = st.reg r ∧ OnlyStack (st.sp - 1).toNat 1 st t ∧
        t.flags = st.flags ∧ t.pc = st.pc + 2) ∧
    (st.sp.toNat < 0x0101 → Raises (.push r) st (.stackOverflow st.sp))

/-- R127, with R124 and R125 (decision D5): `POP r` reads the byte at the SP, which stays in memory, or faults when the
stack is empty. -/
def Obligations.PopReadsAtTheStackPointer : Prop :=
  ∀ (r : Reg) (st : State),
    EncodedAs (.pop r) [0x06, rNumber r] ∧
    (st.sp.toNat ≤ 0x01FE →
      ∃ t, exec (.pop r) st = .next t ∧
        t.reg r = Memory.read st.mem st.sp.toNat ∧ t.sp = st.sp + 1 ∧ SameRegsBut [r] st t ∧ SameMemory st t ∧
        t.flags = st.flags ∧ t.pc = st.pc + 2 ∧ SameOutside st t) ∧
    (0x01FE < st.sp.toNat → Raises (.pop r) st (.stackUnderflow st.sp))

/-- The PUSH/POP round trip (R126, R127; vector V-SRC-2): a pushed register popped into any register gives its value, and
the SP and the flags are as before, for every SP from 0x0101 to 0x01FF. -/
def Obligations.PushThenPopRoundTrips : Prop :=
  ∀ (r q : Reg) (st : State), Memory.wf st.mem = true → 0x0101 ≤ st.sp.toNat → st.sp.toNat ≤ 0x01FF →
    ∃ t u, exec (.push r) st = .next t ∧ exec (.pop q) t = .next u ∧
      u.reg q = st.reg r ∧ SameRegsBut [q] st u ∧ u.sp = st.sp ∧ u.flags = st.flags

/-! ## Arithmetic -/

/-- R142, R143: ADD in its two forms. The sum and all four flags are said over the numbers. -/
def Obligations.AddGivesTheSumAndItsFlags : Prop :=
  (∀ (r s : Reg) (st : State),
    EncodedAs (.addReg r s) [0x10, rrNumber r.number s.number] ∧
    ∃ t, exec (.addReg r s) st = .next t ∧
      IsSum (st.reg r) (st.reg s) (t.reg r) t.flags ∧ OnlyRegs [r] st t ∧ t.pc = st.pc + 2) ∧
  (∀ (r : Reg) (imm : Byte) (st : State),
    EncodedAs (.addImm r imm) [0x11, rNumber r, imm] ∧
    ∃ t, exec (.addImm r imm) st = .next t ∧
      IsSum (st.reg r) imm (t.reg r) t.flags ∧ OnlyRegs [r] st t ∧ t.pc = st.pc + 3)

/-- R144, R145: SUB in its two forms. -/
def Obligations.SubGivesTheDifferenceAndItsFlags : Prop :=
  (∀ (r s : Reg) (st : State),
    EncodedAs (.subReg r s) [0x12, rrNumber r.number s.number] ∧
    ∃ t, exec (.subReg r s) st = .next t ∧
      IsDifference (st.reg r) (st.reg s) (t.reg r) t.flags ∧ OnlyRegs [r] st t ∧ t.pc = st.pc + 2) ∧
  (∀ (r : Reg) (imm : Byte) (st : State),
    EncodedAs (.subImm r imm) [0x13, rNumber r, imm] ∧
    ∃ t, exec (.subImm r imm) st = .next t ∧
      IsDifference (st.reg r) imm (t.reg r) t.flags ∧ OnlyRegs [r] st t ∧ t.pc = st.pc + 3)

/-- R220, R221: CMP in its two forms writes the flags of a - b and no register. -/
def Obligations.CompareGivesTheFlagsOfTheDifference : Prop :=
  (∀ (r s : Reg) (st : State),
    EncodedAs (.cmpReg r s) [0x50, rrNumber r.number s.number] ∧
    ∃ t res, exec (.cmpReg r s) st = .next t ∧
      IsDifference (st.reg r) (st.reg s) res t.flags ∧ OnlyRegs [] st t ∧ t.pc = st.pc + 2) ∧
  (∀ (r : Reg) (imm : Byte) (st : State),
    EncodedAs (.cmpImm r imm) [0x51, rNumber r, imm] ∧
    ∃ t res, exec (.cmpImm r imm) st = .next t ∧
      IsDifference (st.reg r) imm res t.flags ∧ OnlyRegs [] st t ∧ t.pc = st.pc + 3)

/-- R146, R147 (decision D11): MUL in its two forms, A the implicit operand and destination. -/
def Obligations.MulGivesTheLowProductInA : Prop :=
  (∀ (s : Reg) (st : State),
    EncodedAs (.mulReg s) [0x14, rNumber s] ∧
    ∃ t, exec (.mulReg s) st = .next t ∧
      IsProduct (st.reg .a) (st.reg s) (t.reg .a) st.flags t.flags ∧ OnlyRegs [.a] st t ∧ t.pc = st.pc + 2) ∧
  (∀ (imm : Byte) (st : State),
    EncodedAs (.mulImm imm) [0x15, imm] ∧
    ∃ t, exec (.mulImm imm) st = .next t ∧
      IsProduct (st.reg .a) imm (t.reg .a) st.flags t.flags ∧ OnlyRegs [.a] st t ∧ t.pc = st.pc + 2)

/-- R148, R149 (decision D12): DIV in its two forms, and the fault of a divisor of 0. -/
def Obligations.DivGivesTheQuotientInA : Prop :=
  (∀ (s : Reg) (st : State),
    EncodedAs (.divReg s) [0x16, rNumber s] ∧
    (st.reg s ≠ 0 →
      ∃ t, exec (.divReg s) st = .next t ∧
        IsQuotient (st.reg .a) (st.reg s) (t.reg .a) st.flags t.flags ∧ OnlyRegs [.a] st t ∧ t.pc = st.pc + 2) ∧
    (st.reg s = 0 → Raises (.divReg s) st .divideByZero)) ∧
  (∀ (imm : Byte) (st : State),
    EncodedAs (.divImm imm) [0x17, imm] ∧
    (imm ≠ 0 →
      ∃ t, exec (.divImm imm) st = .next t ∧
        IsQuotient (st.reg .a) imm (t.reg .a) st.flags t.flags ∧ OnlyRegs [.a] st t ∧ t.pc = st.pc + 2) ∧
    (imm = 0 → Raises (.divImm imm) st .divideByZero))

/-- R150, R151: INC and DEC, C and V unchanged. -/
def Obligations.IncAndDecStepByOne : Prop :=
  ∀ (r : Reg) (st : State),
    EncodedAs (.inc r) [0x18, rNumber r] ∧ EncodedAs (.dec r) [0x19, rNumber r] ∧
    (∃ t, exec (.inc r) st = .next t ∧ (t.reg r).toNat = ((st.reg r).toNat + 1) % 256 ∧
      ZeroNegOnly st.flags t.flags (t.reg r) ∧ OnlyRegs [r] st t ∧ t.pc = st.pc + 2) ∧
    (∃ t, exec (.dec r) st = .next t ∧ (t.reg r).toNat = ((st.reg r).toNat + 255) % 256 ∧
      ZeroNegOnly st.flags t.flags (t.reg r) ∧ OnlyRegs [r] st t ∧ t.pc = st.pc + 2)

/-! ## Logic and shifts -/

/-- R171 to R176, with R170 (decision D9): AND, OR and XOR in their two forms, bit by bit; Z and N from the result, C and
V unchanged. -/
def Obligations.LogicWorksBitByBit : Prop :=
  (∀ (r s : Reg) (st : State),
    EncodedAs (.andReg r s) [0x20, rrNumber r.number s.number] ∧
    EncodedAs (.orReg r s) [0x22, rrNumber r.number s.number] ∧
    EncodedAs (.xorReg r s) [0x24, rrNumber r.number s.number] ∧
    (∃ t, exec (.andReg r s) st = .next t ∧
      (∀ k, k < 8 → (t.reg r).getLsbD k = ((st.reg r).getLsbD k && (st.reg s).getLsbD k)) ∧
      ZeroNegOnly st.flags t.flags (t.reg r) ∧ OnlyRegs [r] st t ∧ t.pc = st.pc + 2) ∧
    (∃ t, exec (.orReg r s) st = .next t ∧
      (∀ k, k < 8 → (t.reg r).getLsbD k = ((st.reg r).getLsbD k || (st.reg s).getLsbD k)) ∧
      ZeroNegOnly st.flags t.flags (t.reg r) ∧ OnlyRegs [r] st t ∧ t.pc = st.pc + 2) ∧
    (∃ t, exec (.xorReg r s) st = .next t ∧
      (∀ k, k < 8 → (t.reg r).getLsbD k = ((st.reg r).getLsbD k ^^ (st.reg s).getLsbD k)) ∧
      ZeroNegOnly st.flags t.flags (t.reg r) ∧ OnlyRegs [r] st t ∧ t.pc = st.pc + 2)) ∧
  (∀ (r : Reg) (imm : Byte) (st : State),
    EncodedAs (.andImm r imm) [0x21, rNumber r, imm] ∧
    EncodedAs (.orImm r imm) [0x23, rNumber r, imm] ∧
    EncodedAs (.xorImm r imm) [0x25, rNumber r, imm] ∧
    (∃ t, exec (.andImm r imm) st = .next t ∧
      (∀ k, k < 8 → (t.reg r).getLsbD k = ((st.reg r).getLsbD k && imm.getLsbD k)) ∧
      ZeroNegOnly st.flags t.flags (t.reg r) ∧ OnlyRegs [r] st t ∧ t.pc = st.pc + 3) ∧
    (∃ t, exec (.orImm r imm) st = .next t ∧
      (∀ k, k < 8 → (t.reg r).getLsbD k = ((st.reg r).getLsbD k || imm.getLsbD k)) ∧
      ZeroNegOnly st.flags t.flags (t.reg r) ∧ OnlyRegs [r] st t ∧ t.pc = st.pc + 3) ∧
    (∃ t, exec (.xorImm r imm) st = .next t ∧
      (∀ k, k < 8 → (t.reg r).getLsbD k = ((st.reg r).getLsbD k ^^ imm.getLsbD k)) ∧
      ZeroNegOnly st.flags t.flags (t.reg r) ∧ OnlyRegs [r] st t ∧ t.pc = st.pc + 3))

/-- R177: NOT is the one's complement; Z and N from the result, C and V unchanged. -/
def Obligations.NotComplements : Prop :=
  ∀ (r : Reg) (st : State),
    EncodedAs (.notReg r) [0x26, rNumber r] ∧
    ∃ t, exec (.notReg r) st = .next t ∧ (t.reg r).toNat = 255 - (st.reg r).toNat ∧
      ZeroNegOnly st.flags t.flags (t.reg r) ∧ OnlyRegs [r] st t ∧ t.pc = st.pc + 2

/-- R178, R179 (decision D10): SHL and SHR by one, the bit shifted out in C, Z and N from the result, V unchanged; N is
clear after SHR. -/
def Obligations.ShiftsMoveByOneBit : Prop :=
  ∀ (r : Reg) (st : State),
    EncodedAs (.shl r) [0x27, rNumber r] ∧ EncodedAs (.shr r) [0x28, rNumber r] ∧
    (∃ t, exec (.shl r) st = .next t ∧ (t.reg r).toNat = 2 * (st.reg r).toNat % 256 ∧
      (t.flags.c = true ↔ 128 ≤ (st.reg r).toNat) ∧ (t.flags.z = true ↔ (t.reg r).toNat = 0) ∧
      (t.flags.n = true ↔ 128 ≤ (t.reg r).toNat) ∧ t.flags.v = st.flags.v ∧ OnlyRegs [r] st t ∧
      t.pc = st.pc + 2) ∧
    (∃ t, exec (.shr r) st = .next t ∧ (t.reg r).toNat = (st.reg r).toNat / 2 ∧
      (t.flags.c = true ↔ (st.reg r).toNat % 2 = 1) ∧ (t.flags.z = true ↔ (t.reg r).toNat = 0) ∧
      t.flags.n = false ∧ t.flags.v = st.flags.v ∧ OnlyRegs [r] st t ∧ t.pc = st.pc + 2)

/-! ## Control transfer -/

/-- R191: `JMP addr`, and its fault on a target that is not executable; with R60 and R64 (decision D18), which addresses
are executable: those of PRAM and ROM, 0x0200 to 0x7FFF and 0xC000 to 0xFFFF, and no number above. -/
def Obligations.JumpGoesToAnExecutableTarget : Prop :=
  (∀ n : Nat, executable n = true ↔ (0x0200 ≤ n ∧ n ≤ 0x7FFF) ∨ (0xC000 ≤ n ∧ n ≤ 0xFFFF)) ∧
  ∀ (a : Addr) (st : State),
    EncodedAs (.jmp a) (0x30 :: addressBytes a) ∧
    (executable a.toNat = true →
      ∃ t, exec (.jmp a) st = .next t ∧ t.pc = a.toNat ∧ t.flags = st.flags ∧ OnlyRegs [] st t) ∧
    (executable a.toNat = false → Raises (.jmp a) st (.memoryBoundsViolation a.toNat))

/-- R192, R193 (decision D19): JZ and JNZ test F.Z alone; the target is checked only when the jump is taken. -/
def Obligations.ConditionalJumpsTestZero : Prop :=
  ∀ (a : Addr) (st : State),
    EncodedAs (.jz a) (0x31 :: addressBytes a) ∧ EncodedAs (.jnz a) (0x32 :: addressBytes a) ∧
    (st.flags.z = true →
      (∃ t, exec (.jnz a) st = .next t ∧ t.pc = st.pc + 3 ∧ t.flags = st.flags ∧ OnlyRegs [] st t) ∧
      (executable a.toNat = true →
        ∃ t, exec (.jz a) st = .next t ∧ t.pc = a.toNat ∧ t.flags = st.flags ∧ OnlyRegs [] st t) ∧
      (executable a.toNat = false → Raises (.jz a) st (.memoryBoundsViolation a.toNat))) ∧
    (st.flags.z = false →
      (∃ t, exec (.jz a) st = .next t ∧ t.pc = st.pc + 3 ∧ t.flags = st.flags ∧ OnlyRegs [] st t) ∧
      (executable a.toNat = true →
        ∃ t, exec (.jnz a) st = .next t ∧ t.pc = a.toNat ∧ t.flags = st.flags ∧ OnlyRegs [] st t) ∧
      (executable a.toNat = false → Raises (.jnz a) st (.memoryBoundsViolation a.toNat)))

/-- R194 (decisions D3, D19, D21): `CALL addr` pushes the address after it, high byte at sp - 1 and low byte at sp - 2,
and its three faults come in the order target, return address, stack. -/
def Obligations.CallPushesTheReturnAddress : Prop :=
  ∀ (a : Addr) (st : State), Memory.wf st.mem = true →
    EncodedAs (.call a) (0x33 :: addressBytes a) ∧
    (executable a.toNat = true → st.pc + 3 ≤ 0xFFFF → 0x0102 ≤ st.sp.toNat →
      ∃ t, exec (.call a) st = .next t ∧ t.pc = a.toNat ∧ t.sp = st.sp - 1 - 1 ∧
        (Memory.read t.mem (st.sp - 1).toNat).toNat = (st.pc + 3) / 256 ∧
        (Memory.read t.mem (st.sp - 1 - 1).toNat).toNat = (st.pc + 3) % 256 ∧
        OnlyStack (st.sp - 1 - 1).toNat 2 st t ∧ t.flags = st.flags) ∧
    (executable a.toNat = false → Raises (.call a) st (.memoryBoundsViolation a.toNat)) ∧
    (executable a.toNat = true → 0xFFFF < st.pc + 3 → Raises (.call a) st (.memoryBoundsViolation (st.pc + 3))) ∧
    (executable a.toNat = true → st.pc + 3 ≤ 0xFFFF → st.sp.toNat < 0x0102 →
      Raises (.call a) st (.stackOverflow st.sp))

/-- R195 (decision D19): `RET` pops its target, low byte first, and its two faults come in the order stack, target. -/
def Obligations.RetPopsItsTarget : Prop :=
  ∀ st : State,
    EncodedAs .ret [0x34] ∧
    (st.sp.toNat ≤ 0x01FD → executable (wordAt st st.sp.toNat) = true →
      ∃ t, exec .ret st = .next t ∧ t.pc = wordAt st st.sp.toNat ∧ t.sp = st.sp + 1 + 1 ∧ SameRegsBut [] st t ∧
        SameMemory st t ∧ t.flags = st.flags ∧ SameOutside st t) ∧
    (0x01FD < st.sp.toNat → Raises .ret st (.stackUnderflow st.sp)) ∧
    (st.sp.toNat ≤ 0x01FD → executable (wordAt st st.sp.toNat) = false →
      Raises .ret st (.memoryBoundsViolation (wordAt st st.sp.toNat)))

/-- R196 (decisions D13, D14): `RETI` pops F, of which only bits 3:0 are kept, and then the PC. -/
def Obligations.RetiPopsFlagsAndPc : Prop :=
  ∀ st : State,
    EncodedAs .reti [0x35] ∧
    (st.sp.toNat ≤ 0x01FC → executable (wordAt st (st.sp.toNat + 1)) = true →
      ∃ t, exec .reti st = .next t ∧ t.flags.number = (Memory.read st.mem st.sp.toNat).toNat % 16 ∧
        t.pc = wordAt st (st.sp.toNat + 1) ∧ t.sp = st.sp + 1 + 1 + 1 ∧ SameRegsBut [] st t ∧
        SameMemory st t ∧ SameOutside st t) ∧
    (0x01FC < st.sp.toNat → Raises .reti st (.stackUnderflow st.sp)) ∧
    (st.sp.toNat ≤ 0x01FC → executable (wordAt st (st.sp.toNat + 1)) = false →
      Raises .reti st (.memoryBoundsViolation (wordAt st (st.sp.toNat + 1))))

/-- R197 (decision D22): `HLT` halts with the PC past it, and the Halted core does nothing on later steps, not even when
an interrupt is raised; the HLT step counts as one cycle; only reset leaves Halted. -/
def Obligations.HltHaltsForGood : Prop :=
  ∀ st : State,
    EncodedAs .hlt [0x36] ∧
    ∃ t, exec .hlt st = .next t ∧ t.run = .halted ∧ t.pc = st.pc + 1 ∧ t.flags = st.flags ∧ t.sp = st.sp ∧
      t.fault = st.fault ∧ SameRegsBut [] st t ∧ SameMemory st t ∧ SameDriver st t ∧ t.gpu = st.gpu ∧
      t.terminal = st.terminal ∧ t.inputDraws = st.inputDraws ∧
      (∀ v, step (t.enqueue v) = .next (t.enqueue v)) ∧
      (∀ c : HostCommand, c ≠ .reset → (hostApply c t).run = .halted) ∧
      (st.run = .running → st.queue = [] → fetchInstr st = .ok .hlt →
        step st = .next { t with cycles := st.cycles + 1 })

/-- The CALL/RET round trip (R194, R195; vector V-SRC-3): after a CALL, a RET at the target comes back to the address
after the CALL with the SP as before. The return address must be executable, or the RET faults (R69). -/
def Obligations.CallThenRetComesBack : Prop :=
  ∀ (a : Addr) (st : State), Memory.wf st.mem = true → executable a.toNat = true → executable (st.pc + 3) = true →
    0x0102 ≤ st.sp.toNat → st.sp.toNat ≤ 0x01FF →
    ∃ t u, exec (.call a) st = .next t ∧ exec .ret t = .next u ∧
      u.pc = st.pc + 3 ∧ u.sp = st.sp ∧ SameRegsBut [] st u ∧ u.flags = st.flags ∧ SameOutside st u

/-! ## Port I/O -/

/-- R210, R341 to R344, R346 (decisions D28, D30): OUT reaches exactly its port. Port 0x01 appends to the terminal
stream, 0x80 and 0x81 set the latches, an unmapped port ignores the write, a configured one has its handler's effect on
the GPU and no other. Port 0x82 draws one pixel; what that shows is the next statement's. -/
def Obligations.OutReachesItsPort : Prop :=
  ∀ (port : Byte) (r : Reg) (st : State),
    EncodedAs (.outPort port r) [0x40, port, rNumber r] ∧
    ∃ t, exec (.outPort port r) st = .next t ∧
      t.pc = st.pc + 3 ∧ t.flags = st.flags ∧ t.sp = st.sp ∧ SameRegsBut [] st t ∧ SameMemory st t ∧
      t.run = st.run ∧ t.fault = st.fault ∧ SameDriver st t ∧ t.inputDraws = st.inputDraws ∧
      t.terminal = (if port = 0x01 then st.terminal ++ [st.reg r] else st.terminal) ∧
      (port = 0x01 → t.gpu = st.gpu) ∧
      (port = 0x80 → t.gpu = { st.gpu with lx := st.reg r }) ∧
      (port = 0x81 → t.gpu = { st.gpu with ly := st.reg r }) ∧
      (port = 0x82 → t.gpu = st.gpu.pixelDraw st.config.mode (st.reg r)) ∧
      (notFixed port → handlerOf st.config.ports port = none → t.gpu = st.gpu) ∧
      (∀ h, notFixed port → handlerOf st.config.ports port = some h →
        t.gpu = st.gpu.applyEffect st.config.tileFormat (Config.handlerWriteEffect h.write (st.reg r) st.gpu))

/-- R345, R351, R352 (decisions D29, D32): OUT to port 0x82 writes the colour of the register's value at (LX, LY) where
that is on the screen, and no other pixel; off the screen nothing changes. The latches, the palette and the tables are
unchanged. The premise is part of the invariant. -/
def Obligations.PixelDrawWritesOnePixel : Prop :=
  ∀ (r : Reg) (st : State), fbCanonical st.config st.gpu →
    ∃ t, exec (.outPort 0x82 r) st = .next t ∧
      t.gpu = { st.gpu with fb := t.gpu.fb } ∧
      (∀ x y, x < st.config.mode.width → y < st.config.mode.height →
        t.gpu.pixel st.config.mode x y =
          if x = st.gpu.lx.toNat ∧ y = st.gpu.ly.toNat then st.gpu.colour st.config.mode (st.reg r)
          else st.gpu.pixel st.config.mode x y) ∧
      (¬(st.gpu.lx.toNat < st.config.mode.width ∧ st.gpu.ly.toNat < st.config.mode.height) → t.gpu = st.gpu) ∧
      (st.config.mode = .m320x200x8 → (st.gpu.colour st.config.mode (st.reg r)).toNat = (st.reg r).toNat) ∧
      (st.config.mode = .m640x480x16 →
        st.gpu.colour st.config.mode (st.reg r) = Config.conv16 (st.gpu.pal[(st.reg r).toNat]'(st.reg r).isLt))

/-- R211, R341, R346, R347 (decisions D28, D30): IN reads 0x00 from the fixed ports and every unmapped one, with no side
effect; from a configured port it reads the handler's value, or a byte drawn fresh from outside the block (a free value,
log entry 4), and the read has the handler's side effect where it has one (R76), which the model makes a function of the byte
read and the GPU's state (log entry 6). The handler's value is a function of what `PortView` shows of the block's state (log
entry 6): not the PC, the SP, F, the cycle counter or the frame cadence, which a program cannot read so (R21, R27, R31, R42,
R326, R363). -/
def Obligations.InReadsItsPort : Prop :=
  ∀ (r : Reg) (port : Byte) (st : State),
    EncodedAs (.inPort r port) [0x41, rNumber r, port] ∧
    ∃ t, exec (.inPort r port) st = .next t ∧
      t.pc = st.pc + 3 ∧ t.flags = st.flags ∧ t.sp = st.sp ∧ SameRegsBut [r] st t ∧ SameMemory st t ∧
      t.run = st.run ∧ t.fault = st.fault ∧ SameDriver st t ∧ t.terminal = st.terminal ∧
      (¬notFixed port ∨ handlerOf st.config.ports port = none →
        t.reg r = 0x00 ∧ t.gpu = st.gpu ∧ t.inputDraws = st.inputDraws) ∧
      (∀ h, notFixed port → handlerOf st.config.ports port = some h →
        (h.readEffect = none → t.gpu = st.gpu) ∧
        (∀ id, h.readEffect = some id →
          t.gpu = st.gpu.applyEffect st.config.tileFormat (Config.handlerReadEffect id (t.reg r) st.gpu)) ∧
        (∀ id, h.read = .blockFunction id →
          t.reg r = Config.handlerValue id
            { regs := st.regs, mem := st.mem, gpu := st.gpu, terminal := st.terminal, images := st.images,
              entry := st.entry, config := st.config } ∧
          t.inputDraws = st.inputDraws) ∧
        (h.read = .externalInput →
          t.reg r = Config.externalInput port st.inputDraws ∧ t.inputDraws = st.inputDraws + 1))

/-- R353, with R347 and R360: a configured port's handler, which may change the GPU only by the update operations and in
its own state, changes neither the framebuffer nor the coordinate latches LX and LY. Two clauses are the model's: the shape
of an effect e, a new value of the handlers' own state and a list of update operations (log entry 6, DESIGN CHOICE), and that
the handlers' own state becomes that value (log entry 5, DESIGN CHOICE). -/
def Obligations.HandlersKeepFramebufferAndCoordinates : Prop :=
  ∀ (f : TileFormat) (g : Gpu) (e : List Byte × List GpuOp),
    (g.applyEffect f e).fb = g.fb ∧ (g.applyEffect f e).lx = g.lx ∧ (g.applyEffect f e).ly = g.ly ∧
    (g.applyEffect f e).latches = e.1

/-- R353 (decision D31): each update operation sets its one entry, and the equation of the whole GPU says that every other
field, entry and table is left alone; an out-of-range slot, layer, row, column or entry changes nothing. A value is truncated
to the field's width: R353 says so of SetSprite, that the one-bit fields so take the value's bit 0 and that SetScroll
truncates in the same way is the model's reading (log entry 12, DEDUCED). The premise on the tiles is part of the
invariant. -/
def Obligations.GpuUpdatesSetOneEntry : Prop :=
  ∀ (f : TileFormat) (g : Gpu),
    (∀ slot field value, 64 ≤ slot → g.apply f (.setSprite slot field value) = g) ∧
    (∀ (slot : Nat) (h : slot < 64) (value : Nat),
      (∃ v : BitVec 8, v.toNat = value % 0x100 ∧
        g.apply f (.setSprite slot .bitmap value) =
          { g with spr := g.spr.set slot { g.spr[slot] with bitmap := v } }) ∧
      (∃ v : BitVec 8, v.toNat = value % 0x100 ∧
        g.apply f (.setSprite slot .pal value) =
          { g with spr := g.spr.set slot { g.spr[slot] with pal := v } }) ∧
      (∃ v : BitVec 16, v.toNat = value % 0x10000 ∧
        g.apply f (.setSprite slot .x value) =
          { g with spr := g.spr.set slot { g.spr[slot] with x := v } }) ∧
      (∃ v : BitVec 16, v.toNat = value % 0x10000 ∧
        g.apply f (.setSprite slot .y value) =
          { g with spr := g.spr.set slot { g.spr[slot] with y := v } }) ∧
      (∃ b : Bool, (b = true ↔ value % 2 = 1) ∧
        g.apply f (.setSprite slot .hflip value) =
          { g with spr := g.spr.set slot { g.spr[slot] with hflip := b } }) ∧
      (∃ b : Bool, (b = true ↔ value % 2 = 1) ∧
        g.apply f (.setSprite slot .vflip value) =
          { g with spr := g.spr.set slot { g.spr[slot] with vflip := b } }) ∧
      (∃ b : Bool, (b = true ↔ value % 2 = 1) ∧
        g.apply f (.setSprite slot .enabled value) =
          { g with spr := g.spr.set slot { g.spr[slot] with enabled := b } })) ∧
    (∀ i rgb, 256 ≤ i → g.apply f (.setPalette i rgb) = g) ∧
    (∀ (i : Nat) (h : i < 256) (rgb : Rgb), g.apply f (.setPalette i rgb) = { g with pal := g.pal.set i rgb }) ∧
    (∀ layer row col t, (2 ≤ layer ∨ f.gh ≤ row ∨ f.gw ≤ col) → g.apply f (.setTile layer row col t) = g) ∧
    (sparseWf blankTile (f.gh * f.gw) 0 g.tl0.tiles = true →
      ∀ row col t, row < f.gh → col < f.gw → ∃ grid,
        g.apply f (.setTile 0 row col t) = { g with tl0 := { g.tl0 with tiles := grid } } ∧
        ∀ row' col', row' < f.gh → col' < f.gw →
          ({ g.tl0 with tiles := grid } : TileLayer).tile f row' col' =
            if row' = row ∧ col' = col then t else g.tl0.tile f row' col') ∧
    (sparseWf blankTile (f.gh * f.gw) 0 g.tl1.tiles = true →
      ∀ row col t, row < f.gh → col < f.gw → ∃ grid,
        g.apply f (.setTile 1 row col t) = { g with tl1 := { g.tl1 with tiles := grid } } ∧
        ∀ row' col', row' < f.gh → col' < f.gw →
          ({ g.tl1 with tiles := grid } : TileLayer).tile f row' col' =
            if row' = row ∧ col' = col then t else g.tl1.tile f row' col') ∧
    (∀ layer axis value b, 2 ≤ layer →
      g.apply f (.setScroll layer axis value) = g ∧ g.apply f (.setLayerEnabled layer b) = g) ∧
    (∀ value, ∃ v : BitVec 16, v.toNat = value % 0x10000 ∧
      g.apply f (.setScroll 0 .x value) = { g with tl0 := { g.tl0 with sx := v } } ∧
      g.apply f (.setScroll 0 .y value) = { g with tl0 := { g.tl0 with sy := v } } ∧
      g.apply f (.setScroll 1 .x value) = { g with tl1 := { g.tl1 with sx := v } } ∧
      g.apply f (.setScroll 1 .y value) = { g with tl1 := { g.tl1 with sy := v } }) ∧
    (∀ b, g.apply f (.setLayerEnabled 0 b) = { g with tl0 := { g.tl0 with enabled := b } } ∧
      g.apply f (.setLayerEnabled 1 b) = { g with tl1 := { g.tl1 with enabled := b } })

/-! ## Interrupts -/

/-- R313, with R307 (1), R308, R312 and R314 (decisions D3, D14, D15): the step of a Running core with a vector pending
dispatches it: PC and F pushed, mem[sp] = F, mem[sp+1] the PC's low and mem[sp+2] its high byte, the PC at the handler,
the entry gone, one cycle counted, and nothing else changed. Its faults come in the order vector, saved PC, stack; then
nothing is pushed and the queue keeps its entry. The memory premise is part of the invariant. -/
def Obligations.DispatchSavesPcAndFlags : Prop :=
  ∀ (s : State) (v : Addr) (rest : List Addr), Memory.wf s.mem = true → s.run = .running → s.queue = v :: rest →
    (executable v.toNat = true → s.pc ≤ 0xFFFF → 0x0103 ≤ s.sp.toNat →
      ∃ t, step s = .next t ∧
        t.pc = v.toNat ∧ t.sp = s.sp - 1 - 1 - 1 ∧ t.queue = rest ∧ t.cycles = s.cycles + 1 ∧
        (Memory.read t.mem (s.sp - 1).toNat).toNat = s.pc / 256 ∧
        (Memory.read t.mem (s.sp - 1 - 1).toNat).toNat = s.pc % 256 ∧
        (Memory.read t.mem (s.sp - 1 - 1 - 1).toNat).toNat = s.flags.number ∧
        SameMemoryBut (s.sp - 1 - 1 - 1).toNat 3 s t ∧ SameRegsBut [] s t ∧ t.flags = s.flags ∧
        t.run = .running ∧ t.fault = s.fault ∧ t.gpu = s.gpu ∧ t.terminal = s.terminal ∧
        t.cyclesPerFrame = s.cyclesPerFrame ∧ t.images = s.images ∧ t.entry = s.entry ∧ t.config = s.config ∧
        t.inputDraws = s.inputDraws) ∧
    (executable v.toNat = false →
      step s = .next (FaultedFrom { s with cycles := s.cycles + 1 } (.memoryBoundsViolation v.toNat))) ∧
    (executable v.toNat = true → 0xFFFF < s.pc →
      step s = .next (FaultedFrom { s with cycles := s.cycles + 1 } (.memoryBoundsViolation s.pc))) ∧
    (executable v.toNat = true → s.pc ≤ 0xFFFF → s.sp.toNat < 0x0103 →
      step s = .next (FaultedFrom { s with cycles := s.cycles + 1 } (.stackOverflow s.sp)))

/-- R317: RETI undoes a dispatch exactly: the PC, the flags and the SP come back, and what differs from the state before
is the interrupt taken, the cycle it cost and the three bytes left on the stack. The interrupted PC must be executable,
or the RETI faults (R69). -/
def Obligations.RetiUndoesADispatch : Prop :=
  ∀ (s : State) (v : Addr) (rest : List Addr), Memory.wf s.mem = true → s.run = .running → s.queue = v :: rest →
    executable v.toNat = true → executable s.pc = true → 0x0103 ≤ s.sp.toNat → s.sp.toNat ≤ 0x01FF →
    ∃ t, step s = .next t ∧
      exec .reti t = .next { s with queue := rest, cycles := s.cycles + 1, mem := t.mem }

/-- R316: with a VBlank raised again before every step and no handler returning, from an empty stack, the first 85
dispatches succeed, the k-th leaving sp = 0x01FF - 3k, and the 86th faults with StackOverflow at sp = 0x0100. -/
def Obligations.NestedDispatchesFillTheStack : Prop :=
  ∀ s : State, s.run = .running → s.queue = [] → s.pc ≤ 0xFFFF → s.sp = 0x01FF →
    executable s.config.vblankVector.toNat = true →
    (∀ k, k ≤ 85 →
      (interruptedStep^[k] s).run = .running ∧ (interruptedStep^[k] s).sp.toNat = 0x01FF - 3 * k ∧
      (interruptedStep^[k] s).queue = []) ∧
    (interruptedStep^[86] s).run = .faulted ∧
    (interruptedStep^[86] s).fault =
      some { cause := .stackOverflow 0x0100, addr := s.config.vblankVector.toNat }

/-! ## The GPU's render and the driver -/

/-- R355 (decisions D33, D34): RenderLayer writes exactly the pixels where the layer shows one, with scroll wrap-around,
and nothing else of the GPU. -/
def Obligations.LayerRenderWritesItsPixels : Prop :=
  ∀ (c : MachineConfig) (mem : List Host.Cell) (l : TileLayer) (g : Gpu), fbCanonical c g →
    (renderLayer c mem l g) = { g with fb := (renderLayer c mem l g).fb } ∧
    ∀ x y, x < c.mode.width → y < c.mode.height →
      (renderLayer c mem l g).pixel c.mode x y =
        match layerShows c mem l x y with
        | some v => g.colour c.mode v
        | none => g.pixel c.mode x y

/-- R356 (decision D35): after RenderSprites each pixel of the screen shows the highest slot that shows anything there,
and is as before where none does. -/
def Obligations.SpriteRenderShowsTheHighestSlot : Prop :=
  ∀ (c : MachineConfig) (mem : List Host.Cell) (g : Gpu), fbCanonical c g →
    (renderSprites c mem g) = { g with fb := (renderSprites c mem g).fb } ∧
    ∀ x y, x < c.mode.width → y < c.mode.height →
      (renderSprites c mem g).pixel c.mode x y =
        match topSprite c mem g.spr.toList x y with
        | some v => g.colour c.mode v
        | none => g.pixel c.mode x y

/-- R354, R355, R356, R359 (decisions D33 to D35): after a render each pixel shows the highest sprite there, else layer 1,
else layer 0, else what it showed before, and VBlank is pending; the render changes the framebuffer and the queue and
nothing else (R360). Of memory it reads VRAM and SRAM only (R62), whatever the formats: a machine whose canonical memory has
the same bytes from 0x8000 to 0xBFFF renders the same. -/
def Obligations.RenderShowsTheTopmostPixel : Prop :=
  ∀ s : State, fbCanonical s.config s.gpu →
    render s = { s with gpu := { s.gpu with fb := (render s).gpu.fb }, queue := (render s).queue } ∧
    s.config.vblankVector ∈ (render s).queue ∧
    (∀ x y, x < s.config.mode.width → y < s.config.mode.height →
      (render s).gpu.pixel s.config.mode x y =
        match (topSprite s.config s.mem s.gpu.spr.toList x y).or
            ((layerShows s.config s.mem s.gpu.tl1 x y).or (layerShows s.config s.mem s.gpu.tl0 x y)) with
        | some v => s.gpu.colour s.config.mode v
        | none => s.gpu.pixel s.config.mode x y) ∧
    ∀ mem', Memory.wf s.mem = true → Memory.wf mem' = true →
      (∀ a, 0x8000 ≤ a → a ≤ 0xBFFF → Memory.read s.mem a = Memory.read mem' a) →
      render { s with mem := mem' } = { render s with mem := mem' }

/-- R357, R358 (decisions D34, D35): the default graphics formats. The grid is the screen's size in 8×8 tiles; a tile's
pixel is its byte of VRAM, and a sprite's its byte of SRAM plus the slot's palette offset, 0x00 transparent in both; tile
t + 128 shows tile t, and bitmap b + 32 bitmap b. -/
def Obligations.DefaultGraphicsFormats : Prop :=
  (defaultTileFormat .m320x200x8).gw = 40 ∧ (defaultTileFormat .m320x200x8).gh = 25 ∧
  (defaultTileFormat .m640x480x16).gw = 80 ∧ (defaultTileFormat .m640x480x16).gh = 60 ∧
  (∀ m, (defaultTileFormat m).tw = 8 ∧ (defaultTileFormat m).th = 8) ∧
  (∀ (m : VideoMode) (mem : List Host.Cell) (t : Byte) (tx ty : Nat), tx < 8 → ty < 8 →
    tilePixel (defaultTileFormat m) mem t tx ty =
      (if Memory.read mem (0x8000 + (t.toNat % 128) * 64 + ty * 8 + tx) = 0 then none
       else some (Memory.read mem (0x8000 + (t.toNat % 128) * 64 + ty * 8 + tx))) ∧
    tilePixel (defaultTileFormat m) mem (t + 128) tx ty = tilePixel (defaultTileFormat m) mem t tx ty) ∧
  (∀ (mem : List Host.Cell) (b pal : Byte) (bx row : Nat), bx < 16 → row < 16 →
    (Memory.read mem (0xA000 + (b.toNat % 32) * 256 + row * 16 + bx) = 0 →
      spritePixel .sram mem b pal bx row = none) ∧
    (Memory.read mem (0xA000 + (b.toNat % 32) * 256 + row * 16 + bx) ≠ 0 →
      ∃ v, spritePixel .sram mem b pal bx row = some v ∧
        v.toNat = (pal.toNat + (Memory.read mem (0xA000 + (b.toNat % 32) * 256 + row * 16 + bx)).toNat) % 256) ∧
    spritePixel .sram mem (b + 32) pal bx row = spritePixel .sram mem b pal bx row)

/-- R424, R359, R311, R315: after every frame exactly one VBlank is pending, whatever the run state, and all but the
framebuffer and the queue is what the frame's steps left. -/
def Obligations.VBlankIsPendingAfterEveryFrame : Prop :=
  ∀ s : State, s.Inv →
    (tickFrame s).queue = [s.config.vblankVector] ∧
    (tickFrame s).cycles = s.cycles + (runCycles s.cyclesPerFrame s).1 ∧
    tickFrame s =
      { (runCycles s.cyclesPerFrame s).2 with
        gpu := { (runCycles s.cyclesPerFrame s).2.gpu with fb := (tickFrame s).gpu.fb }
        queue := (tickFrame s).queue }

/-- R420, R405, R71 (decisions D26, D27): loadProgram refuses an image that runs past 0xFFFF; else it writes its bytes at
any address, ROM included, keeps the image, moves the entry point only for the two fixed load addresses, and changes
nothing else. -/
def Obligations.LoadProgramWritesItsImage : Prop :=
  ∀ (bytes : List Byte) (a : Addr) (s : State), Memory.wf s.mem = true →
    (0x10000 < a.toNat + bytes.length → loadProgram bytes a s = none) ∧
    (a.toNat + bytes.length ≤ 0x10000 →
      ∃ t, loadProgram bytes a s = some t ∧
        (∀ b, Memory.read t.mem b =
          if a.toNat ≤ b ∧ b < a.toNat + bytes.length then bytes.getD (b - a.toNat) 0 else Memory.read s.mem b) ∧
        t.images = s.images ++ [(a, bytes)] ∧
        ((a = 0x0200 ∨ a = 0xC000) → t.entry = a) ∧ (a ≠ 0x0200 → a ≠ 0xC000 → t.entry = s.entry) ∧
        t = { s with mem := t.mem, images := t.images, entry := t.entry })

/-- R400, R401 (decisions D5, D26, D37, D38): reset() sets every register, F, the SP, the PC, the run state, the record,
the queue, the counter and the GPU to the values of R41, keeps the rest, and leaves in memory the images, a later one
over an earlier, and 0x00 everywhere else; no other host operation leaves Halted or Faulted. -/
def Obligations.ResetRestoresTheBlock : Prop :=
  ∀ s : State, (∀ image ∈ s.images, image.1.toNat + image.2.length ≤ 0x10000) →
    (∀ r, (hostReset s).reg r = 0x00) ∧ (hostReset s).flags.number = 0 ∧ (hostReset s).sp = 0x01FF ∧
    (hostReset s).pc = s.entry.toNat ∧ (hostReset s).run = .running ∧ (hostReset s).fault = none ∧
    (hostReset s).queue = [] ∧ (hostReset s).cycles = 0 ∧
    (hostReset s).gpu.lx = 0 ∧ (hostReset s).gpu.ly = 0 ∧
    (∀ x y, (hostReset s).gpu.pixel s.config.mode x y = 0) ∧
    (∀ (i : Nat) (h : i < 256), (hostReset s).gpu.pal[i] = { r := 0, g := 0, b := 0 }) ∧
    (∀ (i : Nat) (h : i < 64), (hostReset s).gpu.spr[i] =
      { bitmap := 0x00, pal := 0x00, x := 0x0000, y := 0x0000, hflip := false, vflip := false, enabled := false }) ∧
    (∀ l ∈ [(hostReset s).gpu.tl0, (hostReset s).gpu.tl1],
      (∀ row col, l.tile s.config.tileFormat row col = 0x00) ∧ l.sx = 0x0000 ∧ l.sy = 0x0000 ∧ l.enabled = false) ∧
    (hostReset s).cyclesPerFrame = s.cyclesPerFrame ∧ (hostReset s).images = s.images ∧
    (hostReset s).entry = s.entry ∧ (hostReset s).config = s.config ∧ (hostReset s).terminal = s.terminal ∧
    (s.images = [] → ∀ b, Memory.read (hostReset s).mem b = 0) ∧
    (∀ front a bytes, s.images = front ++ [(a, bytes)] → ∀ b,
      Memory.read (hostReset s).mem b =
        if a.toNat ≤ b ∧ b < a.toNat + bytes.length then bytes.getD (b - a.toNat) 0
        else Memory.read (hostReset { s with images := front }).mem b) ∧
    (∀ c : HostCommand, c ≠ .reset → s.run ≠ .running → (hostApply c s).run = s.run)

/-- R402 (decisions D26, D37): a freshly created machine is what reset() gives with no images and entry = 0x0200: memory
all zero, SP = 0x01FF, PC = 0x0200, Running, and cyclesPerFrame = CYCLES_PER_FRAME. The equality of whole states rests on
two choices of the model: the handlers' own state is emptied (log entry 5), and the count of inputs drawn is kept, whatever
it is (log entry 4). -/
def Obligations.FreshMachineIsAReset : Prop :=
  hostReset State.reset = State.reset ∧ State.reset.images = [] ∧ State.reset.entry = 0x0200 ∧
  (∀ a, Memory.read State.reset.mem a = 0) ∧ State.reset.sp = 0x01FF ∧ State.reset.pc = 0x0200 ∧
  State.reset.run = .running ∧ State.reset.cyclesPerFrame = Config.cyclesPerFrame ∧
  ∀ s : State, s.images = [] → s.entry = 0x0200 → s.config = defaultConfig → s.terminal = [] →
    s.cyclesPerFrame = Config.cyclesPerFrame → hostReset s = { State.reset with inputDraws := s.inputDraws }
end

