-- ==== Sys2Proof/Laws/Codec.lean ====
section
/-!
SUPPORT. The laws of the operand fields and of the opcode map: codes read back, operand bytes as numbers, the map's lookup
and its inverse.
-/

namespace Sys2Proof

@[simp] theorem regOfCode_code (r : Reg) : regOfCode r.code = some r := by cases r <;> rfl

@[simp] theorem baseOfCode_code (p : Base) : baseOfCode p.code = some p := by cases p <;> rfl

@[simp] theorem hiNibble_rrByte (u v : BitVec 4) : hiNibble (rrByte u v) = u := by
  revert u v; decide

@[simp] theorem loNibble_rrByte (u v : BitVec 4) : loNibble (rrByte u v) = v := by
  revert u v; decide

@[simp] theorem regOfRByte_rByte (r : Reg) : regOfRByte (rByte r) = some r := by cases r <;> rfl

/-- A code that reads as a register is that register's code. -/
theorem code_of_regOfCode {c : BitVec 4} {r : Reg} (h : regOfCode c = some r) : r.code = c := by
  revert c r; decide

theorem code_of_baseOfCode {c : BitVec 4} {p : Base} (h : baseOfCode c = some p) : p.code = c := by
  revert c p; decide

theorem rrByte_nibbles (b : Byte) : rrByte (hiNibble b) (loNibble b) = b := by
  revert b; decide

theorem rByte_of_regOfRByte {b : Byte} {r : Reg} (h : regOfRByte b = some r) : rByte r = b := by
  unfold regOfRByte at h
  split at h
  · rename_i h0
    rw [rByte, code_of_regOfCode h]
    have := rrByte_nibbles b
    rwa [h0] at this
  · cases h

/-- An address is the value of its two bytes. -/
@[simp] theorem addrOfBytes_bytes (w : Addr) : addrOfBytes (loByte w) (hiByte w) = w := by
  apply BitVec.eq_of_getLsbD_eq
  intro i hi
  simp only [addrOfBytes, loByte, hiByte, BitVec.getLsbD_append, BitVec.getLsbD_extractLsb']
  split
  · rename_i h; simp [h]
  · rename_i h
    simp only [show i - 8 < 8 by omega, decide_true, Bool.true_and]
    congr 1; omega

/-! ## Operand bytes as numbers (R93, R94, R96) -/

theorem rrByte_regs (r s : Reg) : rrByte r.code s.code = rrNumber r.number s.number := by
  cases r <;> cases s <;> rfl

theorem rrByte_reg_base (r : Reg) (p : Base) : rrByte r.code p.code = rrNumber r.number p.number := by
  cases r <;> cases p <;> rfl

theorem rrByte_base_reg (p : Base) (r : Reg) : rrByte p.code r.code = rrNumber p.number r.number := by
  cases r <;> cases p <;> rfl

theorem rByte_eq_number (r : Reg) : rByte r = rNumber r := by cases r <;> rfl

/-! ## The opcode map -/

/-- A byte the map gives to an opcode selects it, when no byte stands in the map twice. -/
theorem OpcodeMap.lookup_of_byteOf {m : OpcodeMap} (hm : m.wf = true) {o : Opcode} {b : Byte}
    (h : m.byteOf o = some b) : m.lookup b = some o := by
  induction m with
  | nil => cases h
  | cons row rest ih =>
    obtain ⟨k, o'⟩ := row
    simp only [OpcodeMap.wf, Bool.and_eq_true, Bool.not_eq_true'] at hm
    simp only [OpcodeMap.byteOf] at h
    simp only [OpcodeMap.lookup]
    split at h
    · rename_i e; injection h with h; subst h; rw [if_pos rfl, e]
    · have hl := ih hm.2 h
      have hk : b ≠ k := by
        rintro rfl
        have hmem : ∀ {m' : OpcodeMap}, OpcodeMap.byteOf m' o = some b → (m'.any fun row => row.1 = b) = true := by
          intro m'
          induction m' with
          | nil => intro h; cases h
          | cons r m' ih' =>
            obtain ⟨k', o''⟩ := r
            intro h
            simp only [OpcodeMap.byteOf] at h
            split at h
            · injection h with h; subst h; simp
            · simp only [List.any_cons, Bool.or_eq_true]; exact .inr (ih' h)
        rw [hmem h] at hm
        exact absurd hm.1 (by simp)
      rw [if_neg hk, hl]

/-- A map that names an opcode gives it a byte. -/
theorem OpcodeMap.byteOf_of_names {m : OpcodeMap} {o : Opcode} (h : m.names o = true) : ∃ b, m.byteOf o = some b := by
  induction m with
  | nil => cases h
  | cons row rest ih =>
    obtain ⟨k, o'⟩ := row
    simp only [OpcodeMap.byteOf]
    split
    · exact ⟨k, rfl⟩
    · rename_i hne
      refine ih ?_
      simp only [OpcodeMap.names, List.any_cons, Bool.or_eq_true, decide_eq_true_eq] at h
      rcases h with h | h
      · exact absurd h.symm hne
      · exact h

theorem defaultOpcodeMap_wf : defaultOpcodeMap.wf = true := by decide

end Sys2Proof
end

