-- ==== Sys2Proof/Laws/Sparse.lean ====
section
/-!
SUPPORT. The laws of sparse lists: read after write, the canonical form kept, equal reads of canonical lists mean equal
lists, and what an overlay reads as.
-/

namespace Sys2Proof.Machine

variable {α : Type} [DecidableEq α] {d : α} {bound : Nat}

omit [DecidableEq α] in
@[simp] theorem sparseRead_nil (d : α) (a : Nat) : sparseRead d [] a = d := rfl

theorem sparseWf_cons {lo k : Nat} {v : α} {l : List (Nat × α)} :
    sparseWf d bound lo ((k, v) :: l) = true ↔
      lo ≤ k ∧ k < bound ∧ v ≠ d ∧ sparseWf d bound (k + 1) l = true := by
  simp [sparseWf, and_assoc]

/-- A canonical list from lo on is canonical from any lower bound. -/
theorem sparseWf_mono {lo lo' : Nat} (h : lo' ≤ lo) {l : List (Nat × α)} (hl : sparseWf d bound lo l = true) :
    sparseWf d bound lo' l = true := by
  cases l with
  | nil => rfl
  | cons c l => obtain ⟨k, v⟩ := c; rw [sparseWf_cons] at hl ⊢; exact ⟨h.trans hl.1, hl.2⟩

/-- Below its lower bound a canonical list lists nothing. -/
theorem sparseRead_below {l : List (Nat × α)} : ∀ {lo a : Nat}, sparseWf d bound lo l = true → a < lo →
    sparseRead d l a = d := by
  induction l with
  | nil => intros; rfl
  | cons c l ih =>
    obtain ⟨k, v⟩ := c
    intro lo a hl ha
    rw [sparseWf_cons] at hl
    simp only [sparseRead]
    rw [if_neg (by omega), ih hl.2.2.2 (by omega)]

/-- At or above its upper bound a canonical list lists nothing. -/
theorem sparseRead_above {l : List (Nat × α)} : ∀ {lo a : Nat}, sparseWf d bound lo l = true → bound ≤ a →
    sparseRead d l a = d := by
  induction l with
  | nil => intros; rfl
  | cons c l ih =>
    obtain ⟨k, v⟩ := c
    intro lo a hl ha
    rw [sparseWf_cons] at hl
    simp only [sparseRead]
    rw [if_neg (by omega), ih hl.2.2.2 ha]

theorem sparseWf_sparseCons {lo k : Nat} {v : α} {l : List (Nat × α)} (hk : lo ≤ k) (hb : k < bound)
    (hl : sparseWf d bound (k + 1) l = true) : sparseWf d bound lo (sparseCons d k v l) = true := by
  unfold sparseCons
  split
  · exact sparseWf_mono (by omega) hl
  · exact sparseWf_cons.2 ⟨hk, hb, by assumption, hl⟩

theorem sparseRead_sparseCons {lo k : Nat} {v : α} {l : List (Nat × α)} (hl : sparseWf d bound lo l = true)
    (hk : k < lo) (a : Nat) : sparseRead d (sparseCons d k v l) a = if a = k then v else sparseRead d l a := by
  unfold sparseCons
  split
  · rename_i hv
    split
    · rename_i ha; subst ha; rw [sparseRead_below hl hk, hv]
    · rfl
  · simp [sparseRead]

/-- A write keeps the canonical form. -/
theorem sparseWf_write {l : List (Nat × α)} : ∀ {lo a : Nat} {v : α}, sparseWf d bound lo l = true → lo ≤ a →
    a < bound → sparseWf d bound lo (sparseWrite d l a v) = true := by
  induction l with
  | nil => intro lo a v _ ha hb; exact sparseWf_sparseCons ha hb rfl
  | cons c l ih =>
    obtain ⟨k, w⟩ := c
    intro lo a v hl ha hb
    have h := sparseWf_cons.1 hl
    simp only [sparseWrite]
    split
    · rename_i e; subst e; exact sparseWf_sparseCons ha hb h.2.2.2
    · split
      · exact sparseWf_sparseCons ha hb (sparseWf_cons.2 ⟨by omega, h.2.1, h.2.2⟩)
      · exact sparseWf_cons.2 ⟨h.1, h.2.1, h.2.2.1, ih h.2.2.2 (by omega) hb⟩

/-- A read after a write: the value written at the key, every other key as before. -/
theorem sparseRead_write {l : List (Nat × α)} : ∀ {lo : Nat} (a : Nat) (v : α) (b : Nat),
    sparseWf d bound lo l = true → sparseRead d (sparseWrite d l a v) b = if b = a then v else sparseRead d l b := by
  induction l with
  | nil =>
    intro lo a v b _
    exact sparseRead_sparseCons (bound := bound) (lo := a + 1) rfl (Nat.lt_succ_self a) b
  | cons c l ih =>
    obtain ⟨k, w⟩ := c
    intro lo a v b hl
    have h := sparseWf_cons.1 hl
    simp only [sparseWrite]
    split
    · rename_i e; subst e
      rw [sparseRead_sparseCons h.2.2.2 (by omega)]
      simp only [sparseRead]
      split <;> rfl
    · split
      · rename_i hak
        rw [sparseRead_sparseCons (bound := bound) (lo := k) (sparseWf_cons.2 ⟨le_rfl, h.2.1, h.2.2⟩) hak]
      · simp only [sparseRead, ih a v b h.2.2.2]
        split
        · rename_i e; rw [if_neg (by omega)]
        · rfl

theorem sparseRead_write_same {lo : Nat} {l : List (Nat × α)} (h : sparseWf d bound lo l = true) (a : Nat) (v : α) :
    sparseRead d (sparseWrite d l a v) a = v := by
  rw [sparseRead_write a v a h, if_pos rfl]

theorem sparseRead_write_ne {lo : Nat} {l : List (Nat × α)} (h : sparseWf d bound lo l = true) {a b : Nat} (v : α)
    (hb : b ≠ a) : sparseRead d (sparseWrite d l a v) b = sparseRead d l b := by
  rw [sparseRead_write a v b h, if_neg hb]

/-- Canonical lists that read alike are equal: equal contents are equal data. -/
theorem sparse_ext {l : List (Nat × α)} : ∀ {lo : Nat} {l' : List (Nat × α)}, sparseWf d bound lo l = true →
    sparseWf d bound lo l' = true → (∀ a, sparseRead d l a = sparseRead d l' a) → l = l' := by
  induction l with
  | nil =>
    intro lo l' _ h' he
    cases l' with
    | nil => rfl
    | cons c l' =>
      obtain ⟨k, v⟩ := c
      have := he k
      simp [sparseRead] at this
      exact absurd this.symm (sparseWf_cons.1 h').2.2.1
  | cons c l ih =>
    obtain ⟨k, v⟩ := c
    intro lo l' h h' he
    have hc := sparseWf_cons.1 h
    cases l' with
    | nil =>
      have := he k
      simp [sparseRead] at this
      exact absurd this hc.2.2.1
    | cons c' l' =>
      obtain ⟨k', v'⟩ := c'
      have hc' := sparseWf_cons.1 h'
      have hk : k = k' := by
        rcases Nat.lt_trichotomy k k' with hlt | heq | hlt
        · have := he k
          rw [sparseRead_below (lo := k') (sparseWf_cons.2 ⟨le_rfl, hc'.2⟩) hlt] at this
          simp [sparseRead] at this
          exact absurd this hc.2.2.1
        · exact heq
        · have := he k'
          rw [sparseRead_below (lo := k) (sparseWf_cons.2 ⟨le_rfl, hc.2⟩) hlt] at this
          simp [sparseRead] at this
          exact absurd this.symm hc'.2.2.1
      subst hk
      have hv : v = v' := by simpa [sparseRead] using he k
      subst hv
      congr 1
      refine ih hc.2.2.2 hc'.2.2.2 fun a => ?_
      rcases Nat.lt_or_ge k a with hlt | hge
      · simpa [sparseRead, Nat.ne_of_gt hlt] using he a
      · rw [sparseRead_below hc.2.2.2 (by omega), sparseRead_below hc'.2.2.2 (by omega)]

/-- A property of every value listed survives a write of a value that has it. -/
theorem sparse_forall_write {P : α → Prop} {l : List (Nat × α)} {a : Nat} {v : α} (hl : ∀ c ∈ l, P c.2) (hv : P v) :
    ∀ c ∈ sparseWrite d l a v, P c.2 := by
  have hcons : ∀ {k : Nat} {w : α} {r : List (Nat × α)}, P w → (∀ c ∈ r, P c.2) → ∀ c ∈ sparseCons d k w r, P c.2 := by
    intro k w r hw hr
    unfold sparseCons
    split
    · exact hr
    · intro c hc
      rcases List.mem_cons.1 hc with rfl | hc
      · exact hw
      · exact hr c hc
  induction l with
  | nil => exact hcons hv hl
  | cons c l ih =>
    obtain ⟨k, w⟩ := c
    have hw := hl (k, w) (List.mem_cons_self ..)
    have hr : ∀ c ∈ l, P c.2 := fun c hc => hl c (List.mem_cons_of_mem _ hc)
    simp only [sparseWrite]
    split
    · exact hcons hv hr
    · split
      · exact hcons hv hl
      · intro c hc
        rcases List.mem_cons.1 hc with rfl | hc
        · exact hw
        · exact ih hr c hc

/-! ## Overlays -/

/-- An overlay of the keys k to k + n - 1 keeps the canonical form. -/
theorem sparseWf_overlay (f : Nat → Option α) : ∀ (n k : Nat) (l : List (Nat × α)), sparseWf d bound k l = true →
    k + n ≤ bound → sparseWf d bound k (sparseOverlay d f n k l) = true := by
  intro n
  induction n with
  | zero => intro k l h _; cases l <;> exact h
  | succ n ih =>
    intro k l h hb
    cases l with
    | nil => exact sparseWf_sparseCons le_rfl (by omega) (ih (k + 1) [] rfl (by omega))
    | cons c l =>
      obtain ⟨j, v⟩ := c
      have hc := sparseWf_cons.1 h
      simp only [sparseOverlay]
      split
      · rename_i e; subst e
        exact sparseWf_sparseCons le_rfl (by omega) (ih (j + 1) l hc.2.2.2 (by omega))
      · exact sparseWf_sparseCons le_rfl (by omega)
          (ih (k + 1) _ (sparseWf_cons.2 ⟨by omega, hc.2⟩) (by omega))

/-- What an overlay reads as: the new value at a key of its range that f gives one, every other key as before. -/
theorem sparseRead_overlay (f : Nat → Option α) : ∀ (n k : Nat) (l : List (Nat × α)), sparseWf d bound k l = true →
    k + n ≤ bound → ∀ a, sparseRead d (sparseOverlay d f n k l) a =
      if k ≤ a ∧ a < k + n then (f a).getD (sparseRead d l a) else sparseRead d l a := by
  intro n
  induction n with
  | zero => intro k l h _ a; rw [if_neg (by omega)]; cases l <;> rfl
  | succ n ih =>
    intro k l h hb a
    cases l with
    | nil =>
      have hw := sparseWf_overlay (d := d) (bound := bound) f n (k + 1) [] rfl (by omega)
      simp only [sparseOverlay, sparseRead_sparseCons hw (Nat.lt_succ_self k), ih (k + 1) [] rfl (by omega),
        sparseRead_nil]
      by_cases e : a = k
      · subst e; simp
      · rw [if_neg e]; congr 1; apply propext; omega
    | cons c l =>
      obtain ⟨j, v⟩ := c
      have hc := sparseWf_cons.1 h
      simp only [sparseOverlay]
      split
      · rename_i e; subst e
        have hw := sparseWf_overlay (d := d) (bound := bound) f n (j + 1) l hc.2.2.2 (by omega)
        simp only [sparseRead_sparseCons hw (Nat.lt_succ_self j), ih (j + 1) l hc.2.2.2 (by omega), sparseRead]
        by_cases e : a = j
        · subst e; simp
        · simp only [if_neg e]; congr 1; apply propext; omega
      · rename_i hne
        have hw' : sparseWf d bound (k + 1) ((j, v) :: l) = true := sparseWf_cons.2 ⟨by omega, hc.2⟩
        have hw := sparseWf_overlay (d := d) (bound := bound) f n (k + 1) ((j, v) :: l) hw' (by omega)
        rw [sparseRead_sparseCons hw (Nat.lt_succ_self k), ih (k + 1) _ hw' (by omega)]
        by_cases e : a = k
        · subst e
          rw [if_pos rfl, if_pos (by omega)]
          rw [sparseRead_below hw' (by omega)]
        · rw [if_neg e]; congr 1; apply propext; omega

/-- A property of every value listed survives an overlay of values that have it, when the value of an unlisted key has
it too. -/
theorem sparse_forall_overlay {P : α → Prop} {f : Nat → Option α} (hf : ∀ k v, f k = some v → P v) (hd : P d) :
    ∀ (n k : Nat) (l : List (Nat × α)), (∀ c ∈ l, P c.2) → ∀ c ∈ sparseOverlay d f n k l, P c.2 := by
  have hget : ∀ k (w : α), P w → P ((f k).getD w) := by
    intro k w hw
    cases e : f k with
    | none => exact hw
    | some v => exact hf k v e
  have hcons : ∀ {k : Nat} {w : α} {r : List (Nat × α)}, P w → (∀ c ∈ r, P c.2) → ∀ c ∈ sparseCons d k w r, P c.2 := by
    intro k w r hw hr
    unfold sparseCons
    split
    · exact hr
    · intro c hc
      rcases List.mem_cons.1 hc with rfl | hc
      · exact hw
      · exact hr c hc
  intro n
  induction n with
  | zero => intro k l hl; cases l <;> exact hl
  | succ n ih =>
    intro k l hl
    cases l with
    | nil => exact hcons (hget k d hd) (ih (k + 1) [] (by simp))
    | cons c l =>
      obtain ⟨j, v⟩ := c
      have hw := hl (j, v) (List.mem_cons_self ..)
      have hr : ∀ c ∈ l, P c.2 := fun c hc => hl c (List.mem_cons_of_mem _ hc)
      simp only [sparseOverlay]
      split
      · exact hcons (hget k v hw) (ih (k + 1) l hr)
      · exact hcons (hget k d hd) (ih (k + 1) _ hl)

/-! ## Windows -/

/-- A window keeps the canonical form. -/
theorem sparseWf_window (first last : Nat) {l : List (Nat × α)} : ∀ {lo : Nat}, sparseWf d bound lo l = true →
    sparseWf d bound lo (sparseWindow first last l) = true := by
  induction l with
  | nil => intros; rfl
  | cons c l ih =>
    obtain ⟨k, v⟩ := c
    intro lo h
    have hc := sparseWf_cons.1 h
    have hl := ih hc.2.2.2
    simp only [sparseWindow, List.filter_cons] at hl ⊢
    split
    · exact sparseWf_cons.2 ⟨hc.1, hc.2.1, hc.2.2.1, hl⟩
    · exact sparseWf_mono (by omega) hl

omit [DecidableEq α] in
/-- A window reads as the list inside its bounds, and lists nothing outside. -/
theorem sparseRead_window (first last : Nat) (l : List (Nat × α)) (a : Nat) :
    sparseRead d (sparseWindow first last l) a = if first ≤ a ∧ a ≤ last then sparseRead d l a else d := by
  induction l with
  | nil => simp [sparseWindow]
  | cons c l ih =>
    obtain ⟨k, v⟩ := c
    simp only [sparseWindow, List.filter_cons, decide_eq_true_eq] at ih ⊢
    split
    · simp only [sparseRead, ih]
      by_cases e : a = k
      · subst e; simp only [if_pos ‹_›]
      · simp only [if_neg e]
    · rw [ih]
      by_cases e : a = k
      · subst e; rw [if_neg ‹_›, if_neg ‹_›]
      · simp only [sparseRead, if_neg e]

end Sys2Proof.Machine
end

