-- ==== Sys2Proof/Laws/Memory.lean ====
section
/-!
SUPPORT. The laws of memory: read after write, the canonical form kept by every memory operation, and what bytes written
in a row read as.
-/

namespace Sys2Proof.Machine

theorem Memory.read_write {m : List Host.Cell} (h : Memory.wf m = true) (a : Nat) (v : Byte) (b : Nat) :
    Memory.read (Memory.write m a v) b = if b = a then v else Memory.read m b :=
  sparseRead_write a v b h

theorem Memory.read_write_same {m : List Host.Cell} (h : Memory.wf m = true) (a : Nat) (v : Byte) :
    Memory.read (Memory.write m a v) a = v :=
  sparseRead_write_same h a v

theorem Memory.read_write_ne {m : List Host.Cell} (h : Memory.wf m = true) {a b : Nat} (v : Byte) (hb : b ≠ a) :
    Memory.read (Memory.write m a v) b = Memory.read m b :=
  sparseRead_write_ne h v hb

/-- A write below 0x10000 keeps the canonical form. -/
theorem Memory.wf_write {m : List Host.Cell} (h : Memory.wf m = true) {a : Nat} (v : Byte) (ha : a < 0x10000) :
    Memory.wf (Memory.write m a v) = true :=
  sparseWf_write h (Nat.zero_le a) ha

/-- Every write at a 16-bit address keeps the canonical form. -/
theorem Memory.wf_write_addr {m : List Host.Cell} (h : Memory.wf m = true) (a : Addr) (v : Byte) :
    Memory.wf (Memory.write m a.toNat v) = true :=
  Memory.wf_write h v a.isLt

/-- Bytes written in a row inside the address space keep the canonical form. -/
theorem Memory.wf_writeBytes : ∀ {bytes : List Byte} {m : List Host.Cell} {a : Nat}, Memory.wf m = true →
    a + bytes.length ≤ 0x10000 → Memory.wf (Memory.writeBytes m a bytes) = true := by
  intro bytes
  induction bytes with
  | nil => intro m a h _; exact h
  | cons v rest ih =>
    intro m a h ha
    rw [List.length_cons] at ha
    exact ih (Memory.wf_write h v (by omega)) (by omega)

/-- What bytes written in a row read as. -/
theorem Memory.read_writeBytes : ∀ {bytes : List Byte} {m : List Host.Cell} {a : Nat}, Memory.wf m = true →
    a + bytes.length ≤ 0x10000 → ∀ b, Memory.read (Memory.writeBytes m a bytes) b =
      if a ≤ b ∧ b < a + bytes.length then bytes.getD (b - a) 0 else Memory.read m b := by
  intro bytes
  induction bytes with
  | nil => intro m a h _ b; rw [if_neg (by simp)]; rfl
  | cons v rest ih =>
    intro m a h ha b
    rw [List.length_cons] at ha ⊢
    rw [Memory.writeBytes, ih (Memory.wf_write h v (by omega)) (by omega), Memory.read_write h]
    by_cases e : b = a
    · subst e; simp
    · by_cases hb : a + 1 ≤ b ∧ b < a + 1 + rest.length
      · rw [if_pos hb, if_pos (by omega)]
        obtain ⟨k, rfl⟩ : ∃ k, b = a + 1 + k := ⟨b - (a + 1), by omega⟩
        rw [show a + 1 + k - a = k + 1 by omega, show a + 1 + k - (a + 1) = k by omega]
        rfl
      · rw [if_neg hb, if_neg e, if_neg (by omega)]

/-- Canonical memories that read alike are equal. -/
theorem Memory.ext {m m' : List Host.Cell} (h : Memory.wf m = true) (h' : Memory.wf m' = true)
    (he : ∀ a, Memory.read m a = Memory.read m' a) : m = m' :=
  sparse_ext h h' he

/-- Canonical memories that read alike in a range have the same window there. -/
theorem Memory.window_congr {m m' : List Host.Cell} (h : Memory.wf m = true) (h' : Memory.wf m' = true) {first last : Nat}
    (he : ∀ a, first ≤ a → a ≤ last → Memory.read m a = Memory.read m' a) :
    Memory.window m first last = Memory.window m' first last := by
  refine Memory.ext (sparseWf_window first last h) (sparseWf_window first last h') fun a => ?_
  show sparseRead _ (sparseWindow first last m) a = sparseRead _ (sparseWindow first last m') a
  rw [sparseRead_window, sparseRead_window]
  split
  · rename_i ha; exact he a ha.1 ha.2
  · rfl

end Sys2Proof.Machine
end

