-- ==== Sys2Proof/Laws/Gpu.lean ====
section
/-!
SUPPORT. The laws of the GPU. `Paints c f o` says once what a drawing operation does to the framebuffer: the pixel (x, y)
of the screen shows the colour of the palette index `o x y` names, and is as before where it names none. Drawing
operations compose (`Paints.comp`, `Paints.foldl`), and each part of the render is one.
-/

namespace Sys2Proof.Machine

/-! ## Keys -/

theorem width_pos (m : VideoMode) : 0 < m.width := by cases m <;> decide

/-- A pixel of the screen has a key below W * H. -/
theorem pixelKey_lt {m : VideoMode} {x y : Nat} (hx : x < m.width) (hy : y < m.height) :
    pixelKey m x y < m.width * m.height := by
  have : (y + 1) * m.width ≤ m.height * m.width := Nat.mul_le_mul_right _ hy
  rw [Nat.mul_comm m.width]
  unfold pixelKey
  rw [Nat.add_mul] at this
  omega

theorem pixelKey_mod {m : VideoMode} {x y : Nat} (hx : x < m.width) : pixelKey m x y % m.width = x := by
  rw [pixelKey, Nat.mul_add_mod', Nat.mod_eq_of_lt hx]

theorem pixelKey_div {m : VideoMode} {x y : Nat} (hx : x < m.width) : pixelKey m x y / m.width = y := by
  rw [pixelKey, Nat.add_comm, Nat.add_mul_div_right _ _ (width_pos m), Nat.div_eq_of_lt hx, Nat.zero_add]

/-- Different pixels have different keys. -/
theorem pixelKey_inj {m : VideoMode} {x y x' y' : Nat} (hx : x < m.width) (hx' : x' < m.width) :
    pixelKey m x y = pixelKey m x' y' ↔ x = x' ∧ y = y' := by
  constructor
  · intro h
    exact ⟨by rw [← pixelKey_mod (y := y) hx, h, pixelKey_mod hx'], by rw [← pixelKey_div (y := y) hx, h, pixelKey_div hx']⟩
  · rintro ⟨rfl, rfl⟩; rfl

/-- Different tiles of the grid have different keys. -/
theorem tileKey_inj {f : TileFormat} {row col row' col' : Nat} (hc : col < f.gw) (hc' : col' < f.gw) :
    tileKey f row col = tileKey f row' col' ↔ row = row' ∧ col = col' := by
  have hpos : 0 < f.gw := by omega
  constructor
  · intro h
    unfold tileKey at h
    constructor
    · have := congrArg (· / f.gw) h
      simpa only [Nat.add_comm _ col, Nat.add_comm _ col', Nat.add_mul_div_right _ _ hpos, Nat.div_eq_of_lt hc,
        Nat.div_eq_of_lt hc', Nat.zero_add] using this
    · have := congrArg (· % f.gw) h
      simpa only [Nat.mul_add_mod', Nat.mod_eq_of_lt hc, Nat.mod_eq_of_lt hc'] using this
  · rintro ⟨rfl, rfl⟩; rfl

theorem tileKey_lt {f : TileFormat} {row col : Nat} (hr : row < f.gh) (hc : col < f.gw) :
    tileKey f row col < f.gh * f.gw := by
  have : (row + 1) * f.gw ≤ f.gh * f.gw := Nat.mul_le_mul_right _ hr
  unfold tileKey
  rw [Nat.add_mul] at this
  omega

/-! ## What the invariant says of the GPU -/

/-- The GPU's part of the invariant (R34, R37). -/
structure GpuOk (c : MachineConfig) (g : Gpu) : Prop where
  fbWf : fbCanonical c g
  fbDepth : c.mode = .m320x200x8 → ∀ cell ∈ g.fb, cell.2.toNat < 256
  tiles0Wf : sparseWf blankTile (c.tileFormat.gh * c.tileFormat.gw) 0 g.tl0.tiles = true
  tiles1Wf : sparseWf blankTile (c.tileFormat.gh * c.tileFormat.gw) 0 g.tl1.tiles = true

/-- The reset GPU meets it (R41). -/
theorem gpuOk_reset (c : MachineConfig) : GpuOk c Gpu.reset :=
  ⟨rfl, fun _ => fun _ h => (List.not_mem_nil h).elim, rfl, rfl⟩

/-- In M320x200x8 a colour is the 8-bit index (R351). -/
theorem colour_toNat_lt {m : VideoMode} (h : m = .m320x200x8) (g : Gpu) (i : Byte) : (g.colour m i).toNat < 256 := by
  subst h
  have := i.isLt
  simp only [Gpu.colour, BitVec.toNat_setWidth]
  omega

/-- The update operations keep it (R353). -/
theorem gpuOk_apply {c : MachineConfig} {g : Gpu} (h : GpuOk c g) (op : GpuOp) : GpuOk c (g.apply c.tileFormat op) := by
  have layer : ∀ (n : Nat) (f : TileLayer → TileLayer),
      (∀ l, sparseWf blankTile (c.tileFormat.gh * c.tileFormat.gw) 0 l.tiles = true →
        sparseWf blankTile (c.tileFormat.gh * c.tileFormat.gw) 0 (f l).tiles = true) → GpuOk c (g.updateLayer n f) := by
    intro n f hf
    unfold Gpu.updateLayer
    split
    · exact ⟨h.fbWf, h.fbDepth, hf _ h.tiles0Wf, h.tiles1Wf⟩
    · split
      · exact ⟨h.fbWf, h.fbDepth, h.tiles0Wf, hf _ h.tiles1Wf⟩
      · exact h
  cases op with
  | setSprite slot field value =>
    unfold Gpu.apply
    dsimp only
    split
    · exact ⟨h.fbWf, h.fbDepth, h.tiles0Wf, h.tiles1Wf⟩
    · exact h
  | setPalette i rgb =>
    unfold Gpu.apply
    dsimp only
    split
    · exact ⟨h.fbWf, h.fbDepth, h.tiles0Wf, h.tiles1Wf⟩
    · exact h
  | setTile n row col t =>
    refine layer n _ fun l hl => ?_
    unfold TileLayer.setTile
    split
    · rename_i hrc; exact sparseWf_write hl (Nat.zero_le _) (tileKey_lt hrc.1 hrc.2)
    · exact hl
  | setScroll n axis value => exact layer n _ fun l hl => by cases axis <;> exact hl
  | setLayerEnabled n b => exact layer n (fun l => { l with enabled := b }) fun l hl => hl

/-- A handler's effect keeps it (R347, R353). -/
theorem gpuOk_applyEffect {c : MachineConfig} {g : Gpu} (h : GpuOk c g) (e : List Byte × List GpuOp) :
    GpuOk c (g.applyEffect c.tileFormat e) := by
  unfold Gpu.applyEffect
  have h' : GpuOk c { g with latches := e.1 } := ⟨h.fbWf, h.fbDepth, h.tiles0Wf, h.tiles1Wf⟩
  revert h'
  generalize ({ g with latches := e.1 } : Gpu) = g'
  intro h'
  induction e.2 generalizing g' with
  | nil => exact h'
  | cons op rest ih => exact ih _ (gpuOk_apply h' op)

/-- An update operation changes neither the framebuffer, nor the coordinate latches, nor the handlers' own state
(R353, R360). -/
theorem apply_keeps (f : TileFormat) (g : Gpu) (op : GpuOp) :
    (g.apply f op).fb = g.fb ∧ (g.apply f op).lx = g.lx ∧ (g.apply f op).ly = g.ly ∧
      (g.apply f op).latches = g.latches := by
  have layer : ∀ (n : Nat) (h : TileLayer → TileLayer), (g.updateLayer n h).fb = g.fb ∧ (g.updateLayer n h).lx = g.lx ∧
      (g.updateLayer n h).ly = g.ly ∧ (g.updateLayer n h).latches = g.latches := by
    intro n h; unfold Gpu.updateLayer; split_ifs <;> exact ⟨rfl, rfl, rfl, rfl⟩
  cases op with
  | setSprite slot field value => unfold Gpu.apply; dsimp only; split <;> exact ⟨rfl, rfl, rfl, rfl⟩
  | setPalette i rgb => unfold Gpu.apply; dsimp only; split <;> exact ⟨rfl, rfl, rfl, rfl⟩
  | setTile n row col t => exact layer n _
  | setScroll n axis value => exact layer n _
  | setLayerEnabled n b => exact layer n _

/-- What a handler's effect leaves alone. -/
theorem applyEffect_keeps (f : TileFormat) (g : Gpu) (e : List Byte × List GpuOp) :
    (g.applyEffect f e).fb = g.fb ∧ (g.applyEffect f e).lx = g.lx ∧ (g.applyEffect f e).ly = g.ly ∧
      (g.applyEffect f e).latches = e.1 := by
  have key : ∀ (ops : List GpuOp) (g : Gpu), (ops.foldl (Gpu.apply f) g).fb = g.fb ∧
      (ops.foldl (Gpu.apply f) g).lx = g.lx ∧ (ops.foldl (Gpu.apply f) g).ly = g.ly ∧
      (ops.foldl (Gpu.apply f) g).latches = g.latches := by
    intro ops
    induction ops with
    | nil => intro g; exact ⟨rfl, rfl, rfl, rfl⟩
    | cons op rest ih =>
      intro g
      obtain ⟨a, b, c, d⟩ := ih (g.apply f op)
      obtain ⟨a', b', c', d'⟩ := apply_keeps f g op
      exact ⟨a.trans a', b.trans b', c.trans c', d.trans d'⟩
  exact key e.2 _

/-! ## Drawing -/

/-- What a drawing operation does: it writes the framebuffer and nothing else, keeps it canonical and its depth, and
shows the colour of `o x y` at the pixel (x, y), which is as before where `o x y` is none. -/
structure Paints (c : MachineConfig) (f : Gpu → Gpu) (o : Nat → Nat → Option Byte) : Prop where
  frame : ∀ g, f g = { g with fb := (f g).fb }
  canonical : ∀ g, fbCanonical c g → fbCanonical c (f g)
  depth : ∀ g, c.mode = .m320x200x8 → (∀ cell ∈ g.fb, cell.2.toNat < 256) → ∀ cell ∈ (f g).fb, cell.2.toNat < 256
  pixel : ∀ g, fbCanonical c g → ∀ x y, x < c.mode.width → y < c.mode.height →
    (f g).pixel c.mode x y =
      match o x y with
      | some v => g.colour c.mode v
      | none => g.pixel c.mode x y

theorem Paints.pal {c : MachineConfig} {f : Gpu → Gpu} {o} (h : Paints c f o) (g : Gpu) : (f g).pal = g.pal := by
  rw [h.frame g]

theorem Paints.colour {c : MachineConfig} {f : Gpu → Gpu} {o} (h : Paints c f o) (g : Gpu) (m : VideoMode) (i : Byte) :
    (f g).colour m i = g.colour m i := by
  unfold Gpu.colour; rw [h.pal g]

/-- Drawing keeps the GPU's part of the invariant. -/
theorem Paints.gpuOk {c : MachineConfig} {f : Gpu → Gpu} {o} (h : Paints c f o) {g : Gpu} (hg : GpuOk c g) :
    GpuOk c (f g) := by
  refine ⟨h.canonical g hg.fbWf, fun hm => h.depth g hm (hg.fbDepth hm), ?_, ?_⟩
  · rw [h.frame g]; exact hg.tiles0Wf
  · rw [h.frame g]; exact hg.tiles1Wf

/-- Drawing nothing. -/
theorem Paints.id (c : MachineConfig) : Paints c (fun g => g) (fun _ _ => none) :=
  ⟨fun _ => rfl, fun _ h => h, fun _ _ h => h, fun _ _ _ _ _ _ => rfl⟩

/-- One operation after another: the later one is on top. -/
theorem Paints.comp {c : MachineConfig} {f f' : Gpu → Gpu} {o o' : Nat → Nat → Option Byte} (h : Paints c f o)
    (h' : Paints c f' o') : Paints c (fun g => f' (f g)) (fun x y => (o' x y).or (o x y)) := by
  refine ⟨fun g => ?_, fun g hg => h'.canonical _ (h.canonical g hg), fun g hm hg => h'.depth _ hm (h.depth g hm hg), ?_⟩
  · have e : ∀ v, ({ f g with fb := v } : Gpu) = { g with fb := v } := fun v => by rw [h.frame g]
    exact (h'.frame (f g)).trans (e _)
  · intro g hg x y hx hy
    show (f' (f g)).pixel c.mode x y = _
    rw [h'.pixel _ (h.canonical g hg) x y hx hy, h.pixel g hg x y hx hy]
    cases o' x y with
    | some v => exact h.colour g c.mode v
    | none => simp only [Option.none_or]

/-- A list of operations: the last one that shows anything is on top. -/
theorem Paints.foldl {β : Type} {c : MachineConfig} {f : Gpu → β → Gpu} {o : β → Nat → Nat → Option Byte}
    (h : ∀ b, Paints c (fun g => f g b) (o b)) (l : List β) :
    Paints c (fun g => l.foldl f g) (fun x y => l.reverse.findSome? fun b => o b x y) := by
  induction l with
  | nil => exact Paints.id c
  | cons b rest ih =>
    have := (h b).comp ih
    refine ⟨this.frame, this.canonical, this.depth, fun g hg x y hx hy => ?_⟩
    rw [List.reverse_cons, List.findSome?_append]
    have e : List.findSome? (fun b => o b x y) [b] = o b x y := by
      simp only [List.findSome?]; cases o b x y <;> rfl
    rw [e]
    exact this.pixel g hg x y hx hy

/-- What an operation shows may be said in another way. -/
theorem Paints.congr {c : MachineConfig} {f : Gpu → Gpu} {o o' : Nat → Nat → Option Byte} (h : Paints c f o)
    (e : ∀ x y, o x y = o' x y) : Paints c f o' := by
  have : o = o' := by funext x y; exact e x y
  rw [← this]; exact h

/-- Plotting the colour of one palette index (R352, R356). -/
theorem paints_plot (c : MachineConfig) (x y : Nat) (v : Byte) :
    Paints c (fun g => g.plot c.mode x y (g.colour c.mode v))
      (fun x' y' => if x' = x ∧ y' = y then some v else none) := by
  refine ⟨fun g => ?_, fun g hg => ?_, fun g hm hg => ?_, fun g hg x' y' hx' hy' => ?_⟩
  · unfold Gpu.plot; split <;> rfl
  · unfold Gpu.plot; split
    · rename_i h; exact sparseWf_write hg (Nat.zero_le _) (pixelKey_lt h.1 h.2)
    · exact hg
  · unfold Gpu.plot; split
    · exact sparse_forall_write (P := fun w : BitVec 16 => w.toNat < 256) hg (colour_toNat_lt hm g v)
    · exact hg
  · unfold Gpu.plot; split
    · rename_i h
      show sparseRead _ (sparseWrite _ _ _ _) _ = _
      rw [sparseRead_write _ _ _ hg]
      by_cases e : x' = x ∧ y' = y
      · rw [if_pos ((pixelKey_inj hx' h.1).2 e), if_pos e]
      · rw [if_neg fun he => e ((pixelKey_inj hx' h.1).1 he), if_neg e]; rfl
    · rename_i h
      rw [if_neg]
      rintro ⟨rfl, rfl⟩; exact h ⟨hx', hy'⟩

/-- Drawing one dot of a sprite (R356). -/
theorem paints_drawDot (c : MachineConfig) (mem : List Host.Cell) (s : Sprite) (sy sx : Nat) :
    Paints c (fun g => drawDot c mem s sy g sx)
      (fun x y => if x = s.x.toNat + sx ∧ y = s.y.toNat + sy then spriteDot c.spriteFormat mem s sx sy else none) := by
  unfold drawDot
  cases h : spriteDot c.spriteFormat mem s sx sy with
  | some v => exact paints_plot c _ _ v
  | none => exact (Paints.id c).congr fun x y => by simp

/-- Looking through a row, last position first, for the one that falls on x. -/
theorem findSome_range_reverse (a x : Nat) (P : Prop) [Decidable P] (g : Nat → Option Byte) : ∀ n,
    (List.range n).reverse.findSome? (fun k => if x = a + k ∧ P then g k else none) =
      if (a ≤ x ∧ x < a + n) ∧ P then g (x - a) else none := by
  intro n
  induction n with
  | zero => rw [if_neg (by omega)]; rfl
  | succ n ih =>
    rw [List.range_succ, List.reverse_append, List.reverse_singleton, List.singleton_append, List.findSome?_cons, ih]
    by_cases hp : P
    · by_cases hx : x = a + n
      · subst hx
        have h1 : ¬((a ≤ a + n ∧ a + n < a + n) ∧ P) := fun h => by omega
        have h2 : (a ≤ a + n ∧ a + n < a + (n + 1)) ∧ P := ⟨by omega, hp⟩
        rw [if_pos ⟨rfl, hp⟩, if_neg h1, if_pos h2, show a + n - a = n by omega]
        cases g n <;> rfl
      · rw [if_neg (by simp [hx])]
        dsimp only
        by_cases h2 : a ≤ x ∧ x < a + n
        · rw [if_pos ⟨h2, hp⟩, if_pos ⟨by omega, hp⟩]
        · rw [if_neg (by simp [h2]), if_neg]; rintro ⟨h3, _⟩; omega
    · simp [hp]

/-- Drawing one row of a sprite (R356). -/
theorem paints_drawRow (c : MachineConfig) (mem : List Host.Cell) (s : Sprite) (sy : Nat) :
    Paints c (fun g => drawRow c mem s g sy)
      (fun x y => if (s.x.toNat ≤ x ∧ x < s.x.toNat + 16) ∧ y = s.y.toNat + sy then
        spriteDot c.spriteFormat mem s (x - s.x.toNat) sy else none) :=
  (Paints.foldl (paints_drawDot c mem s sy) (List.range 16)).congr fun x y =>
    findSome_range_reverse s.x.toNat x (y = s.y.toNat + sy) (fun k => spriteDot c.spriteFormat mem s k sy) 16

/-- What a sprite shows is its dot there. -/
theorem spriteShows_eq (c : MachineConfig) (mem : List Host.Cell) (x y : Nat) (s : Sprite) :
    spriteShows c mem x y s =
      if s.enabled = true ∧ s.x.toNat ≤ x ∧ x < s.x.toNat + 16 ∧ s.y.toNat ≤ y ∧ y < s.y.toNat + 16 then
        spriteDot c.spriteFormat mem s (x - s.x.toNat) (y - s.y.toNat) else none := rfl

/-- Drawing one sprite slot (R356). -/
theorem paints_drawSprite (c : MachineConfig) (mem : List Host.Cell) (s : Sprite) :
    Paints c (fun g => drawSprite c mem g s) (fun x y => spriteShows c mem x y s) := by
  unfold drawSprite
  by_cases he : s.enabled = true
  · simp only [if_pos he]
    refine (Paints.foldl (paints_drawRow c mem s) (List.range 16)).congr fun x y => ?_
    have := findSome_range_reverse s.y.toNat y (s.x.toNat ≤ x ∧ x < s.x.toNat + 16)
      (fun k => spriteDot c.spriteFormat mem s (x - s.x.toNat) k) 16
    simp only [and_comm (b := y = _)] at this ⊢
    rw [this, spriteShows_eq]
    by_cases h : (s.y.toNat ≤ y ∧ y < s.y.toNat + 16) ∧ s.x.toNat ≤ x ∧ x < s.x.toNat + 16
    · rw [if_pos h, if_pos ⟨he, h.2.1, h.2.2, h.1.1, h.1.2⟩]
    · rw [if_neg h, if_neg]
      rintro ⟨_, a, b, c, d⟩; exact h ⟨⟨c, d⟩, a, b⟩
  · simp only [if_neg he]
    exact (Paints.id c).congr fun x y => by rw [spriteShows_eq, if_neg]; rintro ⟨h, _⟩; exact he h

/-- Drawing a list of slots in order (R356): the last that shows anything is on top. -/
theorem paints_sprites (c : MachineConfig) (mem : List Host.Cell) (l : List Sprite) :
    Paints c (fun g => l.foldl (drawSprite c mem) g) (topSprite c mem l) :=
  Paints.foldl (paints_drawSprite c mem) l

/-- RenderLayer(L) (R355). -/
theorem paints_renderLayer (c : MachineConfig) (mem : List Host.Cell) (l : TileLayer) :
    Paints c (renderLayer c mem l) (layerShows c mem l) := by
  by_cases he : l.enabled = true
  · have e : ∀ g, renderLayer c mem l g =
        { g with fb := sparseOverlay blankCell (layerCell c mem l g) (c.mode.width * c.mode.height) 0 g.fb } := by
      intro g; simp only [renderLayer, if_pos he]
    refine ⟨fun g => by rw [e], fun g hg => ?_, fun g hm hg => ?_, fun g hg x y hx hy => ?_⟩
    · rw [e]; exact sparseWf_overlay _ _ _ _ hg (by omega)
    · rw [e]
      refine sparse_forall_overlay (P := fun w : BitVec 16 => w.toNat < 256) ?_ (by decide) _ _ _ hg
      intro k v hv
      simp only [layerCell, Option.map_eq_some_iff] at hv
      obtain ⟨i, _, rfl⟩ := hv
      exact colour_toNat_lt hm g i
    · rw [e]
      show sparseRead _ (sparseOverlay _ _ _ _ _) _ = _
      have hk := pixelKey_lt hx hy
      rw [sparseRead_overlay _ _ _ _ hg (by omega), if_pos (by omega)]
      have hl : layerCell c mem l g (pixelKey c.mode x y) = (layerShows c mem l x y).map (g.colour c.mode) := by
        simp only [layerCell, pixelKey_mod hx, pixelKey_div hx, layerShows, layerPixel, if_pos he]
      rw [hl]
      cases layerShows c mem l x y <;> rfl
  · have e : renderLayer c mem l = fun g => g := by funext g; simp only [renderLayer, if_neg he]
    rw [e]
    exact (Paints.id c).congr fun x y => by simp only [layerShows, if_neg he]

/-- RenderSprites() keeps the GPU's part of the invariant. -/
theorem gpuOk_composite {c : MachineConfig} {g : Gpu} (mem : List Host.Cell) (h : GpuOk c g) :
    GpuOk c (composite c mem g) :=
  (paints_sprites c mem _).gpuOk ((paints_renderLayer c mem _).gpuOk ((paints_renderLayer c mem _).gpuOk h))

/-- What Render() shows at each pixel (R354): the highest sprite, else layer 1, else layer 0, else what it showed. -/
theorem paints_composite (c : MachineConfig) (mem : List Host.Cell) (g : Gpu) (hg : fbCanonical c g) :
    composite c mem g = { g with fb := (composite c mem g).fb } ∧
    ∀ x y, x < c.mode.width → y < c.mode.height →
      (composite c mem g).pixel c.mode x y =
        match (topSprite c mem g.spr.toList x y).or
            ((layerShows c mem g.tl1 x y).or (layerShows c mem g.tl0 x y)) with
        | some v => g.colour c.mode v
        | none => g.pixel c.mode x y := by
  have h0 := paints_renderLayer c mem g.tl0
  have h1 := paints_renderLayer c mem g.tl1
  have h := (h0.comp h1).comp (paints_sprites c mem g.spr.toList)
  have e : composite c mem g = (fun g' => g.spr.toList.foldl (drawSprite c mem)
      (renderLayer c mem g.tl1 (renderLayer c mem g.tl0 g'))) g := by
    have f := (h0.comp h1).frame g
    unfold composite renderSprites
    dsimp only
    rw [show (renderLayer c mem g.tl1 (renderLayer c mem g.tl0 g)).spr = g.spr by rw [f]]
  rw [e]
  exact ⟨h.frame g, h.pixel g hg⟩

/-! ## What the render reads of memory (R62) -/

/-- Two canonical memories with the same bytes in VRAM and SRAM. -/
structure SameGraphics (m m' : List Host.Cell) : Prop where
  wf : Memory.wf m = true
  wf' : Memory.wf m' = true
  read : ∀ a, 0x8000 ≤ a → a ≤ 0xBFFF → Memory.read m a = Memory.read m' a

theorem tilePixel_congr {m m' : List Host.Cell} (h : SameGraphics m m') (f : TileFormat) (t : Byte) (tx ty : Nat) :
    tilePixel f m t tx ty = tilePixel f m' t tx ty := by
  unfold tilePixel
  cases f.graphics with
  | vram => dsimp only; rw [h.read _ (by omega) (by omega)]
  | custom id => dsimp only [graphicsMemory]; rw [Memory.window_congr h.wf h.wf' h.read]

theorem spritePixel_congr {m m' : List Host.Cell} (h : SameGraphics m m') (f : SpriteFormat) (bitmap pal : Byte)
    {bx byRow : Nat} (hx : bx < 16) (hy : byRow < 16) :
    spritePixel f m bitmap pal bx byRow = spritePixel f m' bitmap pal bx byRow := by
  unfold spritePixel
  cases f with
  | sram => dsimp only; rw [h.read _ (by omega) (by omega)]
  | custom id =>
    dsimp only [spriteMemory]; rw [Memory.window_congr h.wf h.wf' fun a ha hb => h.read a (by omega) hb]

theorem renderLayer_congr {m m' : List Host.Cell} (h : SameGraphics m m') (c : MachineConfig) (l : TileLayer) :
    renderLayer c m l = renderLayer c m' l := by
  have e : ∀ g, layerCell c m l g = layerCell c m' l g := fun g => by
    funext k; simp only [layerCell, layerPixel, tilePixel_congr h]
  funext g; simp only [renderLayer, e]

theorem drawSprite_congr {m m' : List Host.Cell} (h : SameGraphics m m') (c : MachineConfig) :
    drawSprite c m = drawSprite c m' := by
  funext g s
  have dot : ∀ sy ∈ List.range 16, ∀ sx ∈ List.range 16, ∀ g, drawDot c m s sy g sx = drawDot c m' s sy g sx := by
    intro sy hy sx hx g
    rw [List.mem_range] at hy hx
    unfold drawDot spriteDot
    rw [spritePixel_congr h _ _ _ (by split <;> omega) (by split <;> omega)]
  unfold drawSprite
  split
  · exact List.foldl_ext _ _ _ fun g sy hy => List.foldl_ext _ _ _ fun g sx hx => dot sy hy sx hx g
  · rfl

/-- The render reads VRAM and SRAM and no other byte of memory (R62). -/
theorem composite_congr {m m' : List Host.Cell} (h : SameGraphics m m') (c : MachineConfig) (g : Gpu) :
    composite c m g = composite c m' g := by
  simp only [composite, renderSprites, renderLayer_congr h, drawSprite_congr h]

end Sys2Proof.Machine
end

