-- ==== Sys2Proof/Laws/State.lean ====
section
/-!
SUPPORT. One lemma per field per update of the state, true by rfl, so that no proof unfolds a record update; and the
registers' read after write.
-/

namespace Sys2Proof.Machine

/-! ## advance -/

@[simp] theorem State.advance_regs (s : State) (n : Nat) : (s.advance n).regs = s.regs := rfl
@[simp] theorem State.advance_pc (s : State) (n : Nat) : (s.advance n).pc = s.pc + n := rfl
@[simp] theorem State.advance_sp (s : State) (n : Nat) : (s.advance n).sp = s.sp := rfl
@[simp] theorem State.advance_flags (s : State) (n : Nat) : (s.advance n).flags = s.flags := rfl
@[simp] theorem State.advance_run (s : State) (n : Nat) : (s.advance n).run = s.run := rfl
@[simp] theorem State.advance_fault (s : State) (n : Nat) : (s.advance n).fault = s.fault := rfl
@[simp] theorem State.advance_queue (s : State) (n : Nat) : (s.advance n).queue = s.queue := rfl
@[simp] theorem State.advance_cycles (s : State) (n : Nat) : (s.advance n).cycles = s.cycles := rfl
@[simp] theorem State.advance_mem (s : State) (n : Nat) : (s.advance n).mem = s.mem := rfl
@[simp] theorem State.advance_gpu (s : State) (n : Nat) : (s.advance n).gpu = s.gpu := rfl
@[simp] theorem State.advance_terminal (s : State) (n : Nat) : (s.advance n).terminal = s.terminal := rfl
@[simp] theorem State.advance_cyclesPerFrame (s : State) (n : Nat) : (s.advance n).cyclesPerFrame = s.cyclesPerFrame := rfl
@[simp] theorem State.advance_images (s : State) (n : Nat) : (s.advance n).images = s.images := rfl
@[simp] theorem State.advance_entry (s : State) (n : Nat) : (s.advance n).entry = s.entry := rfl
@[simp] theorem State.advance_config (s : State) (n : Nat) : (s.advance n).config = s.config := rfl
@[simp] theorem State.advance_inputDraws (s : State) (n : Nat) : (s.advance n).inputDraws = s.inputDraws := rfl

/-! ## setReg -/

@[simp] theorem State.setReg_regs (s : State) (r : Reg) (v : Byte) : (s.setReg r v).regs = s.regs.set r v := rfl
@[simp] theorem State.setReg_pc (s : State) (r : Reg) (v : Byte) : (s.setReg r v).pc = s.pc := rfl
@[simp] theorem State.setReg_sp (s : State) (r : Reg) (v : Byte) : (s.setReg r v).sp = s.sp := rfl
@[simp] theorem State.setReg_flags (s : State) (r : Reg) (v : Byte) : (s.setReg r v).flags = s.flags := rfl
@[simp] theorem State.setReg_run (s : State) (r : Reg) (v : Byte) : (s.setReg r v).run = s.run := rfl
@[simp] theorem State.setReg_fault (s : State) (r : Reg) (v : Byte) : (s.setReg r v).fault = s.fault := rfl
@[simp] theorem State.setReg_queue (s : State) (r : Reg) (v : Byte) : (s.setReg r v).queue = s.queue := rfl
@[simp] theorem State.setReg_cycles (s : State) (r : Reg) (v : Byte) : (s.setReg r v).cycles = s.cycles := rfl
@[simp] theorem State.setReg_mem (s : State) (r : Reg) (v : Byte) : (s.setReg r v).mem = s.mem := rfl
@[simp] theorem State.setReg_gpu (s : State) (r : Reg) (v : Byte) : (s.setReg r v).gpu = s.gpu := rfl
@[simp] theorem State.setReg_terminal (s : State) (r : Reg) (v : Byte) : (s.setReg r v).terminal = s.terminal := rfl
@[simp] theorem State.setReg_cyclesPerFrame (s : State) (r : Reg) (v : Byte) : (s.setReg r v).cyclesPerFrame = s.cyclesPerFrame := rfl
@[simp] theorem State.setReg_images (s : State) (r : Reg) (v : Byte) : (s.setReg r v).images = s.images := rfl
@[simp] theorem State.setReg_entry (s : State) (r : Reg) (v : Byte) : (s.setReg r v).entry = s.entry := rfl
@[simp] theorem State.setReg_config (s : State) (r : Reg) (v : Byte) : (s.setReg r v).config = s.config := rfl
@[simp] theorem State.setReg_inputDraws (s : State) (r : Reg) (v : Byte) : (s.setReg r v).inputDraws = s.inputDraws := rfl

/-! ## setFlags -/

@[simp] theorem State.setFlags_regs (s : State) (f : Flags) : (s.setFlags f).regs = s.regs := rfl
@[simp] theorem State.setFlags_pc (s : State) (f : Flags) : (s.setFlags f).pc = s.pc := rfl
@[simp] theorem State.setFlags_sp (s : State) (f : Flags) : (s.setFlags f).sp = s.sp := rfl
@[simp] theorem State.setFlags_flags (s : State) (f : Flags) : (s.setFlags f).flags = f := rfl
@[simp] theorem State.setFlags_run (s : State) (f : Flags) : (s.setFlags f).run = s.run := rfl
@[simp] theorem State.setFlags_fault (s : State) (f : Flags) : (s.setFlags f).fault = s.fault := rfl
@[simp] theorem State.setFlags_queue (s : State) (f : Flags) : (s.setFlags f).queue = s.queue := rfl
@[simp] theorem State.setFlags_cycles (s : State) (f : Flags) : (s.setFlags f).cycles = s.cycles := rfl
@[simp] theorem State.setFlags_mem (s : State) (f : Flags) : (s.setFlags f).mem = s.mem := rfl
@[simp] theorem State.setFlags_gpu (s : State) (f : Flags) : (s.setFlags f).gpu = s.gpu := rfl
@[simp] theorem State.setFlags_terminal (s : State) (f : Flags) : (s.setFlags f).terminal = s.terminal := rfl
@[simp] theorem State.setFlags_cyclesPerFrame (s : State) (f : Flags) : (s.setFlags f).cyclesPerFrame = s.cyclesPerFrame := rfl
@[simp] theorem State.setFlags_images (s : State) (f : Flags) : (s.setFlags f).images = s.images := rfl
@[simp] theorem State.setFlags_entry (s : State) (f : Flags) : (s.setFlags f).entry = s.entry := rfl
@[simp] theorem State.setFlags_config (s : State) (f : Flags) : (s.setFlags f).config = s.config := rfl
@[simp] theorem State.setFlags_inputDraws (s : State) (f : Flags) : (s.setFlags f).inputDraws = s.inputDraws := rfl

/-! ## jumpTo -/

@[simp] theorem State.jumpTo_regs (s : State) (t : Addr) : (s.jumpTo t).regs = s.regs := rfl
@[simp] theorem State.jumpTo_pc (s : State) (t : Addr) : (s.jumpTo t).pc = t.toNat := rfl
@[simp] theorem State.jumpTo_sp (s : State) (t : Addr) : (s.jumpTo t).sp = s.sp := rfl
@[simp] theorem State.jumpTo_flags (s : State) (t : Addr) : (s.jumpTo t).flags = s.flags := rfl
@[simp] theorem State.jumpTo_run (s : State) (t : Addr) : (s.jumpTo t).run = s.run := rfl
@[simp] theorem State.jumpTo_fault (s : State) (t : Addr) : (s.jumpTo t).fault = s.fault := rfl
@[simp] theorem State.jumpTo_queue (s : State) (t : Addr) : (s.jumpTo t).queue = s.queue := rfl
@[simp] theorem State.jumpTo_cycles (s : State) (t : Addr) : (s.jumpTo t).cycles = s.cycles := rfl
@[simp] theorem State.jumpTo_mem (s : State) (t : Addr) : (s.jumpTo t).mem = s.mem := rfl
@[simp] theorem State.jumpTo_gpu (s : State) (t : Addr) : (s.jumpTo t).gpu = s.gpu := rfl
@[simp] theorem State.jumpTo_terminal (s : State) (t : Addr) : (s.jumpTo t).terminal = s.terminal := rfl
@[simp] theorem State.jumpTo_cyclesPerFrame (s : State) (t : Addr) : (s.jumpTo t).cyclesPerFrame = s.cyclesPerFrame := rfl
@[simp] theorem State.jumpTo_images (s : State) (t : Addr) : (s.jumpTo t).images = s.images := rfl
@[simp] theorem State.jumpTo_entry (s : State) (t : Addr) : (s.jumpTo t).entry = s.entry := rfl
@[simp] theorem State.jumpTo_config (s : State) (t : Addr) : (s.jumpTo t).config = s.config := rfl
@[simp] theorem State.jumpTo_inputDraws (s : State) (t : Addr) : (s.jumpTo t).inputDraws = s.inputDraws := rfl

/-! ## storeByte -/

@[simp] theorem State.storeByte_regs (s : State) (a : Addr) (v : Byte) : (s.storeByte a v).regs = s.regs := rfl
@[simp] theorem State.storeByte_pc (s : State) (a : Addr) (v : Byte) : (s.storeByte a v).pc = s.pc := rfl
@[simp] theorem State.storeByte_sp (s : State) (a : Addr) (v : Byte) : (s.storeByte a v).sp = s.sp := rfl
@[simp] theorem State.storeByte_flags (s : State) (a : Addr) (v : Byte) : (s.storeByte a v).flags = s.flags := rfl
@[simp] theorem State.storeByte_run (s : State) (a : Addr) (v : Byte) : (s.storeByte a v).run = s.run := rfl
@[simp] theorem State.storeByte_fault (s : State) (a : Addr) (v : Byte) : (s.storeByte a v).fault = s.fault := rfl
@[simp] theorem State.storeByte_queue (s : State) (a : Addr) (v : Byte) : (s.storeByte a v).queue = s.queue := rfl
@[simp] theorem State.storeByte_cycles (s : State) (a : Addr) (v : Byte) : (s.storeByte a v).cycles = s.cycles := rfl
@[simp] theorem State.storeByte_mem (s : State) (a : Addr) (v : Byte) : (s.storeByte a v).mem = Memory.write s.mem a.toNat v := rfl
@[simp] theorem State.storeByte_gpu (s : State) (a : Addr) (v : Byte) : (s.storeByte a v).gpu = s.gpu := rfl
@[simp] theorem State.storeByte_terminal (s : State) (a : Addr) (v : Byte) : (s.storeByte a v).terminal = s.terminal := rfl
@[simp] theorem State.storeByte_cyclesPerFrame (s : State) (a : Addr) (v : Byte) : (s.storeByte a v).cyclesPerFrame = s.cyclesPerFrame := rfl
@[simp] theorem State.storeByte_images (s : State) (a : Addr) (v : Byte) : (s.storeByte a v).images = s.images := rfl
@[simp] theorem State.storeByte_entry (s : State) (a : Addr) (v : Byte) : (s.storeByte a v).entry = s.entry := rfl
@[simp] theorem State.storeByte_config (s : State) (a : Addr) (v : Byte) : (s.storeByte a v).config = s.config := rfl
@[simp] theorem State.storeByte_inputDraws (s : State) (a : Addr) (v : Byte) : (s.storeByte a v).inputDraws = s.inputDraws := rfl

/-! ## takeFault -/

@[simp] theorem State.takeFault_regs (s : State) (c : FaultCause) : (s.takeFault c).regs = s.regs := rfl
@[simp] theorem State.takeFault_pc (s : State) (c : FaultCause) : (s.takeFault c).pc = s.pc := rfl
@[simp] theorem State.takeFault_sp (s : State) (c : FaultCause) : (s.takeFault c).sp = s.sp := rfl
@[simp] theorem State.takeFault_flags (s : State) (c : FaultCause) : (s.takeFault c).flags = s.flags := rfl
@[simp] theorem State.takeFault_run (s : State) (c : FaultCause) : (s.takeFault c).run = .faulted := rfl
@[simp] theorem State.takeFault_fault (s : State) (c : FaultCause) : (s.takeFault c).fault = some { cause := c, addr := s.pc } := rfl
@[simp] theorem State.takeFault_queue (s : State) (c : FaultCause) : (s.takeFault c).queue = s.queue := rfl
@[simp] theorem State.takeFault_cycles (s : State) (c : FaultCause) : (s.takeFault c).cycles = s.cycles := rfl
@[simp] theorem State.takeFault_mem (s : State) (c : FaultCause) : (s.takeFault c).mem = s.mem := rfl
@[simp] theorem State.takeFault_gpu (s : State) (c : FaultCause) : (s.takeFault c).gpu = s.gpu := rfl
@[simp] theorem State.takeFault_terminal (s : State) (c : FaultCause) : (s.takeFault c).terminal = s.terminal := rfl
@[simp] theorem State.takeFault_cyclesPerFrame (s : State) (c : FaultCause) : (s.takeFault c).cyclesPerFrame = s.cyclesPerFrame := rfl
@[simp] theorem State.takeFault_images (s : State) (c : FaultCause) : (s.takeFault c).images = s.images := rfl
@[simp] theorem State.takeFault_entry (s : State) (c : FaultCause) : (s.takeFault c).entry = s.entry := rfl
@[simp] theorem State.takeFault_config (s : State) (c : FaultCause) : (s.takeFault c).config = s.config := rfl
@[simp] theorem State.takeFault_inputDraws (s : State) (c : FaultCause) : (s.takeFault c).inputDraws = s.inputDraws := rfl

/-! ## tick -/

@[simp] theorem State.tick_regs (s : State) : s.tick.regs = s.regs := rfl
@[simp] theorem State.tick_pc (s : State) : s.tick.pc = s.pc := rfl
@[simp] theorem State.tick_sp (s : State) : s.tick.sp = s.sp := rfl
@[simp] theorem State.tick_flags (s : State) : s.tick.flags = s.flags := rfl
@[simp] theorem State.tick_run (s : State) : s.tick.run = s.run := rfl
@[simp] theorem State.tick_fault (s : State) : s.tick.fault = s.fault := rfl
@[simp] theorem State.tick_queue (s : State) : s.tick.queue = s.queue := rfl
@[simp] theorem State.tick_cycles (s : State) : s.tick.cycles = s.cycles + 1 := rfl
@[simp] theorem State.tick_mem (s : State) : s.tick.mem = s.mem := rfl
@[simp] theorem State.tick_gpu (s : State) : s.tick.gpu = s.gpu := rfl
@[simp] theorem State.tick_terminal (s : State) : s.tick.terminal = s.terminal := rfl
@[simp] theorem State.tick_cyclesPerFrame (s : State) : s.tick.cyclesPerFrame = s.cyclesPerFrame := rfl
@[simp] theorem State.tick_images (s : State) : s.tick.images = s.images := rfl
@[simp] theorem State.tick_entry (s : State) : s.tick.entry = s.entry := rfl
@[simp] theorem State.tick_config (s : State) : s.tick.config = s.config := rfl
@[simp] theorem State.tick_inputDraws (s : State) : s.tick.inputDraws = s.inputDraws := rfl

/-! ## applyHandler -/

@[simp] theorem State.applyHandler_regs (s : State) (e : List Byte × List GpuOp) : (s.applyHandler e).regs = s.regs := rfl
@[simp] theorem State.applyHandler_pc (s : State) (e : List Byte × List GpuOp) : (s.applyHandler e).pc = s.pc := rfl
@[simp] theorem State.applyHandler_sp (s : State) (e : List Byte × List GpuOp) : (s.applyHandler e).sp = s.sp := rfl
@[simp] theorem State.applyHandler_flags (s : State) (e : List Byte × List GpuOp) : (s.applyHandler e).flags = s.flags := rfl
@[simp] theorem State.applyHandler_run (s : State) (e : List Byte × List GpuOp) : (s.applyHandler e).run = s.run := rfl
@[simp] theorem State.applyHandler_fault (s : State) (e : List Byte × List GpuOp) : (s.applyHandler e).fault = s.fault := rfl
@[simp] theorem State.applyHandler_queue (s : State) (e : List Byte × List GpuOp) : (s.applyHandler e).queue = s.queue := rfl
@[simp] theorem State.applyHandler_cycles (s : State) (e : List Byte × List GpuOp) : (s.applyHandler e).cycles = s.cycles := rfl
@[simp] theorem State.applyHandler_mem (s : State) (e : List Byte × List GpuOp) : (s.applyHandler e).mem = s.mem := rfl
@[simp] theorem State.applyHandler_gpu (s : State) (e : List Byte × List GpuOp) : (s.applyHandler e).gpu = s.gpu.applyEffect s.config.tileFormat e := rfl
@[simp] theorem State.applyHandler_terminal (s : State) (e : List Byte × List GpuOp) : (s.applyHandler e).terminal = s.terminal := rfl
@[simp] theorem State.applyHandler_cyclesPerFrame (s : State) (e : List Byte × List GpuOp) : (s.applyHandler e).cyclesPerFrame = s.cyclesPerFrame := rfl
@[simp] theorem State.applyHandler_images (s : State) (e : List Byte × List GpuOp) : (s.applyHandler e).images = s.images := rfl
@[simp] theorem State.applyHandler_entry (s : State) (e : List Byte × List GpuOp) : (s.applyHandler e).entry = s.entry := rfl
@[simp] theorem State.applyHandler_config (s : State) (e : List Byte × List GpuOp) : (s.applyHandler e).config = s.config := rfl
@[simp] theorem State.applyHandler_inputDraws (s : State) (e : List Byte × List GpuOp) : (s.applyHandler e).inputDraws = s.inputDraws := rfl

/-! ## push8 -/

@[simp] theorem push8_regs (s : State) (v : Byte) : (push8 s v).regs = s.regs := rfl
@[simp] theorem push8_pc (s : State) (v : Byte) : (push8 s v).pc = s.pc := rfl
@[simp] theorem push8_sp (s : State) (v : Byte) : (push8 s v).sp = s.sp - 1 := rfl
@[simp] theorem push8_flags (s : State) (v : Byte) : (push8 s v).flags = s.flags := rfl
@[simp] theorem push8_run (s : State) (v : Byte) : (push8 s v).run = s.run := rfl
@[simp] theorem push8_fault (s : State) (v : Byte) : (push8 s v).fault = s.fault := rfl
@[simp] theorem push8_queue (s : State) (v : Byte) : (push8 s v).queue = s.queue := rfl
@[simp] theorem push8_cycles (s : State) (v : Byte) : (push8 s v).cycles = s.cycles := rfl
@[simp] theorem push8_mem (s : State) (v : Byte) : (push8 s v).mem = Memory.write s.mem (s.sp - 1).toNat v := rfl
@[simp] theorem push8_gpu (s : State) (v : Byte) : (push8 s v).gpu = s.gpu := rfl
@[simp] theorem push8_terminal (s : State) (v : Byte) : (push8 s v).terminal = s.terminal := rfl
@[simp] theorem push8_cyclesPerFrame (s : State) (v : Byte) : (push8 s v).cyclesPerFrame = s.cyclesPerFrame := rfl
@[simp] theorem push8_images (s : State) (v : Byte) : (push8 s v).images = s.images := rfl
@[simp] theorem push8_entry (s : State) (v : Byte) : (push8 s v).entry = s.entry := rfl
@[simp] theorem push8_config (s : State) (v : Byte) : (push8 s v).config = s.config := rfl
@[simp] theorem push8_inputDraws (s : State) (v : Byte) : (push8 s v).inputDraws = s.inputDraws := rfl

/-! ## pop8 -/

@[simp] theorem pop8_regs (s : State) : (pop8 s).2.regs = s.regs := rfl
@[simp] theorem pop8_pc (s : State) : (pop8 s).2.pc = s.pc := rfl
@[simp] theorem pop8_sp (s : State) : (pop8 s).2.sp = s.sp + 1 := rfl
@[simp] theorem pop8_flags (s : State) : (pop8 s).2.flags = s.flags := rfl
@[simp] theorem pop8_run (s : State) : (pop8 s).2.run = s.run := rfl
@[simp] theorem pop8_fault (s : State) : (pop8 s).2.fault = s.fault := rfl
@[simp] theorem pop8_queue (s : State) : (pop8 s).2.queue = s.queue := rfl
@[simp] theorem pop8_cycles (s : State) : (pop8 s).2.cycles = s.cycles := rfl
@[simp] theorem pop8_mem (s : State) : (pop8 s).2.mem = s.mem := rfl
@[simp] theorem pop8_gpu (s : State) : (pop8 s).2.gpu = s.gpu := rfl
@[simp] theorem pop8_terminal (s : State) : (pop8 s).2.terminal = s.terminal := rfl
@[simp] theorem pop8_cyclesPerFrame (s : State) : (pop8 s).2.cyclesPerFrame = s.cyclesPerFrame := rfl
@[simp] theorem pop8_images (s : State) : (pop8 s).2.images = s.images := rfl
@[simp] theorem pop8_entry (s : State) : (pop8 s).2.entry = s.entry := rfl
@[simp] theorem pop8_config (s : State) : (pop8 s).2.config = s.config := rfl
@[simp] theorem pop8_inputDraws (s : State) : (pop8 s).2.inputDraws = s.inputDraws := rfl

/-! ## push16 -/

@[simp] theorem push16_regs (s : State) (w : Addr) : (push16 s w).regs = s.regs := rfl
@[simp] theorem push16_pc (s : State) (w : Addr) : (push16 s w).pc = s.pc := rfl
@[simp] theorem push16_sp (s : State) (w : Addr) : (push16 s w).sp = s.sp - 1 - 1 := rfl
@[simp] theorem push16_flags (s : State) (w : Addr) : (push16 s w).flags = s.flags := rfl
@[simp] theorem push16_run (s : State) (w : Addr) : (push16 s w).run = s.run := rfl
@[simp] theorem push16_fault (s : State) (w : Addr) : (push16 s w).fault = s.fault := rfl
@[simp] theorem push16_queue (s : State) (w : Addr) : (push16 s w).queue = s.queue := rfl
@[simp] theorem push16_cycles (s : State) (w : Addr) : (push16 s w).cycles = s.cycles := rfl
@[simp] theorem push16_mem (s : State) (w : Addr) : (push16 s w).mem = Memory.write (Memory.write s.mem (s.sp - 1).toNat (hiByte w)) (s.sp - 1 - 1).toNat (loByte w) := rfl
@[simp] theorem push16_gpu (s : State) (w : Addr) : (push16 s w).gpu = s.gpu := rfl
@[simp] theorem push16_terminal (s : State) (w : Addr) : (push16 s w).terminal = s.terminal := rfl
@[simp] theorem push16_cyclesPerFrame (s : State) (w : Addr) : (push16 s w).cyclesPerFrame = s.cyclesPerFrame := rfl
@[simp] theorem push16_images (s : State) (w : Addr) : (push16 s w).images = s.images := rfl
@[simp] theorem push16_entry (s : State) (w : Addr) : (push16 s w).entry = s.entry := rfl
@[simp] theorem push16_config (s : State) (w : Addr) : (push16 s w).config = s.config := rfl
@[simp] theorem push16_inputDraws (s : State) (w : Addr) : (push16 s w).inputDraws = s.inputDraws := rfl

/-! ## pop16 -/

@[simp] theorem pop16_regs (s : State) : (pop16 s).2.regs = s.regs := rfl
@[simp] theorem pop16_pc (s : State) : (pop16 s).2.pc = s.pc := rfl
@[simp] theorem pop16_sp (s : State) : (pop16 s).2.sp = s.sp + 1 + 1 := rfl
@[simp] theorem pop16_flags (s : State) : (pop16 s).2.flags = s.flags := rfl
@[simp] theorem pop16_run (s : State) : (pop16 s).2.run = s.run := rfl
@[simp] theorem pop16_fault (s : State) : (pop16 s).2.fault = s.fault := rfl
@[simp] theorem pop16_queue (s : State) : (pop16 s).2.queue = s.queue := rfl
@[simp] theorem pop16_cycles (s : State) : (pop16 s).2.cycles = s.cycles := rfl
@[simp] theorem pop16_mem (s : State) : (pop16 s).2.mem = s.mem := rfl
@[simp] theorem pop16_gpu (s : State) : (pop16 s).2.gpu = s.gpu := rfl
@[simp] theorem pop16_terminal (s : State) : (pop16 s).2.terminal = s.terminal := rfl
@[simp] theorem pop16_cyclesPerFrame (s : State) : (pop16 s).2.cyclesPerFrame = s.cyclesPerFrame := rfl
@[simp] theorem pop16_images (s : State) : (pop16 s).2.images = s.images := rfl
@[simp] theorem pop16_entry (s : State) : (pop16 s).2.entry = s.entry := rfl
@[simp] theorem pop16_config (s : State) : (pop16 s).2.config = s.config := rfl
@[simp] theorem pop16_inputDraws (s : State) : (pop16 s).2.inputDraws = s.inputDraws := rfl

@[simp] theorem pop8_value (s : State) : (pop8 s).1 = Memory.read s.mem s.sp.toNat := rfl

@[simp] theorem pop16_value (s : State) : (pop16 s).1 =
    addrOfBytes (Memory.read s.mem s.sp.toNat) (Memory.read s.mem (s.sp + 1).toNat) := rfl

@[simp] theorem settle_ok (s t : State) : settle s (.ok t) = .next t := rfl

@[simp] theorem settle_error (s : State) (c : FaultCause) : settle s (.error c) = .next (s.takeFault c) := rfl

/-! ## The register file -/

@[simp] theorem Regs.get_set_same (g : Regs) (r : Reg) (v : Byte) : (g.set r v).get r = v := by
  cases r <;> rfl

theorem Regs.get_set_ne (g : Regs) {q r : Reg} (v : Byte) (h : q ≠ r) : (g.set r v).get q = g.get q := by
  cases q <;> cases r <;> first | rfl | exact absurd rfl h

theorem Regs.get_set (g : Regs) (q r : Reg) (v : Byte) : (g.set r v).get q = if q = r then v else g.get q := by
  split
  · rename_i h; subst h; simp
  · rename_i h; exact Regs.get_set_ne g v h

/-- A register written with its own value is unchanged. -/
@[simp] theorem Regs.set_get (g : Regs) (r : Reg) : g.set r (g.get r) = g := by
  cases r <;> rfl

@[simp] theorem State.setReg_reg_same (s : State) (r : Reg) (v : Byte) : (s.setReg r v).reg r = v :=
  Regs.get_set_same s.regs r v

theorem State.setReg_reg_ne (s : State) {q r : Reg} (v : Byte) (h : q ≠ r) : (s.setReg r v).reg q = s.reg q :=
  Regs.get_set_ne s.regs v h

@[simp] theorem State.advance_reg (s : State) (n : Nat) (r : Reg) : (s.advance n).reg r = s.reg r := rfl
@[simp] theorem State.setFlags_reg (s : State) (f : Flags) (r : Reg) : (s.setFlags f).reg r = s.reg r := rfl
@[simp] theorem State.jumpTo_reg (s : State) (t : Addr) (r : Reg) : (s.jumpTo t).reg r = s.reg r := rfl
@[simp] theorem State.storeByte_reg (s : State) (a : Addr) (v : Byte) (r : Reg) :
    (s.storeByte a v).reg r = s.reg r := rfl
@[simp] theorem State.tick_reg (s : State) (r : Reg) : s.tick.reg r = s.reg r := rfl
@[simp] theorem push8_reg (s : State) (v : Byte) (r : Reg) : (push8 s v).reg r = s.reg r := rfl
@[simp] theorem pop8_reg (s : State) (r : Reg) : (pop8 s).2.reg r = s.reg r := rfl
@[simp] theorem push16_reg (s : State) (w : Addr) (r : Reg) : (push16 s w).reg r = s.reg r := rfl
@[simp] theorem pop16_reg (s : State) (r : Reg) : (pop16 s).2.reg r = s.reg r := rfl

end Sys2Proof.Machine
end

