-- ==== Sys2Proof/Laws/Ops.lean ====
section
/-!
SUPPORT. One lemma per shared operation that says once what it can do: the regions, the checks, the stack, trap entry and
trap return, fetching.
-/

namespace Sys2Proof.Machine

/-! ## Bytes of a 16-bit value -/

theorem addrOfBytes_toNat (lo hi : Byte) : (addrOfBytes lo hi).toNat = 256 * hi.toNat + lo.toNat := by
  have h := lo.isLt
  simp only [addrOfBytes, BitVec.toNat_append]
  rw [← Nat.shiftLeft_add_eq_or_of_lt (by omega), Nat.shiftLeft_eq]
  omega

theorem loByte_toNat (w : Addr) : (loByte w).toNat = w.toNat % 256 := by
  simp [loByte, BitVec.extractLsb'_toNat]

theorem hiByte_toNat (w : Addr) : (hiByte w).toNat = w.toNat / 256 := by
  have h := w.isLt
  simp only [hiByte, BitVec.extractLsb'_toNat, Nat.shiftRight_eq_div_pow]
  omega

@[simp] theorem loByte_addrOfBytes (lo hi : Byte) : loByte (addrOfBytes lo hi) = lo := by
  apply BitVec.eq_of_toNat_eq
  have h := lo.isLt
  rw [loByte_toNat, addrOfBytes_toNat]; omega

@[simp] theorem hiByte_addrOfBytes (lo hi : Byte) : hiByte (addrOfBytes lo hi) = hi := by
  apply BitVec.eq_of_toNat_eq
  have h := lo.isLt
  rw [hiByte_toNat, addrOfBytes_toNat]; omega

/-! ## Regions and permissions -/

/-- The executable addresses are those of PRAM and ROM (R64). -/
theorem executable_iff {a : Nat} :
    executable a = true ↔ (0x0200 ≤ a ∧ a ≤ 0x7FFF) ∨ (0xC000 ≤ a ∧ a ≤ 0xFFFF) := by
  simp only [executable, region, Bool.and_eq_true, Bool.or_eq_true, decide_eq_true_eq]
  split_ifs <;> simp <;> omega

/-- An address of the space is in ROM from 0xC000 on (R60). -/
theorem region_rom_iff {a : Nat} : region a = .rom ↔ 0xC000 ≤ a := by
  simp only [region]
  split_ifs <;> simp <;> omega

theorem executable_le {a : Nat} (h : executable a = true) : a ≤ 0xFFFF := by
  rw [executable_iff] at h; omega

theorem storeCheck_eq (a : Addr) :
    storeCheck a = if 0xC000 ≤ a.toNat then .error (.memoryBoundsViolation a.toNat) else .ok () := by
  simp only [storeCheck, region_rom_iff]

theorem targetCheck_ok {t : Addr} (h : executable t.toNat = true) : targetCheck t = .ok () := by
  simp [targetCheck, h]

theorem targetCheck_error {t : Addr} (h : ¬ executable t.toNat = true) :
    targetCheck t = .error (.memoryBoundsViolation t.toNat) := by
  simp [targetCheck, h]

theorem fetch8_ok {s : State} {a : Nat} (h : executable a = true) : fetch8 s a = .ok (Memory.read s.mem a) := by
  simp [fetch8, h]

theorem fetch8_error {s : State} {a : Nat} (h : ¬ executable a = true) :
    fetch8 s a = .error (.memoryBoundsViolation a) := by
  simp [fetch8, h]

theorem checkPush_ok {s : State} {n : Nat} (h : 0x0100 + n ≤ s.sp.toNat) : checkPush s n = .ok () := by
  simp [checkPush, stackBottom, h]

theorem checkPush_error {s : State} {n : Nat} (h : s.sp.toNat < 0x0100 + n) :
    checkPush s n = .error (.stackOverflow s.sp) := by
  simp [checkPush, stackBottom, Nat.not_le.2 h]

theorem checkPop_ok {s : State} {n : Nat} (h : s.sp.toNat + n ≤ 0x01FF) : checkPop s n = .ok () := by
  simp [checkPop, stackTop, h]

theorem checkPop_error {s : State} {n : Nat} (h : 0x01FF < s.sp.toNat + n) :
    checkPop s n = .error (.stackUnderflow s.sp) := by
  simp [checkPop, stackTop, Nat.not_le.2 h]

/-! ## The SP's arithmetic -/

theorem addr_sub_one_toNat {a : Addr} (h : 1 ≤ a.toNat) : (a - 1).toNat = a.toNat - 1 := by
  have := a.isLt; rw [BitVec.toNat_sub]; simp; omega

theorem addr_add_one_toNat {a : Addr} (h : a.toNat < 0xFFFF) : (a + 1).toNat = a.toNat + 1 := by
  rw [BitVec.toNat_add]; simp; omega

@[simp] theorem addr_sub_add_one (a : Addr) : a - 1 + 1 = a := BitVec.sub_add_cancel a 1

@[simp] theorem addr_add_sub_one (a : Addr) : a + 1 - 1 = a := BitVec.add_sub_cancel a 1

/-! ## The stack -/

/-- Push8 keeps memory canonical. -/
theorem push8_memWf {s : State} (h : Memory.wf s.mem = true) (v : Byte) : Memory.wf (push8 s v).mem = true :=
  Memory.wf_write_addr h _ v

theorem push16_memWf {s : State} (h : Memory.wf s.mem = true) (w : Addr) : Memory.wf (push16 s w).mem = true :=
  push8_memWf (push8_memWf h _) _

/-- What memory reads as after Push8. -/
theorem push8_read {s : State} (h : Memory.wf s.mem = true) (hs : 1 ≤ s.sp.toNat) (v : Byte) (a : Nat) :
    Memory.read (push8 s v).mem a = if a = s.sp.toNat - 1 then v else Memory.read s.mem a := by
  rw [push8_mem, Memory.read_write h, addr_sub_one_toNat hs]

/-- What memory reads as after Push16: the high byte at sp - 1, the low byte at sp - 2 (R125). -/
theorem push16_read {s : State} (h : Memory.wf s.mem = true) (hs : 2 ≤ s.sp.toNat) (w : Addr) (a : Nat) :
    Memory.read (push16 s w).mem a =
      if a = s.sp.toNat - 2 then loByte w else if a = s.sp.toNat - 1 then hiByte w else Memory.read s.mem a := by
  have h1 : (s.sp - 1).toNat = s.sp.toNat - 1 := addr_sub_one_toNat (by omega)
  rw [push16, push8_read (push8_memWf h _) (by rw [push8_sp, h1]; omega), push8_read h (by omega), push8_sp, h1]
  rw [show s.sp.toNat - 1 - 1 = s.sp.toNat - 2 by omega]

theorem push16_sp_toNat {s : State} (hs : 2 ≤ s.sp.toNat) (w : Addr) : (push16 s w).sp.toNat = s.sp.toNat - 2 := by
  have h1 : (s.sp - 1).toNat = s.sp.toNat - 1 := addr_sub_one_toNat (by omega)
  rw [push16_sp, addr_sub_one_toNat (by omega), h1]; omega

theorem pop16_sp_toNat {s : State} (hs : s.sp.toNat + 2 ≤ 0xFFFF) : (pop16 s).2.sp.toNat = s.sp.toNat + 2 := by
  have h1 : (s.sp + 1).toNat = s.sp.toNat + 1 := addr_add_one_toNat (by omega)
  rw [pop16_sp, addr_add_one_toNat (by omega), h1]

/-! ## Trap entry and return -/

/-- What a dispatch can do (R313): one of its three checks fails, in order, or the frame is pushed and the handler
entered. -/
theorem enterInterrupt_eq (v : Addr) (rest : List Addr) (s : State) :
    enterInterrupt v rest s =
      if executable v.toNat = true then
        if 0xFFFF < s.pc then .error (.memoryBoundsViolation s.pc)
        else if 0x0103 ≤ s.sp.toNat then
          .ok { (push8 (push16 s (BitVec.ofNat 16 s.pc)) s.flags.toByte).jumpTo v with queue := rest }
        else .error (.stackOverflow s.sp)
      else .error (.memoryBoundsViolation v.toNat) := by
  unfold enterInterrupt
  by_cases h : executable v.toNat = true
  · rw [targetCheck_ok h, if_pos h]
    by_cases hp : 0xFFFF < s.pc
    · simp [bind, Except.bind, hp]
    · by_cases hs : 0x0103 ≤ s.sp.toNat
      · simp [bind, Except.bind, hp, checkPush_ok (n := 3) hs, hs]
      · simp [bind, Except.bind, hp, checkPush_error (n := 3) (Nat.not_le.1 hs), hs]
  · rw [targetCheck_error h, if_neg h]; rfl

/-- What a return from interrupt can do (R196). -/
theorem returnFromInterrupt_eq (s : State) :
    returnFromInterrupt s =
      if s.sp.toNat ≤ 0x01FC then
        if executable (pop16 (pop8 s).2).1.toNat = true then
          .ok (((pop16 (pop8 s).2).2.setFlags (Flags.ofByte (pop8 s).1)).jumpTo (pop16 (pop8 s).2).1)
        else .error (.memoryBoundsViolation (pop16 (pop8 s).2).1.toNat)
      else .error (.stackUnderflow s.sp) := by
  unfold returnFromInterrupt
  by_cases hs : s.sp.toNat ≤ 0x01FC
  · rw [checkPop_ok (by omega), if_pos hs]
    by_cases h : executable (pop16 (pop8 s).2).1.toNat = true
    · rw [if_pos h]; simp only [bind, Except.bind, targetCheck_ok h]
    · rw [if_neg h]; simp only [bind, Except.bind, targetCheck_error h]
  · rw [checkPop_error (by omega), if_neg hs]; rfl

end Sys2Proof.Machine
end

