-- ==== Sys2Proof/Laws/PerInstr.lean ====
section
/-!
SUPPORT. Statements made for every constructor of Instr. OperandCodec: an instruction has as many operand bytes as its
opcode's arity says, and the operand decoder reads it back from them.
-/

namespace Sys2Proof.Laws.OperandCodec

open Sys2Proof

/-- The operand bytes of an instruction decode to it (R91 to R96). -/
def Statement (i : Instr) : Prop :=
  i.operands.length = i.opcode.operandBytes ∧
  decodeOperands i.opcode (i.operands.getD 0 0) (i.operands.getD 1 0) = .ok i

theorem movReg (r : Reg) (s : Reg) : Statement (.movReg r s) := ⟨rfl, by simp [Instr.operands, decodeOperands, decodeRR, Instr.opcode]⟩
theorem movImm (r : Reg) (imm : Byte) : Statement (.movImm r imm) := ⟨rfl, by simp [Instr.operands, decodeOperands, decodeR, Instr.opcode]⟩
theorem load (r : Reg) (p : Base) : Statement (.load r p) := ⟨rfl, by simp [Instr.operands, decodeOperands, Instr.opcode]⟩
theorem store (p : Base) (r : Reg) : Statement (.store p r) := ⟨rfl, by simp [Instr.operands, decodeOperands, Instr.opcode]⟩
theorem push (r : Reg) : Statement (.push r) := ⟨rfl, by simp [Instr.operands, decodeOperands, decodeR, Instr.opcode]⟩
theorem pop (r : Reg) : Statement (.pop r) := ⟨rfl, by simp [Instr.operands, decodeOperands, decodeR, Instr.opcode]⟩
theorem addReg (r : Reg) (s : Reg) : Statement (.addReg r s) := ⟨rfl, by simp [Instr.operands, decodeOperands, decodeRR, Instr.opcode]⟩
theorem addImm (r : Reg) (imm : Byte) : Statement (.addImm r imm) := ⟨rfl, by simp [Instr.operands, decodeOperands, decodeR, Instr.opcode]⟩
theorem subReg (r : Reg) (s : Reg) : Statement (.subReg r s) := ⟨rfl, by simp [Instr.operands, decodeOperands, decodeRR, Instr.opcode]⟩
theorem subImm (r : Reg) (imm : Byte) : Statement (.subImm r imm) := ⟨rfl, by simp [Instr.operands, decodeOperands, decodeR, Instr.opcode]⟩
theorem mulReg (s : Reg) : Statement (.mulReg s) := ⟨rfl, by simp [Instr.operands, decodeOperands, decodeR, Instr.opcode]⟩
theorem mulImm (imm : Byte) : Statement (.mulImm imm) := ⟨rfl, rfl⟩
theorem divReg (s : Reg) : Statement (.divReg s) := ⟨rfl, by simp [Instr.operands, decodeOperands, decodeR, Instr.opcode]⟩
theorem divImm (imm : Byte) : Statement (.divImm imm) := ⟨rfl, rfl⟩
theorem inc (r : Reg) : Statement (.inc r) := ⟨rfl, by simp [Instr.operands, decodeOperands, decodeR, Instr.opcode]⟩
theorem dec (r : Reg) : Statement (.dec r) := ⟨rfl, by simp [Instr.operands, decodeOperands, decodeR, Instr.opcode]⟩
theorem andReg (r : Reg) (s : Reg) : Statement (.andReg r s) := ⟨rfl, by simp [Instr.operands, decodeOperands, decodeRR, Instr.opcode]⟩
theorem andImm (r : Reg) (imm : Byte) : Statement (.andImm r imm) := ⟨rfl, by simp [Instr.operands, decodeOperands, decodeR, Instr.opcode]⟩
theorem orReg (r : Reg) (s : Reg) : Statement (.orReg r s) := ⟨rfl, by simp [Instr.operands, decodeOperands, decodeRR, Instr.opcode]⟩
theorem orImm (r : Reg) (imm : Byte) : Statement (.orImm r imm) := ⟨rfl, by simp [Instr.operands, decodeOperands, decodeR, Instr.opcode]⟩
theorem xorReg (r : Reg) (s : Reg) : Statement (.xorReg r s) := ⟨rfl, by simp [Instr.operands, decodeOperands, decodeRR, Instr.opcode]⟩
theorem xorImm (r : Reg) (imm : Byte) : Statement (.xorImm r imm) := ⟨rfl, by simp [Instr.operands, decodeOperands, decodeR, Instr.opcode]⟩
theorem notReg (r : Reg) : Statement (.notReg r) := ⟨rfl, by simp [Instr.operands, decodeOperands, decodeR, Instr.opcode]⟩
theorem shl (r : Reg) : Statement (.shl r) := ⟨rfl, by simp [Instr.operands, decodeOperands, decodeR, Instr.opcode]⟩
theorem shr (r : Reg) : Statement (.shr r) := ⟨rfl, by simp [Instr.operands, decodeOperands, decodeR, Instr.opcode]⟩
theorem jmp (target : Addr) : Statement (.jmp target) := ⟨rfl, by simp [Instr.operands, decodeOperands, Instr.opcode, addrOfBytes_bytes]⟩
theorem jz (target : Addr) : Statement (.jz target) := ⟨rfl, by simp [Instr.operands, decodeOperands, Instr.opcode, addrOfBytes_bytes]⟩
theorem jnz (target : Addr) : Statement (.jnz target) := ⟨rfl, by simp [Instr.operands, decodeOperands, Instr.opcode, addrOfBytes_bytes]⟩
theorem call (target : Addr) : Statement (.call target) := ⟨rfl, by simp [Instr.operands, decodeOperands, Instr.opcode, addrOfBytes_bytes]⟩
theorem ret : Statement (.ret) := ⟨rfl, rfl⟩
theorem reti : Statement (.reti) := ⟨rfl, rfl⟩
theorem hlt : Statement (.hlt) := ⟨rfl, rfl⟩
theorem outPort (port : Byte) (r : Reg) : Statement (.outPort port r) := ⟨rfl, by simp [Instr.operands, decodeOperands, decodeR, Instr.opcode]⟩
theorem inPort (r : Reg) (port : Byte) : Statement (.inPort r port) := ⟨rfl, by simp [Instr.operands, decodeOperands, decodeR, Instr.opcode]⟩
theorem cmpReg (r : Reg) (s : Reg) : Statement (.cmpReg r s) := ⟨rfl, by simp [Instr.operands, decodeOperands, decodeRR, Instr.opcode]⟩
theorem cmpImm (r : Reg) (imm : Byte) : Statement (.cmpImm r imm) := ⟨rfl, by simp [Instr.operands, decodeOperands, decodeR, Instr.opcode]⟩

end Sys2Proof.Laws.OperandCodec
end

