-- ==== Sys2Proof/Laws/Decode.lean ====
section
/-!
SUPPORT. Decoding an encoding, for every opcode map, and fetching: what the fetch of an instruction answers, from the
bytes at the PC.
-/

namespace Sys2Proof

/-- OperandCodec holds of every instruction. -/
theorem operandCodec (i : Instr) : Laws.OperandCodec.Statement i := by
  cases i
  · exact Laws.OperandCodec.movReg _ _
  · exact Laws.OperandCodec.movImm _ _
  · exact Laws.OperandCodec.load _ _
  · exact Laws.OperandCodec.store _ _
  · exact Laws.OperandCodec.push _
  · exact Laws.OperandCodec.pop _
  · exact Laws.OperandCodec.addReg _ _
  · exact Laws.OperandCodec.addImm _ _
  · exact Laws.OperandCodec.subReg _ _
  · exact Laws.OperandCodec.subImm _ _
  · exact Laws.OperandCodec.mulReg _
  · exact Laws.OperandCodec.mulImm _
  · exact Laws.OperandCodec.divReg _
  · exact Laws.OperandCodec.divImm _
  · exact Laws.OperandCodec.inc _
  · exact Laws.OperandCodec.dec _
  · exact Laws.OperandCodec.andReg _ _
  · exact Laws.OperandCodec.andImm _ _
  · exact Laws.OperandCodec.orReg _ _
  · exact Laws.OperandCodec.orImm _ _
  · exact Laws.OperandCodec.xorReg _ _
  · exact Laws.OperandCodec.xorImm _ _
  · exact Laws.OperandCodec.notReg _
  · exact Laws.OperandCodec.shl _
  · exact Laws.OperandCodec.shr _
  · exact Laws.OperandCodec.jmp _
  · exact Laws.OperandCodec.jz _
  · exact Laws.OperandCodec.jnz _
  · exact Laws.OperandCodec.call _
  · exact Laws.OperandCodec.ret
  · exact Laws.OperandCodec.reti
  · exact Laws.OperandCodec.hlt
  · exact Laws.OperandCodec.outPort _ _
  · exact Laws.OperandCodec.inPort _ _
  · exact Laws.OperandCodec.cmpReg _ _
  · exact Laws.OperandCodec.cmpImm _ _

/-- An opcode has at most two operand bytes (R90). -/
theorem Opcode.operandBytes_le (o : Opcode) : o.operandBytes ≤ 2 := by cases o <;> decide

/-- Bytes that start with an opcode byte and an instruction's operand bytes decode to it. -/
theorem decode_of_lookup {m : OpcodeMap} {i : Instr} {op : Byte} (h : m.lookup op = some i.opcode) (rest : List Byte) :
    decode m (op :: (i.operands ++ rest)) = .ok (i, rest) := by
  obtain ⟨hl, hd⟩ := operandCodec i
  have hle := i.opcode.operandBytes_le
  simp only [decode, h]
  match hops : i.operands, hn : i.opcode.operandBytes with
  | [], 0 =>
    rw [hops] at hd; simp only [List.getD_nil] at hd
    show decodedWith (decodeOperands i.opcode 0 0) rest = _
    rw [hd]; rfl
  | [b1], 1 =>
    rw [hops] at hd; simp only [List.getD_cons_zero, List.getD_cons_succ, List.getD_nil] at hd
    show decodedWith (decodeOperands i.opcode b1 0) rest = _
    rw [hd]; rfl
  | [b1, b2], 2 =>
    rw [hops] at hd; simp only [List.getD_cons_zero, List.getD_cons_succ] at hd
    show decodedWith (decodeOperands i.opcode b1 b2) rest = _
    rw [hd]; rfl
  | [], n + 1 => simp [hops, hn] at hl
  | _ :: _, 0 => simp [hops, hn] at hl
  | [_], n + 2 => simp [hops, hn] at hl
  | _ :: _ :: l, 1 => simp [hops, hn] at hl
  | [_, _], n + 3 => omega
  | _ :: _ :: _ :: l, 2 => simp [hops, hn] at hl
  | _ :: _ :: _ :: l, n + 3 => omega

/-- The encoder's bytes under a well-formed map decode to the instruction. -/
theorem decode_encode {m : OpcodeMap} (hm : m.wf = true) {i : Instr} {bytes : List Byte}
    (h : encode m i = some bytes) (rest : List Byte) : decode m (bytes ++ rest) = .ok (i, rest) := by
  unfold encode at h
  split at h
  · rename_i op hop
    injection h with h; subst h
    exact decode_of_lookup (OpcodeMap.lookup_of_byteOf hm hop) rest
  · cases h

/-- An instruction's bytes under the default map, from its opcode byte. -/
theorem encodedAs_default {i : Instr} {op : Byte} (h : defaultOpcodeMap.byteOf i.opcode = some op) :
    EncodedAs i (op :: i.operands) := by
  have he : encode defaultOpcodeMap i = some (op :: i.operands) := by simp [encode, h]
  exact ⟨he, fun rest => decode_encode defaultOpcodeMap_wf he rest⟩

/-- Under the default map an opcode has one byte. -/
theorem byteOf_of_lookup_default {b : Byte} {o : Opcode} (h : defaultOpcodeMap.lookup b = some o) :
    defaultOpcodeMap.byteOf o = some b := by
  revert b o; decide

/-- What the operand decoder reads has the opcode, and its operand bytes are the ones read. -/
theorem operands_of_decode {o : Opcode} {b1 b2 : Byte} {i : Instr} (h : decodeOperands o b1 b2 = .ok i) :
    i.opcode = o ∧ i.operands = ([b1, b2].take o.operandBytes) := by
  have hR : ∀ {k b mk}, decodeR k b mk = .ok i → ∃ r, i = mk r ∧ b = rByte r := by
    intro k b mk h; unfold decodeR at h; split at h
    · rename_i r hr; injection h with h; exact ⟨r, h.symm, (rByte_of_regOfRByte hr).symm⟩
    · cases h
  have hRR : ∀ {b mk}, decodeRR b mk = .ok i → ∃ r s, i = mk r s ∧ b = rrByte r.code s.code := by
    intro b mk h; unfold decodeRR at h; split at h
    · rename_i r s hr hs; injection h with h
      refine ⟨r, s, h.symm, ?_⟩
      rw [code_of_regOfCode hr, code_of_regOfCode hs, rrByte_nibbles]
    · cases h
  cases o <;> simp only [decodeOperands] at h
  case load =>
    split at h
    · rename_i r s hr hs; injection h with h; subst h
      refine ⟨rfl, ?_⟩
      simp only [Instr.operands, code_of_regOfCode hr, code_of_baseOfCode hs, rrByte_nibbles]; rfl
    · cases h
  case store =>
    split at h
    · rename_i r s hr hs; injection h with h; subst h
      refine ⟨rfl, ?_⟩
      simp only [Instr.operands, code_of_regOfCode hs, code_of_baseOfCode hr, rrByte_nibbles]; rfl
    · cases h
  all_goals first
    | (obtain ⟨r, s, rfl, rfl⟩ := hRR h; exact ⟨rfl, rfl⟩)
    | (obtain ⟨r, rfl, rfl⟩ := hR h; exact ⟨rfl, rfl⟩)
    | (injection h with h; subst h; refine ⟨rfl, ?_⟩; simp [Instr.operands, Opcode.operandBytes])

/-- Bytes that decode start with the opcode's byte. -/
theorem lookup_of_decode {m : OpcodeMap} {op : Byte} {tl rest} {i : Instr} (h : decode m (op :: tl) = .ok (i, rest)) :
   m.lookup op = some i.opcode := by
    simp only [decode] at h
    split at h
    · cases h
    · rename_i o ho
      have fin : ∀ b1 b2 r, decodedWith (decodeOperands o b1 b2) r = .ok (i, rest) → o = i.opcode := by
        intro b1 b2 r hh
        unfold decodedWith at hh
        split at hh
        · rename_i j hj
          simp only [Except.ok.injEq, Prod.mk.injEq] at hh
          obtain ⟨rfl, rfl⟩ := hh
          exact (operands_of_decode hj).1.symm
        · cases hh
      split at h
      · rw [ho, fin _ _ _ h]
      · rw [ho, fin _ _ _ h]
      · rw [ho, fin _ _ _ h]
      · cases h

end Sys2Proof

namespace Sys2Proof.Machine

/-- A fetched operand byte is the byte after the PC, where it is executable. -/
theorem fetchOperand_ok {s : State} {o : Opcode} {k : Nat} (hk : k ≤ o.operandBytes)
    (h : executable (s.pc + k) = true) : fetchOperand s o k = .ok (Memory.read s.mem (s.pc + k)) := by
  simp [fetchOperand, hk, fetch8_ok h]

theorem fetchOperand_none {s : State} {o : Opcode} {k : Nat} (hk : o.operandBytes < k) :
    fetchOperand s o k = .ok 0 := by
  simp [fetchOperand, Nat.not_le.2 hk]

theorem fetchOperand_error {s : State} {o : Opcode} {k : Nat} (hk : k ≤ o.operandBytes)
    (h : ¬ executable (s.pc + k) = true) : fetchOperand s o k = .error (.memoryBoundsViolation (s.pc + k)) := by
  simp [fetchOperand, hk, fetch8_error h]

/-- What fetching an instruction answers, once every byte of it can be fetched: the outcome of decoding the bytes at the
PC. -/
theorem fetchInstr_of_bytes {s : State} {o : Opcode} (h0 : executable s.pc = true)
    (hl : s.config.opcodeMap.lookup (Memory.read s.mem s.pc) = some o)
    (hx : ∀ j, j < o.length → executable (s.pc + j) = true) :
    fetchInstr s =
      match decode s.config.opcodeMap (bytesAtPc s o.length) with
      | .ok (i, _) => .ok i
      | .error (.badOperand k b) => .error (.invalidOpcode (s.pc + k) b)
      | .error _ => .error (.invalidOpcode s.pc (Memory.read s.mem s.pc)) := by
  have hle := o.operandBytes_le
  unfold Opcode.length at hx
  simp only [fetchInstr, fetch8_ok h0, bind, Except.bind, hl]
  rcases hn : o.operandBytes with _ | _ | _ | n
  · rw [fetchOperand_none (by omega), fetchOperand_none (by omega)]
    simp only [bytesAtPc, Opcode.length, hn, decode, List.range_succ_eq_map, List.range_zero, List.map, Nat.add_zero, hl]
    unfold decodedWith
    cases decodeOperands o 0 0 <;> rfl
  · rw [fetchOperand_ok (by omega) (hx 1 (by omega)), fetchOperand_none (by omega)]
    simp only [bytesAtPc, Opcode.length, hn, decode, List.range_succ_eq_map, List.range_zero, List.map, Nat.add_zero, hl]
    unfold decodedWith
    cases decodeOperands o (Memory.read s.mem (s.pc + 1)) 0 <;> rfl
  · rw [fetchOperand_ok (by omega) (hx 1 (by omega)), fetchOperand_ok (by omega) (hx 2 (by omega))]
    simp only [bytesAtPc, Opcode.length, hn, decode, List.range_succ_eq_map, List.range_zero, List.map, Nat.add_zero, hl]
    unfold decodedWith
    cases decodeOperands o (Memory.read s.mem (s.pc + 1)) (Memory.read s.mem (s.pc + 2)) <;> rfl
  · omega

end Sys2Proof.Machine
end

