-- ==== Sys2Proof/Laws/Exec.lean ====
section
/-!
SUPPORT. One lemma per instruction that can fault, saying everything it can do: which check fails, with which fault, or
the state it leaves. The instructions that cannot fault are equations already.
-/

namespace Sys2Proof.Machine

theorem execStore_eq (p : Base) (r : Reg) (s : State) :
    execStore p r s =
      if 0xC000 ≤ (pairAddress s.regs p).toNat then
        .next (s.takeFault (.memoryBoundsViolation (pairAddress s.regs p).toNat))
      else .next ((s.advance 2).storeByte (pairAddress s.regs p) (s.reg r)) := by
  simp only [execStore, storeCheck_eq]
  split <;> rfl

theorem execPush_eq (r : Reg) (s : State) :
    execPush r s =
      if 0x0101 ≤ s.sp.toNat then .next (push8 (s.advance 2) (s.reg r))
      else .next (s.takeFault (.stackOverflow s.sp)) := by
  unfold execPush
  split
  · rename_i h; rw [checkPush_ok (n := 1) h]; rfl
  · rename_i h; rw [checkPush_error (n := 1) (Nat.not_le.1 h)]; rfl

theorem execPop_eq (r : Reg) (s : State) :
    execPop r s =
      if s.sp.toNat ≤ 0x01FE then
        .next ((pop8 (s.advance 2)).2.setReg r (Memory.read s.mem s.sp.toNat))
      else .next (s.takeFault (.stackUnderflow s.sp)) := by
  unfold execPop
  split
  · rw [checkPop_ok (by omega)]; rfl
  · rw [checkPop_error (by omega)]; rfl

/-- DIV's outcome by a divisor (R148, R149). -/
theorem settle_divideBy (v : Byte) (s : State) :
    settle s (divideBy v s) =
      if v = 0 then .next (s.takeFault .divideByZero)
      else .next (s.writeResult 2 .a (divFlags s.flags (s.reg .a) v)) := by
  unfold divideBy; split <;> rfl

theorem settle_transferTo (s u : State) (t : Addr) :
    settle s (transferTo t u) =
      if executable t.toNat = true then .next (u.jumpTo t)
      else .next (s.takeFault (.memoryBoundsViolation t.toNat)) := by
  unfold transferTo
  split
  · rename_i h; rw [targetCheck_ok h]; rfl
  · rename_i h; rw [targetCheck_error h]; rfl

theorem execJmp_eq (t : Addr) (s : State) :
    execJmp t s =
      if executable t.toNat = true then .next (s.jumpTo t)
      else .next (s.takeFault (.memoryBoundsViolation t.toNat)) :=
  settle_transferTo s s t

theorem execJz_eq (t : Addr) (s : State) :
    execJz t s =
      if s.flags.z = true then
        if executable t.toNat = true then .next (s.jumpTo t)
        else .next (s.takeFault (.memoryBoundsViolation t.toNat))
      else .next (s.advance 3) := by
  unfold execJz
  split
  · exact settle_transferTo s s t
  · rfl

theorem execJnz_eq (t : Addr) (s : State) :
    execJnz t s =
      if s.flags.z = true then .next (s.advance 3)
      else if executable t.toNat = true then .next (s.jumpTo t)
      else .next (s.takeFault (.memoryBoundsViolation t.toNat)) := by
  unfold execJnz
  split
  · rfl
  · exact settle_transferTo s s t

theorem execCall_eq (t : Addr) (s : State) :
    execCall t s =
      if executable t.toNat = true then
        if 0xFFFF < s.pc + 3 then .next (s.takeFault (.memoryBoundsViolation (s.pc + 3)))
        else if 0x0102 ≤ s.sp.toNat then .next ((push16 s (BitVec.ofNat 16 (s.pc + 3))).jumpTo t)
        else .next (s.takeFault (.stackOverflow s.sp))
      else .next (s.takeFault (.memoryBoundsViolation t.toNat)) := by
  unfold execCall
  by_cases h : executable t.toNat = true
  · rw [targetCheck_ok h, if_pos h]
    by_cases hp : 0xFFFF < s.pc + 3
    · simp [bind, Except.bind, hp]
    · by_cases hs : 0x0102 ≤ s.sp.toNat
      · simp [bind, Except.bind, hp, checkPush_ok (n := 2) hs, hs]
      · simp [bind, Except.bind, hp, checkPush_error (n := 2) (Nat.not_le.1 hs), hs]
  · rw [targetCheck_error h, if_neg h]; rfl

theorem execRet_eq (s : State) :
    execRet s =
      if s.sp.toNat ≤ 0x01FD then
        if executable (pop16 s).1.toNat = true then .next ((pop16 s).2.jumpTo (pop16 s).1)
        else .next (s.takeFault (.memoryBoundsViolation (pop16 s).1.toNat))
      else .next (s.takeFault (.stackUnderflow s.sp)) := by
  unfold execRet
  by_cases hs : s.sp.toNat ≤ 0x01FD
  · rw [checkPop_ok (by omega), if_pos hs]
    exact settle_transferTo s (pop16 s).2 (pop16 s).1
  · rw [checkPop_error (by omega), if_neg hs]; rfl

theorem execReti_eq (s : State) :
    execReti s =
      if s.sp.toNat ≤ 0x01FC then
        if executable (pop16 (pop8 s).2).1.toNat = true then
          .next (((pop16 (pop8 s).2).2.setFlags (Flags.ofByte (pop8 s).1)).jumpTo (pop16 (pop8 s).2).1)
        else .next (s.takeFault (.memoryBoundsViolation (pop16 (pop8 s).2).1.toNat))
      else .next (s.takeFault (.stackUnderflow s.sp)) := by
  rw [execReti, returnFromInterrupt_eq]
  split_ifs <;> rfl

end Sys2Proof.Machine
end

