-- ==== Sys2Proof/Laws/Step.lean ====
section
/-!
SUPPORT. What a step can do, said once: nothing when the core is not Running, a dispatch when an interrupt is pending,
else the fault of a fetch or the meaning of the instruction fetched.
-/

namespace Sys2Proof.Machine

theorem step_running {s : State} (h : s.run = .running) : step s = stepRunning s.tick := by
  simp [step, h]

theorem step_not_running {s : State} (h : s.run ≠ .running) : step s = .next s := by
  unfold step; split <;> first | rfl | exact absurd ‹_› h

/-- A Running core with nothing pending fetches and executes. -/
theorem stepRunning_fetch {s : State} (hq : s.queue = []) :
    stepRunning s = match fetchInstr s with
      | .ok i => exec i s
      | .error c => .next (s.takeFault c) := by
  cases h : fetchInstr s <;> simp only [stepRunning, hq, h]

/-- A Running core with an interrupt pending dispatches it. -/
theorem stepRunning_dispatch {s : State} {v : Addr} {rest : List Addr} (hq : s.queue = v :: rest) :
    stepRunning s = settle s (enterInterrupt v rest s) := by
  unfold stepRunning; rw [hq]

/-- With nothing pending a step fetches and executes. -/
theorem step_fetch {s : State} (h : s.run = .running) (hq : s.queue = []) :
    step s = match fetchInstr s with
      | .ok i => exec i s.tick
      | .error c => .next (s.tick.takeFault c) :=
  (step_running h).trans (stepRunning_fetch (s := s.tick) hq)

/-- With an interrupt pending a step dispatches it. -/
theorem step_dispatch {s : State} (h : s.run = .running) {v : Addr} {rest : List Addr} (hq : s.queue = v :: rest) :
    step s = settle s.tick (enterInterrupt v rest s.tick) :=
  (step_running h).trans (stepRunning_dispatch (s := s.tick) hq)

/-- What a step can do. -/
theorem step_cases {s t : State} (h : step s = .next t) :
    (s.run ≠ .running ∧ t = s) ∨
    (s.run = .running ∧ ∃ v rest, s.queue = v :: rest ∧ settle s.tick (enterInterrupt v rest s.tick) = .next t) ∨
    (s.run = .running ∧ s.queue = [] ∧ ∃ c, fetchInstr s = .error c ∧ t = s.tick.takeFault c) ∨
    (s.run = .running ∧ s.queue = [] ∧ ∃ i, fetchInstr s = .ok i ∧ exec i s.tick = .next t) := by
  by_cases hr : s.run = .running
  · right
    cases hq : s.queue with
    | cons v rest => left; exact ⟨hr, v, rest, rfl, by rw [← step_dispatch hr hq]; exact h⟩
    | nil =>
      right
      rw [step_fetch hr hq] at h
      cases hf : fetchInstr s with
      | error c => left; rw [hf] at h; injection h with h; exact ⟨hr, rfl, c, rfl, h.symm⟩
      | ok i => right; rw [hf] at h; exact ⟨hr, rfl, i, rfl, h⟩
  · left; rw [step_not_running hr] at h; injection h with h; exact ⟨hr, h.symm⟩

/-- A step always answers the state `hostStep` gives. -/
theorem hostStep_of_step {s t : State} (h : step s = .next t) : hostStep s = t := by
  unfold hostStep; rw [h]

end Sys2Proof.Machine
end

