-- ==== Sys2Proof/Laws/Effect.lean ====
section
/-!
SUPPORT. What an instruction can do, said once for all of them (`exec_cases`): it takes one of the faults the rules name,
or it completes with an `Effect`. What a fetch can answer, and what a dispatch can do. The invariants follow from these.
-/

namespace Sys2Proof.Machine

/-- A settled operation always answers a next state (R302, R305). -/
theorem settle_next (s : State) (r : Except FaultCause State) : ∃ t, settle s r = .next t := by
  cases r <;> exact ⟨_, rfl⟩

/-- What an operation that ran from s may leave in t, whatever it was: the rules about the whole machine. -/
structure Kept (s t : State) : Prop where
  /-- memory stays canonical (R32) -/
  memWf : Memory.wf s.mem = true → Memory.wf t.mem = true
  /-- ROM is never written (R63, R67) -/
  rom : Memory.wf s.mem = true → s.spInStack → ∀ a, 0xC000 ≤ a → Memory.read t.mem a = Memory.read s.mem a
  /-- the SP stays in the stack region (R24) -/
  sp : s.spInStack → t.spInStack
  cyclesPerFrame : t.cyclesPerFrame = s.cyclesPerFrame
  images : t.images = s.images
  entry : t.entry = s.entry
  config : t.config = s.config
  cycles : t.cycles = s.cycles
  terminal : ∃ out, t.terminal = s.terminal ++ out
  gpu : GpuOk s.config s.gpu → GpuOk s.config t.gpu

theorem Kept.refl (s : State) : Kept s s :=
  ⟨fun h => h, fun _ _ _ _ => rfl, fun h => h, rfl, rfl, rfl, rfl, rfl, ⟨[], by simp⟩, fun h => h⟩

/-- An operation that moves the PC, writes registers, flags, run state, record, queue or the inputs drawn keeps the
rest. -/
theorem Kept.of_same {s t : State} (hm : t.mem = s.mem) (hs : t.sp = s.sp) (h1 : t.cyclesPerFrame = s.cyclesPerFrame)
    (h2 : t.images = s.images) (h3 : t.entry = s.entry) (h4 : t.config = s.config) (h5 : t.cycles = s.cycles)
    (h6 : t.terminal = s.terminal) (h7 : t.gpu = s.gpu) : Kept s t :=
  ⟨by rw [hm]; exact id, fun _ _ _ _ => by rw [hm], by unfold State.spInStack; rw [hs]; exact id, h1, h2, h3, h4, h5,
    ⟨[], by simp [h6]⟩, by rw [h7]; exact id⟩

theorem Kept.advance (s : State) (n : Nat) : Kept s (s.advance n) :=
  Kept.of_same rfl rfl rfl rfl rfl rfl rfl rfl rfl

theorem Kept.setReg (s : State) (r : Reg) (v : Byte) : Kept s (s.setReg r v) :=
  Kept.of_same rfl rfl rfl rfl rfl rfl rfl rfl rfl

/-- Pushing one byte where there is room. -/
theorem Kept.push8 {s : State} (h : 0x0101 ≤ s.sp.toNat) (v : Byte) : Kept s (push8 s v) := by
  have e : (s.sp - 1).toNat = s.sp.toNat - 1 := addr_sub_one_toNat (by omega)
  refine ⟨fun hw => push8_memWf hw v, fun hw hs a ha => ?_, fun hs => ?_, rfl, rfl, rfl, rfl, rfl, ⟨[], by simp⟩, id⟩
  · have := hs.2
    rw [push8_read hw (by omega), if_neg (by omega)]
  · unfold State.spInStack at hs ⊢
    rw [push8_sp, e]; omega

theorem Kept.trans {s t u : State} (h : Kept s t) (h' : Kept t u) : Kept s u := by
  obtain ⟨out, ho⟩ := h.terminal
  obtain ⟨out', ho'⟩ := h'.terminal
  refine ⟨fun hw => h'.memWf (h.memWf hw), fun hw hs a ha => ?_, fun hs => h'.sp (h.sp hs),
    h'.cyclesPerFrame.trans h.cyclesPerFrame, h'.images.trans h.images, h'.entry.trans h.entry,
    h'.config.trans h.config, h'.cycles.trans h.cycles, ⟨out ++ out', by rw [ho', ho, List.append_assoc]⟩, ?_⟩
  · rw [h'.rom (h.memWf hw) (h.sp hs) a ha, h.rom hw hs a ha]
  · have hg := h'.gpu; rw [h.config] at hg; exact fun g => hg (h.gpu g)

theorem Kept.push16 {s : State} (h : 0x0102 ≤ s.sp.toNat) (w : Addr) : Kept s (push16 s w) := by
  have e : (s.sp - 1).toNat = s.sp.toNat - 1 := addr_sub_one_toNat (by omega)
  exact (Kept.push8 (by omega) _).trans (Kept.push8 (by rw [push8_sp, e]; omega) _)

theorem Kept.pop8 {s : State} (h : s.sp.toNat ≤ 0x01FE) : Kept s (pop8 s).2 := by
  have e : (s.sp + 1).toNat = s.sp.toNat + 1 := addr_add_one_toNat (by omega)
  refine ⟨id, fun _ _ _ _ => rfl, fun hs => ?_, rfl, rfl, rfl, rfl, rfl, ⟨[], by simp⟩, id⟩
  unfold State.spInStack at hs ⊢
  rw [pop8_sp, e]; omega

theorem Kept.pop16 {s : State} (h : s.sp.toNat ≤ 0x01FD) : Kept s (pop16 s).2 := by
  have e : (s.sp + 1).toNat = s.sp.toNat + 1 := addr_add_one_toNat (by omega)
  exact (Kept.pop8 (by omega)).trans (Kept.pop8 (by rw [pop8_sp, e]; omega))

/-- A fault keeps everything but run and the record (R302). -/
theorem Kept.takeFault (s : State) (c : FaultCause) : Kept s (s.takeFault c) :=
  Kept.of_same rfl rfl rfl rfl rfl rfl rfl rfl rfl

/-! ## Ports -/

/-- What a write to a port keeps, the registers and the PC too (R340 to R347). -/
theorem portWrite_kept (s : State) (p v : Byte) :
    Kept s (portWrite s p v) ∧ (portWrite s p v).pc = s.pc ∧ (portWrite s p v).sp = s.sp ∧
      (portWrite s p v).run = s.run ∧ (portWrite s p v).fault = s.fault ∧ (portWrite s p v).queue = s.queue := by
  have gpuOnly : ∀ g : Gpu, (GpuOk s.config s.gpu → GpuOk s.config g) → Kept s { s with gpu := g } := fun g hg =>
    ⟨id, fun _ _ _ _ => rfl, id, rfl, rfl, rfl, rfl, rfl, ⟨[], by simp⟩, hg⟩
  unfold portWrite
  split_ifs
  · exact ⟨⟨id, fun _ _ _ _ => rfl, id, rfl, rfl, rfl, rfl, rfl, ⟨[v], rfl⟩, id⟩, rfl, rfl, rfl, rfl, rfl⟩
  · exact ⟨gpuOnly _ fun h => ⟨h.fbWf, h.fbDepth, h.tiles0Wf, h.tiles1Wf⟩, rfl, rfl, rfl, rfl, rfl⟩
  · exact ⟨gpuOnly _ fun h => ⟨h.fbWf, h.fbDepth, h.tiles0Wf, h.tiles1Wf⟩, rfl, rfl, rfl, rfl, rfl⟩
  · exact ⟨gpuOnly _ fun h => (paints_plot s.config _ _ v).gpuOk h, rfl, rfl, rfl, rfl, rfl⟩
  · split
    · exact ⟨Kept.refl s, rfl, rfl, rfl, rfl, rfl⟩
    · exact ⟨gpuOnly _ fun h => gpuOk_applyEffect h _, rfl, rfl, rfl, rfl, rfl⟩

theorem readSideEffect_kept (s : State) (h : PortHandler) (v : Byte) :
    Kept s (readSideEffect s h v) ∧ (readSideEffect s h v).pc = s.pc ∧ (readSideEffect s h v).sp = s.sp ∧
      (readSideEffect s h v).run = s.run ∧ (readSideEffect s h v).fault = s.fault ∧
      (readSideEffect s h v).queue = s.queue := by
  unfold readSideEffect
  split
  · exact ⟨Kept.refl s, rfl, rfl, rfl, rfl, rfl⟩
  · exact ⟨⟨id, fun _ _ _ _ => rfl, id, rfl, rfl, rfl, rfl, rfl, ⟨[], by simp [State.applyHandler]⟩,
      fun h => gpuOk_applyEffect h _⟩, rfl, rfl, rfl, rfl, rfl⟩

/-- What a read of a port keeps. -/
theorem portRead_kept (s : State) (p : Byte) :
    Kept s (portRead s p).2 ∧ (portRead s p).2.pc = s.pc ∧ (portRead s p).2.sp = s.sp ∧
      (portRead s p).2.run = s.run ∧ (portRead s p).2.fault = s.fault ∧ (portRead s p).2.queue = s.queue := by
  unfold portRead
  split
  · exact ⟨Kept.refl s, rfl, rfl, rfl, rfl, rfl⟩
  · split
    · exact ⟨Kept.refl s, rfl, rfl, rfl, rfl, rfl⟩
    · split
      · exact readSideEffect_kept s _ _
      · obtain ⟨h, r⟩ := readSideEffect_kept { s with inputDraws := s.inputDraws + 1 } ‹_› _
        exact ⟨Kept.trans (t := { s with inputDraws := s.inputDraws + 1 })
          (Kept.of_same rfl rfl rfl rfl rfl rfl rfl rfl rfl) h, r⟩

/-! ## Instructions -/

/-- What a completed instruction does, whatever it is. -/
structure Effect (i : Instr) (s t : State) : Prop where
  kept : Kept s t
  /-- the PC is past the instruction, or at a target that was checked (R22, R190) -/
  pc : t.pc = s.pc + i.length ∨ executable t.pc = true
  /-- only the stack operations move the SP (R24) -/
  sp : t.sp ≠ s.sp → i.opcode ∈ [Opcode.push, .pop, .call, .ret, .reti]
  /-- only HLT changes the run state (R28) -/
  run : t.run = if i = .hlt then .halted else s.run
  fault : t.fault = s.fault
  queue : t.queue = s.queue

/-- The addresses a fault of an instruction may report (R29): an address of the space, or the one after the
instruction. -/
def causeInRange (i : Instr) (s : State) (c : FaultCause) : Prop :=
  ∀ a, c = .memoryBoundsViolation a → a ≤ 0xFFFF ∨ a = s.pc + i.length

theorem causeInRange_addr (i : Instr) (s : State) (a : Addr) :
    causeInRange i s (.memoryBoundsViolation a.toNat) := by
  intro b hb; cases hb; exact .inl (by have := a.isLt; omega)

theorem Effect.writeResult {i : Instr} {s : State} {n : Nat} (hn : i.length = n) (hi : i ≠ .hlt) (r : Reg)
    (v : Byte × Flags) : Effect i s (s.writeResult n r v) :=
  ⟨Kept.of_same rfl rfl rfl rfl rfl rfl rfl rfl rfl, .inl (by rw [hn]; rfl), fun h => absurd rfl h,
    by rw [if_neg hi]; rfl, rfl, rfl⟩

/-- The instructions that end with `advance` and no more than registers and flags written. -/
theorem Effect.advance {i : Instr} {s t : State} {n : Nat} (hn : i.length = n) (hi : i ≠ .hlt)
    (ht : t = { s.advance n with regs := t.regs, flags := t.flags }) : Effect i s t := by
  rw [ht]
  exact ⟨Kept.of_same rfl rfl rfl rfl rfl rfl rfl rfl rfl, .inl (by rw [hn]; rfl), fun h => absurd rfl h,
    by rw [if_neg hi]; rfl, rfl, rfl⟩

/-- The transfers: nothing but the PC moves, to a target that was checked. -/
theorem Effect.jumpTo {i : Instr} {s : State} {a : Addr} (hi : i ≠ .hlt) (ha : executable a.toNat = true) :
    Effect i s (s.jumpTo a) :=
  ⟨Kept.of_same rfl rfl rfl rfl rfl rfl rfl rfl rfl, .inr ha, fun h => absurd rfl h, by rw [if_neg hi]; rfl, rfl, rfl⟩

/-- What an instruction can do: a fault, or its effect. -/
theorem exec_cases {i : Instr} {s t : State} (h : exec i s = .next t) :
    (∃ c, t = s.takeFault c ∧ causeInRange i s c) ∨ Effect i s t := by
  have next : ∀ {u v : State}, (Host.Outcome.next u : Host.Outcome State Fault Refusal) = .next v → u = v := by
    intro u v h; injection h
  have fault : ∀ {c}, causeInRange i s c → (Host.Outcome.next (s.takeFault c) : Host.Outcome State Fault Refusal) = .next t →
      (∃ c, t = s.takeFault c ∧ causeInRange i s c) ∨ Effect i s t := fun {c} hc h => .inl ⟨c, (next h).symm, hc⟩
  have noAddr : ∀ {c : FaultCause}, (∀ a, c ≠ .memoryBoundsViolation a) → causeInRange i s c :=
    fun h a ha => absurd ha (h a)
  have transfer : ∀ {a : Addr}, i ≠ .hlt → ((if executable a.toNat = true then .next (s.jumpTo a)
        else .next (s.takeFault (.memoryBoundsViolation a.toNat)) : Host.Outcome State Fault Refusal) = .next t) →
      (∃ c, t = s.takeFault c ∧ causeInRange i s c) ∨ Effect i s t := by
    intro a hi h
    split at h
    · rename_i ha; rw [← next h]; exact .inr (Effect.jumpTo hi ha)
    · exact fault (causeInRange_addr i s a) h
  cases i
  case store p r =>
    rw [show exec (.store p r) s = execStore p r s from rfl, execStore_eq] at h
    split at h
    · exact fault (causeInRange_addr _ s _) h
    · rename_i hr
      rw [← next h]
      refine .inr ⟨⟨fun hw => Memory.wf_write_addr hw _ _, fun hw _ a ha => ?_, id, rfl, rfl, rfl, rfl, rfl,
        ⟨[], by simp⟩, id⟩, .inl rfl, fun h => absurd rfl h, rfl, rfl, rfl⟩
      exact Memory.read_write_ne hw _ (by omega)
  case push r =>
    rw [show exec (.push r) s = execPush r s from rfl, execPush_eq] at h
    split at h
    · rename_i hs
      rw [← next h]
      refine .inr ⟨(Kept.advance s 2).trans (Kept.push8 (s := s.advance 2) hs _), .inl rfl,
        fun _ => by simp [Instr.opcode], rfl, rfl, rfl⟩
    · exact fault (noAddr (by simp)) h
  case pop r =>
    rw [show exec (.pop r) s = execPop r s from rfl, execPop_eq] at h
    split at h
    · rename_i hs
      rw [← next h]
      exact .inr ⟨((Kept.advance s 2).trans (Kept.pop8 (s := s.advance 2) hs)).trans
        (Kept.setReg _ _ _), .inl rfl, fun _ => by simp [Instr.opcode], rfl, rfl, rfl⟩
    · exact fault (noAddr (by simp)) h
  case divReg r =>
    rw [show exec (.divReg r) s = settle s (divideBy (s.reg r) s) from rfl, settle_divideBy] at h
    split at h
    · exact fault (noAddr (by simp)) h
    · rw [← next h]; exact .inr (Effect.writeResult rfl (by simp) _ _)
  case divImm imm =>
    rw [show exec (.divImm imm) s = settle s (divideBy imm s) from rfl, settle_divideBy] at h
    split at h
    · exact fault (noAddr (by simp)) h
    · rw [← next h]; exact .inr (Effect.writeResult rfl (by simp) _ _)
  case jmp a => exact transfer (by simp) ((execJmp_eq a s).symm.trans h)
  case jz a =>
    rw [show exec (.jz a) s = execJz a s from rfl, execJz_eq] at h
    split at h
    · exact transfer (by simp) h
    · rw [← next h]; exact .inr (Effect.advance rfl (by simp) rfl)
  case jnz a =>
    rw [show exec (.jnz a) s = execJnz a s from rfl, execJnz_eq] at h
    split at h
    · rw [← next h]; exact .inr (Effect.advance rfl (by simp) rfl)
    · exact transfer (by simp) h
  case call a =>
    rw [show exec (.call a) s = execCall a s from rfl, execCall_eq] at h
    split at h
    · rename_i ha
      split at h
      · exact fault (fun b hb => by cases hb; exact .inr rfl) h
      · split at h
        · rename_i hs
          rw [← next h]
          exact .inr ⟨(Kept.push16 hs _).trans (Kept.of_same rfl rfl rfl rfl rfl rfl rfl rfl rfl), .inr ha,
            fun _ => by simp [Instr.opcode], rfl, rfl, rfl⟩
        · exact fault (noAddr (by simp)) h
    · exact fault (causeInRange_addr _ s a) h
  case ret =>
    rw [show exec .ret s = execRet s from rfl, execRet_eq] at h
    split at h
    · rename_i hs
      split at h
      · rename_i ha
        rw [← next h]
        exact .inr ⟨(Kept.pop16 hs).trans (Kept.of_same rfl rfl rfl rfl rfl rfl rfl rfl rfl), .inr ha,
          fun _ => by simp [Instr.opcode], rfl, rfl, rfl⟩
      · exact fault (causeInRange_addr _ s _) h
    · exact fault (noAddr (by simp)) h
  case reti =>
    rw [show exec .reti s = execReti s from rfl, execReti_eq] at h
    split at h
    · rename_i hs
      split at h
      · rename_i ha
        rw [← next h]
        have e : (s.sp + 1).toNat = s.sp.toNat + 1 := addr_add_one_toNat (by omega)
        exact .inr ⟨((Kept.pop8 (by omega)).trans (Kept.pop16 (by rw [pop8_sp, e]; omega))).trans
          (Kept.of_same rfl rfl rfl rfl rfl rfl rfl rfl rfl), .inr ha, fun _ => by simp [Instr.opcode], rfl, rfl, rfl⟩
      · exact fault (causeInRange_addr _ s _) h
    · exact fault (noAddr (by simp)) h
  case hlt =>
    rw [← next h]
    exact .inr ⟨Kept.of_same rfl rfl rfl rfl rfl rfl rfl rfl rfl, .inl rfl, fun h => absurd rfl h, rfl, rfl, rfl⟩
  case outPort p r =>
    obtain ⟨k, h1, h2, h3, h4, h5⟩ := portWrite_kept (s.advance 3) p (s.reg r)
    rw [← next h]
    exact .inr ⟨(Kept.advance s 3).trans k, .inl h1,
      fun h => absurd h2 h, h3, h4, h5⟩
  case inPort r p =>
    obtain ⟨k, h1, h2, h3, h4, h5⟩ := portRead_kept (s.advance 3) p
    rw [← next h]
    exact .inr ⟨((Kept.advance s 3).trans k).trans (Kept.setReg _ _ _), .inl h1, fun h => absurd h2 h, h3, h4, h5⟩
  all_goals
    rw [← next h]
    exact .inr (Effect.advance rfl (by simp) rfl)

/-- Every instruction, in every state, answers a next state. -/
theorem exec_next (i : Instr) (s : State) : ∃ t, exec i s = .next t := by
  cases i <;> first | exact ⟨_, rfl⟩ | exact settle_next s _

/-! ## Fetching -/

/-- A fetched instruction lies inside the address space. -/
theorem fetchInstr_range {s : State} {i : Instr} (h : fetchInstr s = .ok i) :
    executable s.pc = true ∧ s.pc + i.length ≤ 0x10000 := by
  simp only [fetchInstr, fetch8, bind, Except.bind] at h
  by_cases h0 : executable s.pc = true
  · refine ⟨h0, ?_⟩
    rw [if_pos h0] at h
    dsimp only at h
    split at h
    · cases h
    · rename_i o ho
      split at h
      · cases h
      · rename_i b1 hb1
        split at h
        · cases h
        · rename_i b2 hb2
          split at h
          · rename_i j hj
            injection h with h; subst h
            have hi := (operands_of_decode hj).1
            have hle := o.operandBytes_le
            have h1 : 1 ≤ o.operandBytes → executable (s.pc + 1) = true := by
              intro hk; by_contra hn; rw [fetchOperand_error hk hn] at hb1; cases hb1
            have h2 : 2 ≤ o.operandBytes → executable (s.pc + 2) = true := by
              intro hk; by_contra hn; rw [fetchOperand_error hk hn] at hb2; cases hb2
            have e0 := executable_le h0
            unfold Instr.length Opcode.length
            rw [hi]
            by_cases c2 : 2 ≤ o.operandBytes
            · have := executable_le (h2 c2); omega
            · by_cases c1 : 1 ≤ o.operandBytes
              · have := executable_le (h1 c1); omega
              · omega
          · cases h
  · rw [if_neg h0] at h; cases h

/-- A fetch's fault reports an address up to 0x10000 (R29, R66). -/
theorem fetchInstr_error_range {s : State} {c : FaultCause} (hp : s.pc ≤ 0x10000) (h : fetchInstr s = .error c) :
    ∀ a, c = .memoryBoundsViolation a → a ≤ 0x10000 := by
  intro a ha
  subst ha
  simp only [fetchInstr, fetch8, bind, Except.bind] at h
  by_cases h0 : executable s.pc = true
  · have e0 := executable_le h0
    rw [if_pos h0] at h
    dsimp only at h
    split at h
    · cases h
    · rename_i o ho
      have hle := o.operandBytes_le
      split at h
      · rename_i hb1
        unfold fetchOperand fetch8 at hb1
        split_ifs at hb1
        injection hb1 with hb1; subst hb1; cases h; omega
      · rename_i b1 hb1
        split at h
        · rename_i hb2
          unfold fetchOperand fetch8 at hb1 hb2
          split_ifs at hb2 with hk hx
          · injection hb2 with hb2; subst hb2; cases h
            rw [if_pos (by omega)] at hb1
            split_ifs at hb1 with hx1
            have := executable_le hx1; omega
        · split at h <;> cases h
  · rw [if_neg h0] at h; cases h; exact hp

/-! ## Dispatch -/

/-- What a dispatch can do (R313, R314): a fault, or the handler entered. -/
theorem dispatch_cases {v : Addr} {rest : List Addr} {s t : State} (h : settle s (enterInterrupt v rest s) = .next t) :
    (∃ c, t = s.takeFault c ∧ ∀ a, c = .memoryBoundsViolation a → a ≤ 0xFFFF ∨ a = s.pc) ∨
    (executable v.toNat = true ∧ s.pc ≤ 0xFFFF ∧ 0x0103 ≤ s.sp.toNat ∧ Kept s t ∧ t.pc = v.toNat ∧ t.run = s.run ∧
      t.fault = s.fault ∧ t.queue = rest) := by
  rw [enterInterrupt_eq] at h
  have hv := v.isLt
  split at h
  · rename_i hx
    split at h
    · injection h with h
      exact .inl ⟨_, h.symm, fun a ha => by cases ha; exact .inr rfl⟩
    · split at h
      · rename_i hp hs
        injection h with h
        have e : (push16 s (BitVec.ofNat 16 s.pc)).sp.toNat = s.sp.toNat - 2 := push16_sp_toNat (by omega) _
        refine .inr ⟨hx, by omega, hs, ?_, ?_⟩
        · rw [← h]
          exact ((Kept.push16 (by omega) _).trans (Kept.push8 (by rw [e]; omega) _)).trans
            (Kept.of_same rfl rfl rfl rfl rfl rfl rfl rfl rfl)
        · rw [← h]; exact ⟨rfl, rfl, rfl, rfl⟩
      · injection h with h
        exact .inl ⟨_, h.symm, fun a ha => by cases ha⟩
  · injection h with h
    exact .inl ⟨_, h.symm, fun a ha => by cases ha; exact .inl (by omega)⟩

/-- Every step answers a next state. -/
theorem step_next (s : State) : ∃ t, step s = .next t := by
  by_cases hr : s.run = .running
  · cases hq : s.queue with
    | cons v rest => rw [step_dispatch hr hq]; exact settle_next _ _
    | nil =>
      rw [step_fetch hr hq]
      cases fetchInstr s with
      | error c => exact ⟨_, rfl⟩
      | ok i => exact exec_next i _
  · exact ⟨s, step_not_running hr⟩

/-- A step is what `hostStep` gives. -/
theorem step_eq_hostStep (s : State) : step s = .next (hostStep s) := by
  obtain ⟨t, ht⟩ := step_next s
  rw [hostStep_of_step ht]; exact ht

end Sys2Proof.Machine
end

