-- ==== Sys2Proof/Laws/Driver.lean ====
section
/-!
SUPPORT. What the host's operations do: a step as `hostStep`, runs, the render, loads and resets.
-/

namespace Sys2Proof.Machine

/-- A step keeps what `Kept` says, its cycle apart. -/
theorem hostStep_kept (s : State) : Kept { s with cycles := (hostStep s).cycles } (hostStep s) := by
  have h := step_eq_hostStep s
  generalize hostStep s = t at h
  have lift : Kept s.tick t → Kept { s with cycles := t.cycles } t := by
    intro k; rw [k.cycles]; exact k
  rcases step_cases h with ⟨_, rfl⟩ | ⟨_, v, rest, _, hd⟩ | ⟨_, _, c, _, rfl⟩ | ⟨_, _, i, _, he⟩
  · exact Kept.refl _
  · rcases dispatch_cases hd with ⟨c, rfl, _⟩ | ⟨_, _, _, h, _⟩
    · exact lift (Kept.takeFault _ _)
    · exact lift h
  · exact lift (Kept.takeFault _ _)
  · rcases exec_cases he with ⟨c, rfl, _⟩ | e
    · exact lift (Kept.takeFault _ _)
    · exact lift e.kept

/-- A step of a Running core counts one cycle (R423). -/
theorem hostStep_cycles {s : State} (hr : s.run = .running) : (hostStep s).cycles = s.cycles + 1 := by
  have h := step_eq_hostStep s
  generalize hostStep s = t at h
  rcases step_cases h with ⟨hn, _⟩ | ⟨_, v, rest, _, hd⟩ | ⟨_, _, c, _, rfl⟩ | ⟨_, _, i, _, he⟩
  · exact absurd hr hn
  · rcases dispatch_cases hd with ⟨c, rfl, _⟩ | ⟨_, _, _, h, _⟩
    · rfl
    · exact h.cycles
  · rfl
  · rcases exec_cases he with ⟨c, rfl, _⟩ | e
    · rfl
    · exact e.kept.cycles

/-- A run takes one step and goes on, while the core is Running (R422). -/
theorem runCycles_succ {s : State} (hr : s.run = .running) (n : Nat) :
    runCycles (n + 1) s = ((runCycles n (hostStep s)).1 + 1, (runCycles n (hostStep s)).2) := by
  simp [runCycles, hr]

/-- A run of a core that is not Running takes no step (R422). -/
theorem runCycles_stopped {s : State} (hr : s.run ≠ .running) (n : Nat) : runCycles n s = (0, s) := by
  cases n with
  | zero => rfl
  | succ n =>
    unfold runCycles
    cases h : s.run <;> first | exact absurd h hr | rfl

/-- A property every step keeps holds after a run. -/
theorem runCycles_keeps {P : State → Prop} (h : ∀ s, P s → P (hostStep s)) :
    ∀ n s, P s → P (runCycles n s).2 := by
  intro n
  induction n with
  | zero => intro s hs; exact hs
  | succ n ih =>
    intro s hs
    unfold runCycles
    split
    · exact ih _ (h s hs)
    · exact hs
    · exact hs

/-- What a render does, the queue holding at most the VBlank vector (R354, R359). -/
theorem render_eq {s : State} (h : s.queue = [] ∨ s.queue = [s.config.vblankVector]) :
    render s = { s with gpu := composite s.config s.mem s.gpu, queue := [s.config.vblankVector] } := by
  unfold render State.enqueue
  rcases h with h | h <;> simp [h]

theorem render_gpu (s : State) : (render s).gpu = composite s.config s.mem s.gpu := by
  unfold render State.enqueue; split <;> rfl

/-- The memory a reset leaves is canonical when every image fits (R400, R420). -/
theorem reloadedMemory_wf {images : List (Addr × List Byte)}
    (hi : ∀ image ∈ images, image.1.toNat + image.2.length ≤ 0x10000) :
    Memory.wf (reloadedMemory images) = true := by
  have key : ∀ (images : List (Addr × List Byte)) (m : List Host.Cell), Memory.wf m = true →
      (∀ image ∈ images, image.1.toNat + image.2.length ≤ 0x10000) →
      Memory.wf (images.foldl (fun m image => Memory.writeBytes m image.1.toNat image.2) m) = true := by
    intro images
    induction images with
    | nil => intro m hm _; exact hm
    | cons i rest ih =>
      intro m hm hi
      exact ih _ (Memory.wf_writeBytes hm (hi i (List.mem_cons_self ..))) fun j hj => hi j (List.mem_cons_of_mem _ hj)
  exact key images [] rfl hi

/-- One image more: it is written over what the others leave (R400). -/
theorem reloadedMemory_append (front : List (Addr × List Byte)) (a : Addr) (bytes : List Byte) :
    reloadedMemory (front ++ [(a, bytes)]) = Memory.writeBytes (reloadedMemory front) a.toNat bytes := by
  unfold reloadedMemory; rw [List.foldl_append]; rfl

/-- What a dispatch leaves when none of its checks fails (R313). -/
theorem step_dispatch_ok {s : State} {v : Addr} {rest : List Addr} (hr : s.run = .running) (hq : s.queue = v :: rest)
    (hx : executable v.toNat = true) (hp : s.pc ≤ 0xFFFF) (hs : 0x0103 ≤ s.sp.toNat) :
    step s = .next
      { (push8 (push16 s.tick (BitVec.ofNat 16 s.pc)) s.flags.toByte).jumpTo v with queue := rest } := by
  rw [step_dispatch hr hq, enterInterrupt_eq, if_pos hx, if_neg (show ¬ 0xFFFF < s.tick.pc from Nat.not_lt.2 hp),
    if_pos (show 0x0103 ≤ s.tick.sp.toNat from hs)]
  rfl

end Sys2Proof.Machine
end

