-- ==== Sys2Proof/Laws/Counter.lean ====
section
/-!
SUPPORT. Nothing reads the cycle counter (spec/10_state.md R31, 60_exceptions.md R326, R363): an instruction, a dispatch
and a step do the same whatever the counter holds.
-/

namespace Sys2Proof.Machine

/-- An outcome with the counter of its next state at m. -/
def atCycle (m : Nat) : Host.Outcome State Fault Refusal → Host.Outcome State Fault Refusal
  | .next t => .next { t with cycles := m }
  | .fault f => .fault f
  | .refused r => .refused r

@[simp] theorem atCycle_next (m : Nat) (t : State) : atCycle m (.next t) = .next { t with cycles := m } := rfl

/-- A handler's read value is not shown the counter. -/
@[simp] theorem portView_cycles (s : State) (m : Nat) : ({ s with cycles := m } : State).portView = s.portView := rfl

/-- Nor how many inputs were drawn. -/
@[simp] theorem portView_inputDraws (s : State) (n : Nat) :
    ({ s with inputDraws := n } : State).portView = s.portView := rfl

/-- Nor the PC (R21). -/
@[simp] theorem portView_pc (s : State) (n : Nat) : ({ s with pc := n } : State).portView = s.portView := rfl

/-- Nor the SP (R21). -/
@[simp] theorem portView_sp (s : State) (a : Addr) : ({ s with sp := a } : State).portView = s.portView := rfl

/-- Nor the flags (R21, R27). -/
@[simp] theorem portView_flags (s : State) (f : Flags) : ({ s with flags := f } : State).portView = s.portView := rfl

/-- Nor the frame cadence (R42). -/
@[simp] theorem portView_cyclesPerFrame (s : State) (n : Nat) :
    ({ s with cyclesPerFrame := n } : State).portView = s.portView := rfl

theorem portWrite_cycles (s : State) (m : Nat) (p v : Byte) :
    portWrite { s with cycles := m } p v = { portWrite s p v with cycles := m } := by
  unfold portWrite
  split_ifs <;> try rfl
  cases handlerOf s.config.ports p <;> rfl

theorem readSideEffect_cycles (s : State) (m : Nat) (h : PortHandler) (v : Byte) :
    readSideEffect { s with cycles := m } h v = { readSideEffect s h v with cycles := m } := by
  unfold readSideEffect
  cases h.readEffect <;> rfl

theorem portRead_cycles (s : State) (m : Nat) (p : Byte) :
    portRead { s with cycles := m } p = ((portRead s p).1, { (portRead s p).2 with cycles := m }) := by
  unfold portRead
  split_ifs
  · rfl
  · cases handlerOf s.config.ports p with
    | none => rfl
    | some h =>
      dsimp only
      cases h.read with
      | blockFunction id => exact Prod.ext rfl (readSideEffect_cycles s m h _)
      | externalInput => exact Prod.ext rfl (readSideEffect_cycles { s with inputDraws := s.inputDraws + 1 } m h _)

/-- An instruction does the same whatever the counter holds. -/
theorem exec_cycles (i : Instr) (s : State) (m : Nat) : exec i { s with cycles := m } = atCycle m (exec i s) := by
  cases i
  case store p r =>
    change execStore p r _ = atCycle m (execStore p r s)
    simp only [execStore_eq]; split_ifs <;> rfl
  case push r =>
    change execPush r _ = atCycle m (execPush r s)
    simp only [execPush_eq]; split_ifs <;> rfl
  case pop r =>
    change execPop r _ = atCycle m (execPop r s)
    simp only [execPop_eq]; split_ifs <;> rfl
  case divReg r =>
    change settle _ (divideBy (s.reg r) _) = atCycle m (settle s (divideBy (s.reg r) s))
    simp only [settle_divideBy]; split_ifs <;> rfl
  case divImm v =>
    change settle _ (divideBy v _) = atCycle m (settle s (divideBy v s))
    simp only [settle_divideBy]; split_ifs <;> rfl
  case jmp t =>
    change execJmp t _ = atCycle m (execJmp t s)
    simp only [execJmp_eq]; split_ifs <;> rfl
  case jz t =>
    change execJz t _ = atCycle m (execJz t s)
    simp only [execJz_eq]; split_ifs <;> rfl
  case jnz t =>
    change execJnz t _ = atCycle m (execJnz t s)
    simp only [execJnz_eq]; split_ifs <;> rfl
  case call t =>
    change execCall t _ = atCycle m (execCall t s)
    simp only [execCall_eq]; split_ifs <;> rfl
  case ret =>
    have e : (pop16 { s with cycles := m }).1 = (pop16 s).1 := rfl
    change execRet _ = atCycle m (execRet s)
    simp only [execRet_eq, e]; split_ifs <;> rfl
  case reti =>
    have e : (pop16 (pop8 { s with cycles := m }).2).1 = (pop16 (pop8 s).2).1 := rfl
    change execReti _ = atCycle m (execReti s)
    simp only [execReti_eq, e]; split_ifs <;> rfl
  case outPort p r =>
    exact congrArg Host.Outcome.next (portWrite_cycles (s.advance 3) m p (s.reg r))
  case inPort r p =>
    exact congrArg (fun q : Byte × State => Host.Outcome.next (q.2.setReg r q.1)) (portRead_cycles (s.advance 3) m p)
  all_goals rfl

/-- So does a dispatch (R313). -/
theorem enterInterrupt_cycles (v : Addr) (rest : List Addr) (s : State) (m : Nat) :
    settle { s with cycles := m } (enterInterrupt v rest { s with cycles := m }) =
      atCycle m (settle s (enterInterrupt v rest s)) := by
  simp only [enterInterrupt_eq]; split_ifs <;> rfl

/-- Neither does the fetch read it. -/
theorem fetchInstr_cycles (s : State) (m : Nat) : fetchInstr { s with cycles := m } = fetchInstr s := rfl

theorem stepRunning_cycles (s : State) (m : Nat) :
    stepRunning { s with cycles := m } = atCycle m (stepRunning s) := by
  obtain hq | ⟨v, rest, hq⟩ : s.queue = [] ∨ ∃ v rest, s.queue = v :: rest := by cases s.queue <;> simp
  · rw [stepRunning_fetch hq, stepRunning_fetch (s := { s with cycles := m }) hq, fetchInstr_cycles]
    cases fetchInstr s with
    | error c => rfl
    | ok i => exact exec_cycles i s m
  · rw [stepRunning_dispatch hq, stepRunning_dispatch (s := { s with cycles := m }) hq]
    exact enterInterrupt_cycles v rest s m

/-- A step of a Running core does the same whatever the counter holds, and counts one. -/
theorem hostStep_cycles_any (s : State) (hr : s.run = .running) (m : Nat) :
    hostStep { s with cycles := m } = { hostStep s with cycles := m + 1 } := by
  have h : step { s with cycles := m } = atCycle (m + 1) (step s) := by
    rw [step_running hr, step_running (s := { s with cycles := m }) hr]
    exact stepRunning_cycles s.tick (m + 1)
  rw [step_eq_hostStep s] at h
  exact hostStep_of_step h

/-- A run takes the same steps whatever the counter holds, and counts them (R422, R423). -/
theorem runCycles_cycles (n : Nat) (s : State) (m : Nat) :
    runCycles n { s with cycles := m } =
      ((runCycles n s).1, { (runCycles n s).2 with cycles := m + (runCycles n s).1 }) := by
  induction n generalizing s m with
  | zero => rfl
  | succ n ih =>
    by_cases hr : s.run = .running
    · rw [runCycles_succ hr, runCycles_succ (s := { s with cycles := m }) hr, hostStep_cycles_any s hr m,
        ih (hostStep s) (m + 1), Nat.add_assoc, Nat.add_comm 1]
    · rw [runCycles_stopped hr, runCycles_stopped (s := { s with cycles := m }) hr]; rfl

end Sys2Proof.Machine
end

