-- ==== Sys2Proof/Laws/Flags.lean ====
section
/-!
SUPPORT. What each flag computation gives, over the numbers: one lemma per computation.
-/

namespace Sys2Proof.Machine

/-- Bit 7 of a byte: the byte is 128 or more. -/
theorem bit7_eq (b : Byte) : b.getLsbD 7 = decide (128 ≤ b.toNat) := by revert b; decide

theorem bit0_eq (b : Byte) : b.getLsbD 0 = decide (b.toNat % 2 = 1) := by revert b; decide

theorem zeroFlag_iff (b : Byte) : zeroFlag b = true ↔ b.toNat = 0 := by
  rw [zeroFlag, decide_eq_true_eq]
  exact ⟨fun h => by rw [h]; rfl, fun h => BitVec.eq_of_toNat_eq h⟩

theorem negFlag_iff (b : Byte) : negFlag b = true ↔ 128 ≤ b.toNat := by
  rw [negFlag, bit7_eq, decide_eq_true_eq]

/-- The signed reading of a byte (R7). -/
theorem byte_toInt (b : Byte) : b.toInt = if 128 ≤ b.toNat then (b.toNat : Int) - 256 else b.toNat := by
  rw [BitVec.toInt_eq_toNat_cond]
  split <;> split <;> omega

/-- AddFlags gives the sum and its flags (R141). -/
theorem addFlags_isSum (a b : Byte) : IsSum a b (addFlags a b).1 (addFlags a b).2 := by
  have ha := a.isLt
  have hb := b.isLt
  refine ⟨by simp [addFlags], zeroFlag_iff _, by simp [addFlags], negFlag_iff _, ?_⟩
  simp only [addFlags, bit7_eq, BitVec.toNat_ofNat, byte_toInt, Bool.and_eq_true, decide_eq_true_eq, ne_eq,
    decide_eq_decide]
  split <;> split <;> omega

/-- SubFlags gives the difference and its flags (R141). -/
theorem subFlags_isDifference (a b : Byte) : IsDifference a b (subFlags a b).1 (subFlags a b).2 := by
  have ha := a.isLt
  have hb := b.isLt
  refine ⟨by simp [subFlags], ?_, by simp [subFlags], negFlag_iff _, ?_⟩
  · rw [show (subFlags a b).2.z = zeroFlag (subFlags a b).1 from rfl, zeroFlag_iff]
    simp only [subFlags, BitVec.toNat_ofNat]
    exact ⟨fun h => BitVec.eq_of_toNat_eq (by omega), fun h => by subst h; omega⟩
  · simp only [subFlags, bit7_eq, BitVec.toNat_ofNat, byte_toInt, Bool.and_eq_true, decide_eq_true_eq, ne_eq,
      decide_eq_decide]
    split <;> split <;> omega

/-- MUL's result and flags (R146). -/
theorem mulFlags_isProduct (f : Flags) (a b : Byte) : IsProduct a b (mulFlags f a b).1 f (mulFlags f a b).2 :=
  ⟨by simp [mulFlags], zeroFlag_iff _, by simp [mulFlags], negFlag_iff _, rfl⟩

/-- DIV's result and flags, by a divisor that is not 0 (R148). -/
theorem divFlags_isQuotient (f : Flags) (a b : Byte) : IsQuotient a b (divFlags f a b).1 f (divFlags f a b).2 := by
  have h : a.toNat / b.toNat < 256 := lt_of_le_of_lt (Nat.div_le_self ..) a.isLt
  exact ⟨by simp [divFlags, Nat.mod_eq_of_lt h], zeroFlag_iff _, rfl, negFlag_iff _, rfl⟩

/-- LogicFlags writes Z and N from the result and keeps C and V (R170). -/
theorem logicFlags_zeroNegOnly (f : Flags) (res : Byte) : ZeroNegOnly f (logicFlags f res) res :=
  ⟨zeroFlag_iff _, negFlag_iff _, rfl, rfl⟩

theorem incFlags_toNat (f : Flags) (a : Byte) : (incFlags f a).1.toNat = (a.toNat + 1) % 256 := by
  simp [incFlags]

theorem incFlags_zeroNegOnly (f : Flags) (a : Byte) : ZeroNegOnly f (incFlags f a).2 (incFlags f a).1 :=
  ⟨zeroFlag_iff _, negFlag_iff _, rfl, rfl⟩

theorem decFlags_toNat (f : Flags) (a : Byte) : (decFlags f a).1.toNat = (a.toNat + 255) % 256 := by
  simp [decFlags]

theorem decFlags_zeroNegOnly (f : Flags) (a : Byte) : ZeroNegOnly f (decFlags f a).2 (decFlags f a).1 :=
  ⟨zeroFlag_iff _, negFlag_iff _, rfl, rfl⟩

theorem shlFlags_toNat (f : Flags) (a : Byte) : (shlFlags f a).1.toNat = 2 * a.toNat % 256 := by
  simp only [shlFlags, BitVec.toNat_shiftLeft, Nat.shiftLeft_eq]
  omega

theorem shrFlags_toNat (f : Flags) (a : Byte) : (shrFlags f a).1.toNat = a.toNat / 2 := by
  simp only [shrFlags, BitVec.toNat_ushiftRight, Nat.shiftRight_eq_div_pow, Nat.pow_one]

/-- The flags byte as a number (R26). -/
theorem flags_toByte_toNat (f : Flags) : f.toByte.toNat = f.number := by
  obtain ⟨z, c, n, v⟩ := f
  cases z <;> cases c <;> cases n <;> cases v <;> rfl

@[simp] theorem flags_ofByte_toByte (f : Flags) : Flags.ofByte f.toByte = f := by
  obtain ⟨z, c, n, v⟩ := f
  cases z <;> cases c <;> cases n <;> cases v <;> rfl

/-- A byte loaded into F keeps its bits 3:0 (R26, R196). -/
theorem flags_ofByte_number (b : Byte) : (Flags.ofByte b).number = b.toNat % 16 := by revert b; decide

end Sys2Proof.Machine
end

