-- ==== Sys2Proof/Laws/Frames.lean ====
section
/-!
SUPPORT. Encodings by format, the frames of the instructions by shape, and what the stack holds after a push and before a
pop.
-/

namespace Sys2Proof

/-! ## Encodings by format (R91) -/

/-- Format FRR. -/
theorem encodedAs_rr {i : Instr} {op : Byte} {r s : Reg} (h : defaultOpcodeMap.byteOf i.opcode = some op)
    (ho : i.operands = [rrByte r.code s.code]) : EncodedAs i [op, rrNumber r.number s.number] := by
  have := encodedAs_default h; rwa [ho, rrByte_regs] at this

/-- Format FR. -/
theorem encodedAs_r {i : Instr} {op : Byte} {r : Reg} (h : defaultOpcodeMap.byteOf i.opcode = some op)
    (ho : i.operands = [rByte r]) : EncodedAs i [op, rNumber r] := by
  have := encodedAs_default h; rwa [ho, rByte_eq_number] at this

/-- Formats FRI and FRP. -/
theorem encodedAs_rb {i : Instr} {op b : Byte} {r : Reg} (h : defaultOpcodeMap.byteOf i.opcode = some op)
    (ho : i.operands = [rByte r, b]) : EncodedAs i [op, rNumber r, b] := by
  have := encodedAs_default h; rwa [ho, rByte_eq_number] at this

/-- Format FPR. -/
theorem encodedAs_br {i : Instr} {op b : Byte} {r : Reg} (h : defaultOpcodeMap.byteOf i.opcode = some op)
    (ho : i.operands = [b, rByte r]) : EncodedAs i [op, b, rNumber r] := by
  have := encodedAs_default h; rwa [ho, rByte_eq_number] at this

/-- The bytes of an address operand, as numbers. -/
theorem addressBytes_eq (a : Addr) : addressBytes a = [loByte a, hiByte a] := by
  have h1 : loByte a = BitVec.ofNat 8 (a.toNat % 256) := by
    apply BitVec.eq_of_toNat_eq; rw [Machine.loByte_toNat]; simp
  have h2 : hiByte a = BitVec.ofNat 8 (a.toNat / 256) := by
    apply BitVec.eq_of_toNat_eq; rw [Machine.hiByte_toNat]; have := a.isLt; simp; omega
  rw [h1, h2]; rfl

/-- Format FA. -/
theorem encodedAs_a {i : Instr} {op : Byte} {a : Addr} (h : defaultOpcodeMap.byteOf i.opcode = some op)
    (ho : i.operands = [loByte a, hiByte a]) : EncodedAs i (op :: addressBytes a) := by
  have := encodedAs_default h; rwa [ho, ← addressBytes_eq] at this

end Sys2Proof

namespace Sys2Proof.Machine

/-! ## Frames by shape -/

theorem sameOutside_refl (s : State) : SameOutside s s := ⟨rfl, rfl, ⟨rfl, rfl, rfl, rfl, rfl, rfl⟩, rfl, rfl, rfl⟩

theorem onlyRegs_setReg (s : State) (n : Nat) (r : Reg) (v : Byte) : OnlyRegs [r] s ((s.advance n).setReg r v) :=
  ⟨fun _ hq => State.setReg_reg_ne _ v (by simpa using hq), rfl, fun _ => rfl, sameOutside_refl s⟩

theorem onlyRegs_writeResult (s : State) (n : Nat) (r : Reg) (v : Byte × Flags) :
    OnlyRegs [r] s (s.writeResult n r v) :=
  ⟨fun _ hq => State.setReg_reg_ne _ v.1 (by simpa using hq), rfl, fun _ => rfl, sameOutside_refl s⟩

@[simp] theorem writeResult_reg (s : State) (n : Nat) (r : Reg) (v : Byte × Flags) :
    (s.writeResult n r v).reg r = v.1 := State.setReg_reg_same _ r _

@[simp] theorem writeResult_flags (s : State) (n : Nat) (r : Reg) (v : Byte × Flags) :
    (s.writeResult n r v).flags = v.2 := rfl

@[simp] theorem writeLogic_reg (s : State) (n : Nat) (r : Reg) (res : Byte) : (s.writeLogic n r res).reg r = res :=
  State.setReg_reg_same _ r _

/-- A logic instruction's result, flags and frame (R170). -/
theorem writeLogic_spec (s : State) (n : Nat) (r : Reg) (res : Byte) :
    ZeroNegOnly s.flags (s.writeLogic n r res).flags ((s.writeLogic n r res).reg r) ∧
      OnlyRegs [r] s (s.writeLogic n r res) ∧ (s.writeLogic n r res).pc = s.pc + n :=
  ⟨by rw [writeLogic_reg]; exact logicFlags_zeroNegOnly _ _, onlyRegs_writeResult s n r _, rfl⟩

/-- The pair a base names, as a number (R95). -/
theorem pairAddress_toNat (s : State) (p : Base) : (pairAddress s.regs p).toNat = pairNumber s p := by
  cases p <;> exact addrOfBytes_toNat _ _

/-! ## The stack as the statements say it -/

theorem addr_sub_two_toNat {a : Addr} (h : 2 ≤ a.toNat) : (a - 1 - 1).toNat = a.toNat - 2 := by
  have h1 : (a - 1).toNat = a.toNat - 1 := addr_sub_one_toNat (by omega)
  rw [addr_sub_one_toNat (by omega), h1]; omega

theorem addr_sub_three_toNat {a : Addr} (h : 3 ≤ a.toNat) : (a - 1 - 1 - 1).toNat = a.toNat - 3 := by
  have h2 : (a - 1 - 1).toNat = a.toNat - 2 := addr_sub_two_toNat (by omega)
  rw [addr_sub_one_toNat (by omega), h2]; omega

/-- After Push16: the high byte at sp - 1, the low byte at sp - 2, and no other byte changed (R125). -/
theorem push16_frame {s : State} (hw : Memory.wf s.mem = true) (hs : 2 ≤ s.sp.toNat) (w : Addr) :
    Memory.read (push16 s w).mem (s.sp - 1).toNat = hiByte w ∧
    Memory.read (push16 s w).mem (s.sp - 1 - 1).toNat = loByte w ∧
    SameMemoryBut (s.sp - 1 - 1).toNat 2 s (push16 s w) := by
  have h1 : (s.sp - 1).toNat = s.sp.toNat - 1 := addr_sub_one_toNat (by omega)
  rw [SameMemoryBut, h1, addr_sub_two_toNat hs]
  refine ⟨?_, ?_, fun a ha => ?_⟩
  · rw [push16_read hw hs, if_neg (by omega), if_pos rfl]
  · rw [push16_read hw hs, if_pos rfl]
  · rw [push16_read hw hs, if_neg (by omega), if_neg (by omega)]

/-- After the three bytes of a dispatch: the PC's high byte, its low byte, then F, and no other byte changed (R313). -/
theorem pushFrame_frame {s : State} (hw : Memory.wf s.mem = true) (hs : 3 ≤ s.sp.toNat) (w : Addr) (f : Byte) :
    Memory.read (push8 (push16 s w) f).mem (s.sp - 1).toNat = hiByte w ∧
    Memory.read (push8 (push16 s w) f).mem (s.sp - 1 - 1).toNat = loByte w ∧
    Memory.read (push8 (push16 s w) f).mem (s.sp - 1 - 1 - 1).toNat = f ∧
    SameMemoryBut (s.sp - 1 - 1 - 1).toNat 3 s (push8 (push16 s w) f) := by
  have h1 : (s.sp - 1).toNat = s.sp.toNat - 1 := addr_sub_one_toNat (by omega)
  have rd : ∀ a, Memory.read (push8 (push16 s w) f).mem a =
      if a = s.sp.toNat - 3 then f else if a = s.sp.toNat - 2 then loByte w
      else if a = s.sp.toNat - 1 then hiByte w else Memory.read s.mem a := by
    intro a
    rw [push8_read (push16_memWf hw _) (by rw [push16_sp_toNat (by omega)]; omega), push16_read hw (by omega),
      push16_sp_toNat (by omega), show s.sp.toNat - 2 - 1 = s.sp.toNat - 3 by omega]
  rw [SameMemoryBut, h1, addr_sub_two_toNat (by omega), addr_sub_three_toNat hs]
  refine ⟨?_, ?_, ?_, fun a ha => ?_⟩
  · rw [rd, if_neg (by omega), if_neg (by omega), if_pos rfl]
  · rw [rd, if_neg (by omega), if_pos rfl]
  · rw [rd, if_pos rfl]
  · rw [rd, if_neg (by omega), if_neg (by omega), if_neg (by omega)]

/-- What Pop16 gives is the word at the SP (R125). -/
theorem pop16_word {s : State} (hs : s.sp.toNat ≤ 0x01FD) : (pop16 s).1.toNat = wordAt s s.sp.toNat := by
  rw [pop16_value, addrOfBytes_toNat, addr_add_one_toNat (by omega)]; rfl

/-- What RETI takes as its target is the word above the flags byte (R196). -/
theorem pop8_pop16_word {s : State} (hs : s.sp.toNat ≤ 0x01FC) :
    (pop16 (pop8 s).2).1.toNat = wordAt s (s.sp.toNat + 1) := by
  have h1 : (s.sp + 1).toNat = s.sp.toNat + 1 := addr_add_one_toNat (by omega)
  rw [pop16_word (by rw [pop8_sp, h1]; omega), pop8_sp, h1]; rfl

end Sys2Proof.Machine
end

