-- ==== Sys2Proof/Tests/Slice0.lean ====
section
/-!
SUPPORT. Tests. Every expected value is the spec's own: the vectors of spec/95_test_vectors.md (their ids stand in the
docstrings), the examples and corner cases of the instruction rules, or words written out from the encodings of
spec/30_encoding.md. The theorems named witness_… each show a concrete state and operands that meet the hypotheses of an
obligation, clause by clause.
-/

namespace Sys2Proof.Tests

open Sys2Proof Sys2Proof.Machine

/-- The reset state with registers A and B set. -/
def ab (a b : Byte) : State := { State.reset with regs := { Regs.reset with a := a, b := b } }

/-- Flags set from a number, as the vectors write F. -/
def withF (f : Byte) (s : State) : State := s.setFlags (Flags.ofByte f)

/-- One byte of memory set. -/
def withByte (a : Nat) (v : Byte) (s : State) : State := { s with mem := Memory.write s.mem a v }

/-- The state after one step from s with an instruction's bytes placed at its PC. -/
def after (code : List Byte) (s : State) : State := hostStep (s.placeInstr code)

/-- A, F and the PC. -/
def afp (s : State) : Byte × Nat × Nat := (s.reg .a, s.flags.number, s.pc)

/-- The run state and the fault record. -/
def fault (s : State) : RunState × Option (FaultCause × Nat) := (s.run, s.fault.map fun r => (r.cause, r.addr))

/-! ## WellFormed: an ill-formed term for each check -/

theorem test_wf_default_config : defaultConfig.wf = true := by decide

theorem test_wf_opcode_map_refuses_a_byte_twice : OpcodeMap.wf [(0x01, .movReg), (0x01, .hlt)] = false := by decide

theorem test_wf_instr_refuses_an_unmapped_opcode : Instr.wf [(0x36, .hlt)] (.movReg .a .b) = false := by decide

theorem test_wf_instr_takes_a_mapped_opcode : Instr.wf [(0x99, .movReg)] (.movReg .a .b) = true := by decide

/-- A handler of PORT_CONFIG, for the tests. -/
def someHandler : PortHandler := { write := 0, read := .externalInput, readEffect := none }

theorem test_wf_ports_refuse_the_fixed_ports :
    portsWf [(0x01, someHandler)] = false ∧ portsWf [(0x80, someHandler)] = false ∧
    portsWf [(0x81, someHandler)] = false ∧ portsWf [(0x82, someHandler)] = false := by decide

theorem test_wf_ports_refuse_two_handlers : portsWf [(0x10, someHandler), (0x10, someHandler)] = false := by decide

theorem test_wf_ports_take_others : portsWf [(0x10, someHandler), (0x11, someHandler)] = true := by decide

theorem test_wf_tile_format_refuses_zero :
    TileFormat.wf { tw := 0, th := 8, gw := 40, gh := 25, graphics := .vram } = false ∧
    TileFormat.wf { tw := 8, th := 0, gw := 40, gh := 25, graphics := .vram } = false ∧
    TileFormat.wf { tw := 8, th := 8, gw := 0, gh := 25, graphics := .vram } = false ∧
    TileFormat.wf { tw := 8, th := 8, gw := 40, gh := 0, graphics := .vram } = false := by decide

theorem test_wf_config_refuses_each_part :
    { defaultConfig with opcodeMap := [(0x01, .movReg), (0x01, .hlt)] }.wf = false ∧
    { defaultConfig with ports := [(0x82, someHandler)] }.wf = false ∧
    { defaultConfig with tileFormat := { tw := 0, th := 8, gw := 40, gh := 25, graphics := .vram } }.wf = false := by
  decide

/-! ## Decoding: a word for every constructor, written out from R91 to R97 -/

theorem test_decode_move :
    decode defaultOpcodeMap [0x01, 0x01] = .ok (.movReg .a .b, []) ∧
    decode defaultOpcodeMap [0x02, 0x04, 0x00] = .ok (.movImm .x 0x00, []) ∧
    decode defaultOpcodeMap [0x03, 0x04] = .ok (.load .a .x, []) ∧
    decode defaultOpcodeMap [0x04, 0x40] = .ok (.store .x .a, []) ∧
    decode defaultOpcodeMap [0x05, 0x00] = .ok (.push .a, []) ∧
    decode defaultOpcodeMap [0x06, 0x01] = .ok (.pop .b, []) := by decide

theorem test_decode_arith :
    decode defaultOpcodeMap [0x10, 0x01] = .ok (.addReg .a .b, []) ∧
    decode defaultOpcodeMap [0x11, 0x00, 0x01] = .ok (.addImm .a 0x01, []) ∧
    decode defaultOpcodeMap [0x12, 0x01] = .ok (.subReg .a .b, []) ∧
    decode defaultOpcodeMap [0x13, 0x02, 0x03] = .ok (.subImm .c 0x03, []) ∧
    decode defaultOpcodeMap [0x14, 0x01] = .ok (.mulReg .b, []) ∧
    decode defaultOpcodeMap [0x15, 0x11] = .ok (.mulImm 0x11, []) ∧
    decode defaultOpcodeMap [0x16, 0x01] = .ok (.divReg .b, []) ∧
    decode defaultOpcodeMap [0x17, 0x00] = .ok (.divImm 0x00, []) ∧
    decode defaultOpcodeMap [0x18, 0x04] = .ok (.inc .x, []) ∧
    decode defaultOpcodeMap [0x19, 0x02] = .ok (.dec .c, []) := by decide

theorem test_decode_logic :
    decode defaultOpcodeMap [0x20, 0x01] = .ok (.andReg .a .b, []) ∧
    decode defaultOpcodeMap [0x21, 0x00, 0x80] = .ok (.andImm .a 0x80, []) ∧
    decode defaultOpcodeMap [0x22, 0x01] = .ok (.orReg .a .b, []) ∧
    decode defaultOpcodeMap [0x23, 0x00, 0x00] = .ok (.orImm .a 0x00, []) ∧
    decode defaultOpcodeMap [0x24, 0x00] = .ok (.xorReg .a .a, []) ∧
    decode defaultOpcodeMap [0x25, 0x00, 0x55] = .ok (.xorImm .a 0x55, []) ∧
    decode defaultOpcodeMap [0x26, 0x00] = .ok (.notReg .a, []) ∧
    decode defaultOpcodeMap [0x27, 0x00] = .ok (.shl .a, []) ∧
    decode defaultOpcodeMap [0x28, 0x05] = .ok (.shr .y, []) := by decide

theorem test_decode_control :
    decode defaultOpcodeMap [0x30, 0x03, 0x02] = .ok (.jmp 0x0203, []) ∧
    decode defaultOpcodeMap [0x31, 0x13, 0x02] = .ok (.jz 0x0213, []) ∧
    decode defaultOpcodeMap [0x32, 0x09, 0x02] = .ok (.jnz 0x0209, []) ∧
    decode defaultOpcodeMap [0x33, 0x0B, 0x02] = .ok (.call 0x020B, []) ∧
    decode defaultOpcodeMap [0x34] = .ok (.ret, []) ∧
    decode defaultOpcodeMap [0x35] = .ok (.reti, []) ∧
    decode defaultOpcodeMap [0x36] = .ok (.hlt, []) := by decide

theorem test_decode_io_compare :
    decode defaultOpcodeMap [0x40, 0x01, 0x00] = .ok (.outPort 0x01 .a, []) ∧
    decode defaultOpcodeMap [0x41, 0x01, 0x7F] = .ok (.inPort .b 0x7F, []) ∧
    decode defaultOpcodeMap [0x50, 0x01] = .ok (.cmpReg .a .b, []) ∧
    decode defaultOpcodeMap [0x51, 0x00, 0x00] = .ok (.cmpImm .a 0x00, []) := by decide

/-- Bit by bit: the RR byte of `STORE [C], D` is 0010 0011 (R94, R95). -/
theorem test_decode_rr_bits : decode defaultOpcodeMap [0b00000100, 0b00100011] = .ok (.store .c .d, []) := by decide

/-- DM-4, DM-5, DM-9, DM-14, DM-18, IO-7, FD-1 to FD-3: encodings that do not decode. -/
theorem test_decode_refuses :
    decode defaultOpcodeMap [0x02, 0x06, 0x00] = .error (.badOperand 1 0x06) ∧
    decode defaultOpcodeMap [0x01, 0x60] = .error (.badOperand 1 0x60) ∧
    decode defaultOpcodeMap [0x03, 0x01] = .error (.badOperand 1 0x01) ∧
    decode defaultOpcodeMap [0x04, 0x50] = .error (.badOperand 1 0x50) ∧
    decode defaultOpcodeMap [0x05, 0x10] = .error (.badOperand 1 0x10) ∧
    decode defaultOpcodeMap [0x40, 0x01, 0x07] = .error (.badOperand 2 0x07) ∧
    decode defaultOpcodeMap [0x00] = .error (.unknownOpcode 0x00) ∧
    decode defaultOpcodeMap [0xFF] = .error (.unknownOpcode 0xFF) ∧
    decode defaultOpcodeMap [0x37] = .error (.unknownOpcode 0x37) := by decide

/-- Under another OPCODE_MAP (R6) another byte selects the instruction. -/
theorem test_decode_other_map : decode [(0x99, .push)] [0x99, 0x03] = .ok (.push .d, []) := by decide

/-- The host's numbering of a word's bits: byte k holds bits 8k+7 to 8k; `ADD A, #0x01` is 0x010011, and a row's 8 bits
alone leave operand bytes of 0. -/
theorem test_decode_table_word :
    decodeTableWord 24 0x010011 = some (.addImm .a 0x01) ∧ decodeTableWord 8 0x02 = some (.movImm .a 0x00) ∧
    decodeTableWord 8 0x00 = none := by decide

/-- A word placed at reset is what the first step runs. -/
theorem test_withFetchWord : (hostStep (State.reset.withFetchWord 24 0x5A0302)).reg .d = 0x5A := by decide

theorem test_encode_call : encode defaultOpcodeMap (.call 0x020B) = some [0x33, 0x0B, 0x02] := by decide

/-! ## Instructions, one step each -/

/-- DM-1 -/
theorem test_movReg : (after [0x01, 0x10] (ab 0x5A 0)).reg .b = 0x5A := by decide

/-- DM-2 -/
theorem test_movReg_nop : afp (after [0x01, 0x00] (withF 0x0F (ab 0x33 0))) = (0x33, 0x0F, 0x0202) := by decide

/-- DM-3 -/
theorem test_movImm : (after [0x02, 0x04, 0xFF] (withF 0x0F (ab 0 0))).reg .x = 0xFF := by decide

/-- DM-7: `LOAD A, [C]` from ROM -/
theorem test_load_rom : (after [0x03, 0x02] (withByte 0xC000 0x99 ((ab 0 0).setReg .d 0xC0))).reg .a = 0x99 := by decide

/-- DM-8: the old pair is the address -/
theorem test_load_base_is_destination : (after [0x03, 0x44] (withByte 0x0005 0x42 ((ab 0 0).setReg .x 0x05))).reg .x = 0x42 := by decide

/-- DM-11: `STORE [A], A` -/
theorem test_store : Memory.read (after [0x04, 0x00] (ab 0x34 0x12)).mem 0x1234 = 0x34 := by decide

/-- DM-12 -/
theorem test_store_rom_faults : fault (after [0x04, 0x20] ((ab 0x11 0).setReg .d 0xC0)) = (.faulted, some (.memoryBoundsViolation 0xC000, 0x0200)) := by decide

/-- DM-16 -/
theorem test_push_last_free_byte : (let t := after [0x05, 0x00] { ab 0x5A 0 with sp := 0x0101 }; (t.sp, Memory.read t.mem 0x0100)) = (0x0100, 0x5A) := by decide

/-- DM-17 -/
theorem test_push_full : fault (after [0x05, 0x00] { ab 0x5A 0 with sp := 0x0100 }) = (.faulted, some (.stackOverflow 0x0100, 0x0200)) := by decide

/-- DM-19 -/
theorem test_pop : (let t := after [0x06, 0x01] (withByte 0x01FE 0x5A { ab 0 0 with sp := 0x01FE }); (t.reg .b, t.sp)) = (0x5A, 0x01FF) := by decide

/-- DM-20 -/
theorem test_pop_empty : fault (after [0x06, 0x01] (ab 0 0)) = (.faulted, some (.stackUnderflow 0x01FF, 0x0200)) := by decide

/-- AR-1 -/
theorem test_addReg : afp (after [0x10, 0x01] (ab 0x12 0x34)) = (0x46, 0x00, 0x0202) := by decide

/-- AR-6: `ADD B, B` -/
theorem test_addReg_doubles : (let t := after [0x10, 0x11] (ab 0 0xC0); (t.reg .b, t.flags.number)) = (0x80, 0x06) := by decide

/-- AR-2 -/
theorem test_addImm_overflow : afp (after [0x11, 0x00, 0x01] (ab 0x7F 0)) = (0x80, 0x0C, 0x0203) := by decide

/-- V-SRC-1, AR-5 -/
theorem test_addImm_source : afp (after [0x11, 0x00, 0x01] (ab 0xFF 0)) = (0x00, 0x03, 0x0203) := by decide

/-- R144: 0x03 - 0x05 -/
theorem test_subReg : afp (after [0x12, 0x01] (ab 0x03 0x05)) = (0xFE, 0x06, 0x0202) := by decide

/-- AR-11 -/
theorem test_subReg_same : afp (after [0x12, 0x00] (ab 0x42 0)) = (0x00, 0x01, 0x0202) := by decide

/-- AR-10 -/
theorem test_subImm_overflow : afp (after [0x13, 0x00, 0xFF] (ab 0x7F 0)) = (0x80, 0x0E, 0x0203) := by decide

/-- AR-9 -/
theorem test_subImm_v_alone : afp (after [0x13, 0x00, 0x01] (ab 0x80 0)) = (0x7F, 0x08, 0x0203) := by decide

/-- AR-13 -/
theorem test_mulReg_keeps_v : afp (after [0x14, 0x01] (withF 0x08 (ab 0x07 0x06))) = (0x2A, 0x08, 0x0202) := by decide

/-- AR-16 -/
theorem test_mulReg_square : afp (after [0x14, 0x00] (ab 0xFF 0)) = (0x01, 0x02, 0x0202) := by decide

/-- AR-14 -/
theorem test_mulImm_carry : afp (after [0x15, 0x10] (ab 0x10 0)) = (0x00, 0x03, 0x0202) := by decide

/-- AR-17 -/
theorem test_mulImm_clears_c : afp (after [0x15, 0x00] (withF 0x02 (ab 0x9C 0))) = (0x00, 0x01, 0x0202) := by decide

/-- AR-18 -/
theorem test_divReg : afp (after [0x16, 0x01] (withF 0x02 (ab 0x64 0x07))) = (0x0E, 0x00, 0x0202) := by decide

/-- AR-22 -/
theorem test_divReg_by_zero : (let t := after [0x16, 0x01] (withF 0x04 (ab 0x64 0)); (fault t, afp t)) =
    ((.faulted, some (.divideByZero, 0x0200)), (0x64, 0x04, 0x0200)) := by decide

/-- AR-20 -/
theorem test_divImm : afp (after [0x17, 0x01] (ab 0xFF 0)) = (0xFF, 0x04, 0x0202) := by decide

/-- AR-23 -/
theorem test_divImm_by_zero : fault (after [0x17, 0x00] (ab 0x10 0)) = (.faulted, some (.divideByZero, 0x0200)) := by decide

/-- AR-24 -/
theorem test_inc_keeps_c_and_v : afp (after [0x18, 0x00] (withF 0x0A (ab 0xFF 0))) = (0x00, 0x0B, 0x0202) := by decide

/-- AR-25 -/
theorem test_inc_no_v : afp (after [0x18, 0x00] (ab 0x7F 0)) = (0x80, 0x04, 0x0202) := by decide

/-- AR-26 -/
theorem test_dec_wraps : afp (after [0x19, 0x00] (ab 0x00 0)) = (0xFF, 0x04, 0x0202) := by decide

/-- AR-27 -/
theorem test_dec_keeps_c : afp (after [0x19, 0x00] (withF 0x02 (ab 0x01 0))) = (0x00, 0x03, 0x0202) := by decide

/-- LG-1 -/
theorem test_andReg : afp (after [0x20, 0x01] (withF 0x0A (ab 0xF0 0x0F))) = (0x00, 0x0B, 0x0202) := by decide

/-- LG-2 -/
theorem test_andImm : afp (after [0x21, 0x00, 0x80] (ab 0xFF 0)) = (0x80, 0x04, 0x0203) := by decide

/-- LG-3 -/
theorem test_orReg : afp (after [0x22, 0x01] (ab 0x80 0x01)) = (0x81, 0x04, 0x0202) := by decide

/-- LG-4 -/
theorem test_orImm : afp (after [0x23, 0x00, 0x00] (ab 0 0)) = (0x00, 0x01, 0x0203) := by decide

/-- LG-5 -/
theorem test_xorReg : afp (after [0x24, 0x00] (ab 0xAA 0)) = (0x00, 0x01, 0x0202) := by decide

/-- LG-6 -/
theorem test_xorImm : afp (after [0x25, 0x00, 0x55] (ab 0xAA 0)) = (0xFF, 0x04, 0x0203) := by decide

/-- LG-8 -/
theorem test_not : afp (after [0x26, 0x00] (withF 0x0A (ab 0xFF 0))) = (0x00, 0x0B, 0x0202) := by decide

/-- LG-11 -/
theorem test_shl_carry : afp (after [0x27, 0x00] (withF 0x08 (ab 0x80 0))) = (0x00, 0x0B, 0x0202) := by decide

/-- LG-12 -/
theorem test_shl_clears_c : afp (after [0x27, 0x00] (withF 0x02 (ab 0x40 0))) = (0x80, 0x04, 0x0202) := by decide

/-- LG-14 -/
theorem test_shr_clears_c : afp (after [0x28, 0x00] (withF 0x02 (ab 0x80 0))) = (0x40, 0x00, 0x0202) := by decide

/-- LG-15 -/
theorem test_shr_carry : afp (after [0x28, 0x00] (ab 0xFF 0)) = (0x7F, 0x02, 0x0202) := by decide

/-- CT-2 -/
theorem test_jmp : (after [0x30, 0x00, 0xC0] (ab 0 0)).pc = 0xC000 := by decide

/-- CT-3 -/
theorem test_jmp_vram_faults : fault (after [0x30, 0x00, 0x80] (ab 0 0)) = (.faulted, some (.memoryBoundsViolation 0x8000, 0x0200)) := by decide

/-- CT-5 -/
theorem test_jz_taken : afp (after [0x31, 0x00, 0x03] (withF 0x01 (ab 0 0))) = (0, 0x01, 0x0300) := by decide

/-- CT-7 -/
theorem test_jz_bad_target_not_taken : (let t := after [0x31, 0x00, 0x00] (ab 0 0); (t.run, t.pc)) = (.running, 0x0203) := by decide

/-- CT-9 -/
theorem test_jnz_taken : (after [0x32, 0x09, 0x02] (ab 0 0)).pc = 0x0209 := by decide

/-- CT-10 -/
theorem test_jnz_not_taken : (after [0x32, 0x09, 0x02] (withF 0x01 (ab 0 0))).pc = 0x0203 := by decide

/-- CT-12 -/
theorem test_call : (let t := after [0x33, 0x00, 0x03] { ab 0 0 with sp := 0x0102 };
      (t.sp, t.pc, Memory.read t.mem 0x0100, Memory.read t.mem 0x0101)) = (0x0100, 0x0300, 0x03, 0x02) := by decide

/-- CT-14: the target before the stack -/
theorem test_call_fault_order : fault (after [0x33, 0x00, 0xA0] { ab 0 0 with sp := 0x0100 }) =
    (.faulted, some (.memoryBoundsViolation 0xA000, 0x0200)) := by decide

/-- CT-16 -/
theorem test_ret : (let t := after [0x34] (withByte 0x01FD 0x03 (withByte 0x01FE 0x02 { ab 0 0 with sp := 0x01FD })); (t.sp, t.pc)) =
    (0x01FF, 0x0203) := by decide

/-- CT-17 -/
theorem test_ret_one_byte : fault (after [0x34] (withByte 0x01FE 0x02 { ab 0 0 with sp := 0x01FE })) = (.faulted, some (.stackUnderflow 0x01FE, 0x0200)) := by decide

/-- CT-20 -/
theorem test_reti : (let t := after [0x35] (withByte 0x01FC 0xF3 (withByte 0x01FD 0x10 (withByte 0x01FE 0x02 { ab 0 0 with sp := 0x01FC })));
      (t.flags.number, t.sp, t.pc)) = (0x03, 0x01FF, 0x0210) := by decide

/-- CT-21 -/
theorem test_reti_two_bytes : fault (after [0x35] { ab 0 0 with sp := 0x01FD }) = (.faulted, some (.stackUnderflow 0x01FD, 0x0200)) := by decide

/-- CT-22 -/
theorem test_hlt : (let t := after [0x36] (ab 0 0); (t.run, t.pc, t.cycles)) = (.halted, 0x0201, 1) := by decide

/-- IO-1 -/
theorem test_out_terminal : (after [0x40, 0x01, 0x00] (ab 0x48 0)).terminal = [0x48] := by decide

/-- IO-4 -/
theorem test_out_pixel : (after [0x40, 0x82, 0x01] { ab 0 0x07 with gpu := { Gpu.reset with lx := 255, ly := 199 } }).gpu.fb = [(199 * 320 + 255, 0x07)] := by decide

/-- IO-8: IN does not read the latch back -/
theorem test_in_latch_port : (after [0x41, 0x01, 0x80] { ab 0 0x33 with gpu := { Gpu.reset with lx := 0x44 } }).reg .b = 0x00 := by decide

/-- IO-10 -/
theorem test_in_unmapped : (let t := after [0x41, 0x05, 0xFF] (withF 0x01 ((ab 0 0).setReg .y 0x99)); (t.reg .y, t.flags.number, t.pc)) = (0x00, 0x01, 0x0203) := by decide

/-- CP-2 -/
theorem test_cmpReg : afp (after [0x50, 0x01] (ab 0x03 0x05)) = (0x03, 0x06, 0x0202) := by decide

/-- CP-6 -/
theorem test_cmpReg_same : (after [0x50, 0x11] (withF 0x0E (ab 0 0x7E))).flags.number = 0x01 := by decide

/-- CP-3 -/
theorem test_cmpImm_overflow : afp (after [0x51, 0x00, 0x01] (ab 0x80 0)) = (0x80, 0x08, 0x0203) := by decide

/-- CP-5 -/
theorem test_cmpImm_tst : afp (after [0x51, 0x00, 0x00] (withF 0x0B (ab 0x90 0))) = (0x90, 0x04, 0x0203) := by decide

/-! ## Fetch, faults and interrupts -/

/-- FD-4 -/
theorem test_fetch_zero_page : fault (after [0x36] { ab 0 0 with pc := 0x0010 }) = (.faulted, some (.memoryBoundsViolation 0x0010, 0x0010)) := by decide

/-- FD-8 -/
theorem test_fetch_operand_in_vram : fault (after [0x18, 0x00] { ab 0 0 with pc := 0x7FFF }) = (.faulted, some (.memoryBoundsViolation 0x8000, 0x7FFF)) := by decide

/-- FD-9 -/
theorem test_fetch_operand_past_the_top : fault (after [0x18] { ab 0 0 with pc := 0xFFFF }) = (.faulted, some (.memoryBoundsViolation 0x10000, 0xFFFF)) := by decide

/-- FD-10 -/
theorem test_pc_reaches_the_top : (after [0x01, 0x00] { ab 0 0 with pc := 0xFFFE }).pc = 0x10000 := by decide

/-- FD-11 -/
theorem test_fetch_at_the_top : fault (after [] { ab 0 0 with pc := 0x10000 }) = (.faulted, some (.memoryBoundsViolation 0x10000, 0x10000)) := by decide

/-- CT-15 -/
theorem test_call_at_the_top : fault (after [0x33, 0x00, 0x02] { ab 0 0 with pc := 0xFFFD }) = (.faulted, some (.memoryBoundsViolation 0x10000, 0xFFFD)) := by decide

/-- DR-8, R406 (b): the reset machine with nothing loaded -/
theorem test_empty_memory_faults : fault (hostStep State.reset) = (.faulted, some (.invalidOpcode 0x0200 0x00, 0x0200)) := by decide

/-- V-SRC-6: the second step changes nothing -/
theorem test_fault_latches : (let t := hostStep (after [0x17, 0x00] (ab 0x10 0)); (fault t, t.cycles, afp t)) =
    ((.faulted, some (.divideByZero, 0x0200)), 1, (0x10, 0x00, 0x0200)) := by decide

/-- R300 -/
theorem test_cause_codes : [FaultKind.invalidOpcode, .memoryBoundsViolation, .stackOverflow, .stackUnderflow, .divideByZero].map FaultKind.code = [1, 2, 3, 4, 5] ∧
    (FaultCause.divideByZero.kind, (FaultCause.stackOverflow 0x0100).kind) = (.divideByZero, .stackOverflow) := by decide

/-- IR-1: the dispatch comes before the HLT -/
theorem test_dispatch : (let t := hostStep { withByte 0x0210 0x36 (withF 0x03 (ab 0 0)) with pc := 0x0210, queue := [0xFF00] };
      (t.pc, t.sp, [0x01FC, 0x01FD, 0x01FE].map (Memory.read t.mem), t.queue, t.flags.number)) =
    (0xFF00, 0x01FC, [0x03, 0x10, 0x02], [], 0x03) := by decide

/-- IR-2 and IR-3 -/
theorem test_dispatch_stack : (hostStep { ab 0 0 with sp := 0x0103, queue := [0xFF00] }).sp = 0x0100 ∧
    fault (hostStep { ab 0 0 with sp := 0x0102, queue := [0xFF00] }) = (.faulted, some (.stackOverflow 0x0102, 0x0200)) := by decide

/-- IR-4: the queue keeps its entry -/
theorem test_dispatch_bad_vector : (let t := hostStep { ab 0 0 with queue := [0x8000] }; (fault t, t.queue)) =
    ((.faulted, some (.memoryBoundsViolation 0x8000, 0x0200)), [0x8000]) := by decide

/-- IR-5 -/
theorem test_dispatch_at_the_top : fault (hostStep { ab 0 0 with pc := 0x10000, queue := [0xFF00] }) = (.faulted, some (.memoryBoundsViolation 0x10000, 0x10000)) := by decide

/-- R311 -/
theorem test_enqueue_merges : (((ab 0 0).enqueue 0xFF00).enqueue 0xFF00).queue = [0xFF00] := by decide

/-! ## The GPU and the driver -/

/-- V-SRC-4, IO-5 -/
theorem test_pixel_clipped : (after [0x40, 0x82, 0x01] { ab 0 0x07 with gpu := { Gpu.reset with lx := 10, ly := 250 } }).gpu.fb = [] := by decide

/-- GR-2: layer 0 of tile 0 with mem[8000] = 05 and sx = 1 shows 05 at (7, 0) and, wrapped, at (319, 0), nothing at (0, 0). -/
theorem test_layer_scroll_wraps :
    (let l : TileLayer := { TileLayer.reset with sx := 1, enabled := true };
      [(7, 0), (319, 0), (0, 0)].map fun p => layerPixel defaultConfig.tileFormat [(0x8000, 0x05)] l p.1 p.2) =
    [some 0x05, some 0x05, none] := by decide

/-- GR-4: tile 128 shows tile 0. -/
theorem test_tile_alias : tilePixel defaultConfig.tileFormat [(0x8000, 0x05)] 128 0 0 = some 0x05 := by decide

/-- GR-5: a flipped sprite at (100, 50) shows its dot at (115, 50), with the palette offset added. -/
theorem test_sprite_flip :
    (let s : Sprite := { Sprite.reset with pal := 0x10, x := 100, y := 50, hflip := true, enabled := true };
      (drawRow defaultConfig [(0xA000, 0x03)] s Gpu.reset 0).fb) = [(50 * 320 + 115, 0x13)] := by decide

/-- GR-7, GR-8: bitmap 32 is bitmap 0; 0x02 + 0xFF wraps to 0x01. -/
theorem test_sprite_pixels :
    spritePixel .sram [(0xA000, 0x04)] 32 0 0 0 = some 0x04 ∧ spritePixel .sram [(0xA000, 0xFF)] 0 0x02 0 0 = some 0x01 := by
  decide

/-- GR-6: a row of a sprite at (310, 190) is clipped at the right edge. -/
theorem test_sprite_clipped :
    (let s : Sprite := { Sprite.reset with x := 310, y := 190, enabled := true };
      (drawRow defaultConfig [(0xA000, 0x01), (0xA009, 0x01), (0xA00A, 0x01)] s Gpu.reset 0).fb) =
    [(190 * 320 + 310, 0x01), (190 * 320 + 319, 0x01)] := by decide

/-- R353: the value is truncated to the field's width; entry 256 and slot 64 do not exist. -/
theorem test_gpu_updates :
    (Sprite.reset.setField .bitmap 0x123).bitmap = 0x23 ∧
    (Gpu.reset.apply defaultConfig.tileFormat (.setTile 1 24 39 7)).tl1.tiles = [(999, 7)] ∧
    (Gpu.reset.apply defaultConfig.tileFormat (.setTile 1 25 0 7)).tl1.tiles = [] ∧
    (Gpu.reset.apply defaultConfig.tileFormat (.setScroll 0 .y 0x10002)).tl0.sy = 2 := by decide

/-- DR-1, DR-2: a load past 0xFFFF is refused; one that ends at 0xFFFF is taken and leaves the entry point alone. -/
theorem test_load :
    loadProgram [0x00, 0x00] 0xFFFF (ab 0 0) = none ∧
    (loadProgram [0x36] 0xFFFF (ab 0 0)).map (fun t => (t.mem, t.entry, t.pc)) = some ([(0xFFFF, 0x36)], 0x0200, 0x0200) := by
  decide

/-- DR-3, DR-4: the later image wins, and the last fixed-address load is the entry point. -/
theorem test_reset_reloads :
    (let t := hostReset { ab 1 2 with images := [(0xC000, [0x36]), (0x0200, [0x01]), (0x0200, [0x02])] };
      (t.mem, t.pc, t.reg .a)) = ([(0x0200, 0x02), (0xC000, 0x36)], 0x0200, 0x00) ∧
    entryAfterLoad 0x0200 0xC000 = 0xC000 ∧ entryAfterLoad 0xC000 0x0000 = 0xC000 := by decide

/-- DR-5: HLT under runCycles(5), and again. -/
theorem test_runCycles_halt :
    (let r := runCycles 5 ((ab 0 0).placeInstr [0x36]); (r.1, r.2.run, r.2.pc, r.2.cycles, (runCycles 5 r.2).1)) =
    (1, .halted, 0x0201, 1, 0) := by decide

/-- R421, R426: what step() returns and what the snapshot shows. -/
theorem test_snapshot :
    (let t := after [0x36] (withF 0x05 (ab 0x11 0)); (t.report, t.snapshot.flags, t.snapshot.regs.a, t.snapshot.pc)) =
    ((.halted, none), 0x05, 0x11, 0x0201) := by decide

/-! ## Witnesses: states and operands that meet the hypotheses of the statements -/

/-- A running state that is not the reset state: registers, memory, stack, framebuffer, tiles and images in use. -/
def used : State :=
  { ab 0x12 0x34 with
    sp := 0x0180, mem := [(0x0180, 0x03), (0x0181, 0x02), (0x0200, 0x10), (0x0201, 0x01)]
    gpu := { Gpu.reset with
      lx := 255, ly := 199, fb := [(3, 0x2A)], tl0 := { TileLayer.reset with tiles := [(999, 7)], enabled := true } }
    images := [(0x0200, [0x10, 0x01])] }

/-- `used` with a configured port of each kind. -/
def ported : State :=
  { used with config := { defaultConfig with ports :=
      [(0x10, { write := 0, read := .blockFunction 1, readEffect := none }),
       (0x11, { write := 2, read := .externalInput, readEffect := some 3 })] } }

theorem witness_inv : used.Inv where
  memWf := by decide
  pcRange := by decide
  spLow := by decide
  spHigh := by decide
  faultIff := rfl
  faultAddr := by intro r h; cases h
  faultDetail := by intro r a h; cases h
  queueShape := .inl rfl
  configWf := by decide
  fbWf := by decide
  fbDepth := fun _ => by decide
  tiles0Wf := by decide
  tiles1Wf := by decide
  imagesFit := by decide
  entryFixed := .inl rfl

/-- EveryStepKeepsTheInvariant, EveryHostOperationKeepsTheInvariant, VBlankIsPendingAfterEveryFrame: a state with the
invariant whose step runs an ADD. -/
theorem witness_EveryStepKeepsTheInvariant : ∃ t, used.Inv ∧ step used = .next t ∧ t.reg .a = 0x46 :=
  ⟨_, witness_inv, rfl, by decide⟩

theorem witness_EncodeThenDecodeGivesTheInstruction :
    OpcodeMap.wf [(0x99, .push), (0x36, .hlt)] = true ∧ Instr.wf [(0x99, .push), (0x36, .hlt)] (.push .y) = true := by
  decide

theorem witness_DecodedBytesAreTheEncoding :
    decode defaultOpcodeMap [0x33, 0x0B, 0x02, 0xAA] = .ok (.call 0x020B, [0xAA]) := by decide

/-- Each format's last byte that decodes and first that does not. -/
theorem witness_OperandBytesThatDoNotDecode :
    decodeOperands .push 5 0 = .ok (.push .y) ∧ decodeOperands .push 6 0 = .error (1, 6) ∧
    decodeOperands .movReg 0x55 0 = .ok (.movReg .y .y) ∧ decodeOperands .movReg 0x65 0 = .error (1, 0x65) ∧
    decodeOperands .load 0x54 0 = .ok (.load .y .x) ∧ decodeOperands .load 0x55 0 = .error (1, 0x55) ∧
    decodeOperands .store 0x45 0 = .ok (.store .x .y) ∧ decodeOperands .store 0x55 0 = .error (1, 0x55) ∧
    decodeOperands .outPort 0xFF 5 = .ok (.outPort 0xFF .y) ∧ decodeOperands .outPort 0 6 = .error (2, 6) := by decide

theorem witness_StepRunsTheDecodedInstruction :
    used.run = .running ∧ used.queue = [] ∧ (∀ k, k < Instr.length (.addReg .a .b) → executable (used.pc + k) = true) ∧
    decode used.config.opcodeMap (bytesAtPc used (Instr.length (.addReg .a .b))) = .ok (.addReg .a .b, []) := by decide

/-- FetchAndDecodeFaultsComeInOrder, clause by clause: the opcode byte, its lookup, operand bytes 1 and 2, the fields. -/
theorem witness_FetchAndDecodeFaultsComeInOrder :
    (let s := { used with pc := 0x01FF }; s.run = .running ∧ s.queue = [] ∧ executable s.pc = false) ∧
    (let s := { used with pc := 0x0202 };
      executable s.pc = true ∧ s.config.opcodeMap.lookup (Memory.read s.mem s.pc) = none) ∧
    (let s := { withByte 0x7FFF 0x18 used with pc := 0x7FFF };
      executable s.pc = true ∧ s.config.opcodeMap.lookup (Memory.read s.mem s.pc) = some .inc ∧
      2 ≤ Opcode.length .inc ∧ executable (s.pc + 1) = false) ∧
    (let s := { withByte 0xFFFE 0x30 used with pc := 0xFFFE };
      executable s.pc = true ∧ s.config.opcodeMap.lookup (Memory.read s.mem s.pc) = some .jmp ∧
      3 ≤ Opcode.length .jmp ∧ executable (s.pc + 1) = true ∧ executable (s.pc + 2) = false) ∧
    (let s := withByte 0x0201 0x61 used;
      s.config.opcodeMap.lookup (Memory.read s.mem s.pc) = some .addReg ∧
      (∀ j, j < Opcode.length .addReg → executable (s.pc + j) = true) ∧
      decode s.config.opcodeMap (bytesAtPc s (Opcode.length .addReg)) = .error (.badOperand 1 0x61)) := by decide

/-- FaultingStepChangesNothingElse, RunStateMovesOnlyAsStated: a Running state whose step faults. -/
theorem witness_FaultingStepChangesNothingElse :
    ∃ t, (ab 1 2).run = .running ∧ step (ab 1 2) = .next t ∧ t.run = .faulted := ⟨_, by decide, rfl, by decide⟩

/-- StoppedCoreStaysAsItIs, RunStateMovesOnlyAsStated. -/
theorem witness_StoppedCoreStaysAsItIs :
    (after [0x36] used).run = .halted ∧ (after [0x00] used).run = .faulted ∧ HostCommand.tickFrame ≠ .reset := by decide

/-- RunCyclesTakesAndCountsItsSteps: a run that stops short of n, after a step. -/
theorem witness_RunCyclesTakesAndCountsItsSteps : 0 < (runCycles 5 used).1 ∧ (runCycles 5 used).1 < 5 := by decide

/-- StackPointerStaysInItsRegion at both ends of the region, NoStepChangesRom. -/
theorem witness_StackPointerStaysInItsRegion :
    { used with sp := 0x0100 }.spInStack ∧ { used with sp := 0x01FF }.spInStack ∧
    ∃ t, exec (.push .a) used = .next t ∧ t.sp ≠ used.sp :=
  ⟨⟨by decide, by decide⟩, ⟨by decide, by decide⟩, _, rfl, by decide⟩

theorem witness_NoStepChangesRom :
    ∃ t, Memory.wf used.mem = true ∧ used.spInStack ∧ step used = .next t ∧ 0xC000 ≤ 0xC000 :=
  ⟨_, by decide, ⟨by decide, by decide⟩, rfl, le_rfl⟩

theorem witness_ConfigurationIsNeverWritten :
    (∀ bytes a, HostCommand.step ≠ .loadProgram bytes a) ∧ (∀ n, HostCommand.step ≠ .setCyclesPerFrame n) :=
  ⟨fun _ _ => nofun, fun _ => nofun⟩

theorem witness_CanonicalMemoriesThatReadAlikeAreEqual :
    Memory.wf used.mem = true ∧ Memory.wf (Memory.write used.mem 0xFFFF 0x7E) = true ∧
    Memory.wf (Memory.write used.mem 0x0180 0x00) = true := by decide

/-- FlagsChangeOnlyAsTheTableSays: an instruction of each clause, and a faulting one. -/
theorem witness_FlagsChangeOnlyAsTheTableSays :
    (∃ t, exec (.call 0x0300) used = .next t ∧ t.run = .running) ∧ (∃ t, exec (.inc .a) used = .next t ∧ t.run = .running) ∧
    (∃ t, exec (.shl .a) used = .next t ∧ t.run = .running) ∧
    (∃ t, exec (.divImm 0) used = .next t ∧ used.run = .running ∧ t.run = .faulted) :=
  ⟨⟨_, rfl, by decide⟩, ⟨_, rfl, by decide⟩, ⟨_, rfl, by decide⟩, ⟨_, rfl, by decide, by decide⟩⟩

/-- StoreWritesThroughThePair: the last address that can be written and the first that cannot. -/
theorem witness_StoreWritesThroughThePair :
    Memory.wf used.mem = true ∧ (pairAddress (ab 0xFF 0xBF).regs .a).toNat < 0xC000 ∧
    0xC000 ≤ (pairAddress (ab 0x00 0xC0).regs .a).toNat := by decide

/-- PushStoresBelowTheStackPointer: the last free byte, the full stack. -/
theorem witness_PushStoresBelowTheStackPointer :
    (let s := { used with sp := 0x0101 }; Memory.wf s.mem = true ∧ 0x0101 ≤ s.sp.toNat) ∧
    (let s := { used with sp := 0x0100 }; Memory.wf s.mem = true ∧ s.sp.toNat < 0x0101) := by decide

/-- PopReadsAtTheStackPointer: one byte on the stack, none. -/
theorem witness_PopReadsAtTheStackPointer :
    { used with sp := 0x01FE }.sp.toNat ≤ 0x01FE ∧ 0x01FE < { used with sp := 0x01FF }.sp.toNat := by decide

/-- At both ends of the SP's range. -/
theorem witness_PushThenPopRoundTrips :
    (let s := { used with sp := 0x0101 }; Memory.wf s.mem = true ∧ 0x0101 ≤ s.sp.toNat ∧ s.sp.toNat ≤ 0x01FF) ∧
    (let s := { used with sp := 0x01FF }; Memory.wf s.mem = true ∧ 0x0101 ≤ s.sp.toNat ∧ s.sp.toNat ≤ 0x01FF) := by
  decide

theorem witness_DivGivesTheQuotientInA : (ab 0x64 0x01).reg .b ≠ 0 ∧ (ab 0x64 0x00).reg .b = 0 := by decide

/-- JumpGoesToAnExecutableTarget: the ends of the executable ranges and their neighbours. -/
theorem witness_JumpGoesToAnExecutableTarget :
    [0x0200, 0x7FFF, 0xC000, 0xFFFF].map executable = [true, true, true, true] ∧
    [0x0000, 0x01FF, 0x8000, 0xBFFF, 0x10000].map executable = [false, false, false, false, false] := by decide

theorem witness_ConditionalJumpsTestZero :
    (withF 0x01 used).flags.z = true ∧ (withF 0x0E used).flags.z = false ∧ executable (0x0300 : Addr).toNat = true ∧
    executable (0x0000 : Addr).toNat = false := by decide

/-- CallPushesTheReturnAddress, clause by clause: a CALL at 0xFFFC and at 0xFFFD, an SP of 0x0102 and of 0x0101. -/
theorem witness_CallPushesTheReturnAddress :
    (let s := { used with pc := 0xFFFC, sp := 0x0102 };
      Memory.wf s.mem = true ∧ executable (0x0300 : Addr).toNat = true ∧ s.pc + 3 ≤ 0xFFFF ∧ 0x0102 ≤ s.sp.toNat) ∧
    executable (0xA000 : Addr).toNat = false ∧
    (let s := { used with pc := 0xFFFD };
      Memory.wf s.mem = true ∧ executable (0x0300 : Addr).toNat = true ∧ 0xFFFF < s.pc + 3) ∧
    (let s := { used with pc := 0xFFFC, sp := 0x0101 };
      Memory.wf s.mem = true ∧ executable (0x0300 : Addr).toNat = true ∧ s.pc + 3 ≤ 0xFFFF ∧ s.sp.toNat < 0x0102) := by
  decide

/-- RetPopsItsTarget, clause by clause: a target of 0x0203, a stack of one byte, a target of 0x0000. -/
theorem witness_RetPopsItsTarget :
    (used.sp.toNat ≤ 0x01FD ∧ executable (wordAt used used.sp.toNat) = true) ∧ 0x01FD < { used with sp := 0x01FE }.sp.toNat ∧
    (let s := { used with sp := 0x01FD }; s.sp.toNat ≤ 0x01FD ∧ executable (wordAt s s.sp.toNat) = false) := by decide

/-- RetiPopsFlagsAndPc, clause by clause. -/
theorem witness_RetiPopsFlagsAndPc :
    (let s := { used with sp := 0x017F }; s.sp.toNat ≤ 0x01FC ∧ executable (wordAt s (s.sp.toNat + 1)) = true) ∧
    0x01FC < { used with sp := 0x01FD }.sp.toNat ∧
    (let s := { used with sp := 0x01FC }; s.sp.toNat ≤ 0x01FC ∧ executable (wordAt s (s.sp.toNat + 1)) = false) := by
  decide

theorem witness_HltHaltsForGood :
    (let s := used.placeInstr [0x36]; s.run = .running ∧ s.queue = [] ∧ fetchInstr s = .ok .hlt) ∧
    HostCommand.tickFrame ≠ .reset := by decide

theorem witness_CallThenRetComesBack :
    Memory.wf used.mem = true ∧ executable (0x0300 : Addr).toNat = true ∧ executable (used.pc + 3) = true ∧
    0x0102 ≤ used.sp.toNat ∧ used.sp.toNat ≤ 0x01FF := by decide

/-- OutReachesItsPort, InReadsItsPort: a port with no handler and one with each kind of handler. -/
theorem witness_OutReachesItsPort :
    (notFixed 0x7F ∧ handlerOf ported.config.ports 0x7F = none) ∧
    (notFixed 0x10 ∧
      handlerOf ported.config.ports 0x10 = some { write := 0, read := .blockFunction 1, readEffect := none }) ∧
    (notFixed 0x11 ∧
      handlerOf ported.config.ports 0x11 = some { write := 2, read := .externalInput, readEffect := some 3 }) ∧
    ¬notFixed 0x82 := by
  unfold notFixed; decide

/-- PixelDrawWritesOnePixel: a pixel on the screen, the first row off it, and both modes. -/
theorem witness_PixelDrawWritesOnePixel :
    fbCanonical used.config used.gpu ∧ (used.gpu.lx.toNat < used.config.mode.width ∧ used.gpu.ly.toNat < used.config.mode.height) ∧
    ¬(200 < used.config.mode.height) ∧ used.config.mode = .m320x200x8 ∧ (configOfMode .m640x480x16).mode = .m640x480x16 := by
  unfold fbCanonical; decide

/-- GpuUpdatesSetOneEntry: the last index of each range and the first outside it. -/
theorem witness_GpuUpdatesSetOneEntry :
    (let f := defaultConfig.tileFormat;
      (24 < f.gh ∧ 39 < f.gw ∧ ¬25 < f.gh ∧ ¬40 < f.gw) ∧ 63 < 64 ∧ 64 ≤ 64 ∧ 255 < 256 ∧ 256 ≤ 256 ∧ 2 ≤ 2 ∧
      sparseWf blankTile (f.gh * f.gw) 0 used.gpu.tl0.tiles = true ∧
      sparseWf blankTile (f.gh * f.gw) 0 used.gpu.tl1.tiles = true) := by decide

/-- DispatchSavesPcAndFlags, clause by clause: the ends of the PC's and the SP's ranges. -/
theorem witness_DispatchSavesPcAndFlags :
    (let s := { used with queue := [0xFF00], pc := 0xFFFF, sp := 0x0103 };
      Memory.wf s.mem = true ∧ s.run = .running ∧ s.queue = [0xFF00] ∧ executable (0xFF00 : Addr).toNat = true ∧
      s.pc ≤ 0xFFFF ∧ 0x0103 ≤ s.sp.toNat) ∧
    (let s := { used with queue := [0x8000] };
      Memory.wf s.mem = true ∧ s.run = .running ∧ s.queue = [0x8000] ∧ executable (0x8000 : Addr).toNat = false) ∧
    (let s := { used with queue := [0xFF00], pc := 0x10000 };
      s.run = .running ∧ s.queue = [0xFF00] ∧ executable (0xFF00 : Addr).toNat = true ∧ 0xFFFF < s.pc) ∧
    (let s := { used with queue := [0xFF00], sp := 0x0102 };
      s.run = .running ∧ executable (0xFF00 : Addr).toNat = true ∧ s.pc ≤ 0xFFFF ∧ s.sp.toNat < 0x0103) := by decide

theorem witness_RetiUndoesADispatch :
    (let s := { used with queue := [0xFF00] };
      Memory.wf s.mem = true ∧ s.run = .running ∧ s.queue = [0xFF00] ∧ executable (0xFF00 : Addr).toNat = true ∧
      executable s.pc = true ∧ 0x0103 ≤ s.sp.toNat ∧ s.sp.toNat ≤ 0x01FF) := by decide

theorem witness_NestedDispatchesFillTheStack :
    (let s := { used with sp := 0x01FF };
      s.run = .running ∧ s.queue = [] ∧ s.pc ≤ 0xFFFF ∧ s.sp = 0x01FF ∧
      executable s.config.vblankVector.toNat = true) := by decide

/-- LayerRenderWritesItsPixels, SpriteRenderShowsTheHighestSlot, RenderShowsTheTopmostPixel: a canonical framebuffer and
the last pixel of the screen. -/
theorem witness_RenderShowsTheTopmostPixel :
    fbCanonical used.config used.gpu ∧ 319 < used.config.mode.width ∧ 199 < used.config.mode.height := by
  unfold fbCanonical; decide

/-- RenderShowsTheTopmostPixel: memories that differ just below VRAM and just above SRAM, and are alike between. -/
theorem witness_RenderReadsGraphicsMemory :
    let m : List Host.Cell := [(0x7FFF, 1), (0x8000, 2), (0xBFFF, 3), (0xC000, 4)]
    let m' : List Host.Cell := [(0x8000, 2), (0xBFFF, 3)]
    Memory.wf m = true ∧ Memory.wf m' = true ∧ m ≠ m' ∧
      ∀ a, 0x8000 ≤ a → a ≤ 0xBFFF → Memory.read m a = Memory.read m' a := by
  refine ⟨by decide, by decide, by decide, fun a h1 h2 => ?_⟩
  have e1 : a ≠ 0x7FFF := by omega
  have e2 : a ≠ 0xC000 := by omega
  simp [Memory.read, sparseRead, e1, e2]

/-- DefaultGraphicsFormats: a byte of VRAM that is 0x00 and one that is not. -/
theorem witness_DefaultGraphicsFormats :
    Memory.read [(0x8000, 0x05)] (0x8000 + (0 % 128) * 64 + 0 * 8 + 7) = 0 ∧
    Memory.read [(0xA000, 0x05)] (0xA000 + (32 % 32) * 256 + 0 * 16 + 0) ≠ 0 := by decide

/-- LoadProgramWritesItsImage: an image that just fits, one that does not, and the three kinds of load address. -/
theorem witness_LoadProgramWritesItsImage :
    Memory.wf used.mem = true ∧ (0xFFFF : Addr).toNat + [(0x36 : Byte)].length ≤ 0x10000 ∧
    0x10000 < (0xFFFF : Addr).toNat + [(0 : Byte), 0].length ∧
    ((0x0000 : Addr) ≠ 0x0200 ∧ (0x0000 : Addr) ≠ 0xC000) := by decide

theorem witness_ResetRestoresTheBlock :
    (∀ image ∈ used.images, image.1.toNat + image.2.length ≤ 0x10000) ∧ used.images = [] ++ [(0x0200, [0x10, 0x01])] ∧
    (ab 1 2).images = [] ∧ (after [0x36] used).run ≠ .running ∧ HostCommand.tickFrame ≠ .reset := by decide

/-- FreshMachineIsAReset: a machine that has run, with nothing loaded. -/
theorem witness_FreshMachineIsAReset :
    (ab 1 2).images = [] ∧ (ab 1 2).entry = 0x0200 ∧ (ab 1 2).config = defaultConfig ∧ (ab 1 2).terminal = [] ∧
    (ab 1 2).cyclesPerFrame = Config.cyclesPerFrame :=
  ⟨rfl, rfl, rfl, rfl, rfl⟩

end Sys2Proof.Tests
end

section
/-!
PROOFS. The state (spec/10_state.md): the invariant (R23 to R37), the run state (R28), the SP's region (R24), what is
never written (R39, R41), the model's memory (R32), the flags byte (R26) and the table of the flags (R27).
-/

namespace Sys2Proof.Machine

/-! ## The invariant -/

/-- The invariant's clauses about the GPU. -/
theorem State.Inv.gpuOk {s : State} (h : s.Inv) : GpuOk s.config s.gpu :=
  ⟨h.fbWf, h.fbDepth, h.tiles0Wf, h.tiles1Wf⟩

/-- The cycle counter is no part of the invariant. -/
theorem State.Inv.tick {s : State} (h : s.Inv) : s.tick.Inv := { h with }

/-- An operation that keeps what `Kept` says and the fault record, with the PC and the queue in their ranges, keeps the
invariant, provided the core is Faulted after it exactly when it was before. -/
theorem State.Inv.of_kept {s t : State} (h : s.Inv) (k : Kept s t) (hpc : t.pc ≤ 0x10000)
    (hrun : t.run = .faulted ↔ s.run = .faulted) (hfault : t.fault = s.fault)
    (hqueue : t.queue = [] ∨ t.queue = [s.config.vblankVector]) : t.Inv := by
  obtain ⟨spLow, spHigh⟩ := k.sp ⟨h.spLow, h.spHigh⟩
  have g : GpuOk t.config t.gpu := by rw [k.config]; exact k.gpu h.gpuOk
  exact
    { memWf := k.memWf h.memWf
      pcRange := hpc
      spLow := spLow
      spHigh := spHigh
      faultIff := by rw [hfault, h.faultIff]; exact decide_eq_decide.2 hrun.symm
      faultAddr := by rw [hfault]; exact h.faultAddr
      faultDetail := by rw [hfault]; exact h.faultDetail
      queueShape := by rw [k.config]; exact hqueue
      configWf := by rw [k.config]; exact h.configWf
      fbWf := g.fbWf
      fbDepth := g.fbDepth
      tiles0Wf := g.tiles0Wf
      tiles1Wf := g.tiles1Wf
      imagesFit := by rw [k.images]; exact h.imagesFit
      entryFixed := by rw [k.entry]; exact h.entryFixed }

/-- A fault keeps the invariant when the address it reports is in the range of R29: the record's own address is the PC,
which is in range. -/
theorem State.Inv.takeFault {s : State} (h : s.Inv) {c : FaultCause}
    (hc : ∀ a, c = .memoryBoundsViolation a → a ≤ 0x10000) : (s.takeFault c).Inv :=
  { h with
    faultIff := rfl
    faultAddr := by rintro r ⟨⟩; exact h.pcRange
    faultDetail := by rintro r a ⟨⟩; exact hc a }

/-- A dispatch keeps the invariant (R313): its target was checked, and the queue held nothing behind the vector. -/
theorem State.Inv.dispatch {s t : State} (h : s.Inv) {v : Addr} {rest : List Addr} (hq : s.queue = v :: rest)
    (hd : settle s (enterInterrupt v rest s) = .next t) : t.Inv := by
  have hpc := h.pcRange
  have hrest : rest = [] := by
    obtain e | e := h.queueShape <;> rw [hq] at e
    · cases e
    · exact (List.cons.inj e).2
  obtain ⟨c, rfl, hc⟩ | ⟨hx, -, -, k, tpc, trun, tfault, tqueue⟩ := dispatch_cases hd
  · exact h.takeFault fun a ha => by rcases hc a ha with _ | _ <;> omega
  · have hv := executable_le hx
    exact h.of_kept k (by omega) (by rw [trun]) tfault (.inl (tqueue.trans hrest))

/-- An instruction that lies inside the address space keeps the invariant, executed by a Running core. -/
theorem State.Inv.exec {i : Instr} {s t : State} (h : s.Inv) (hr : s.run = .running)
    (hi : s.pc + i.length ≤ 0x10000) (he : exec i s = .next t) : t.Inv := by
  obtain ⟨c, rfl, hc⟩ | e := exec_cases he
  · exact h.takeFault fun a ha => by rcases hc a ha with _ | _ <;> omega
  · have hpc : t.pc ≤ 0x10000 := by
      rcases e.pc with hpc | hx
      · omega
      · have := executable_le hx; omega
    have hrun : t.run = .faulted ↔ s.run = .faulted := by rw [e.run, hr]; split <;> simp
    exact h.of_kept e.kept hpc hrun e.fault (by rw [e.queue]; exact h.queueShape)

/-- Settles O14, by the four things a step can do. -/
theorem everyStepKeepsTheInvariant : Obligations.EveryStepKeepsTheInvariant := by
  intro s t h hstep
  obtain ⟨-, rfl⟩ | ⟨-, v, rest, hq, hd⟩ | ⟨-, -, c, hf, rfl⟩ | ⟨hr, -, i, hf, he⟩ := step_cases hstep
  · exact h
  · exact h.tick.dispatch hq hd
  · exact h.tick.takeFault (fetchInstr_error_range h.pcRange hf)
  · exact h.tick.exec hr (fetchInstr_range hf).2 he

theorem defaultConfig_wf : defaultConfig.wf = true := by decide

/-- Settles O13: memory, framebuffer and grids are empty, and the default configuration is well-formed. -/
theorem resetStateMeetsTheInvariant : Obligations.ResetStateMeetsTheInvariant :=
  have g : GpuOk defaultConfig Gpu.reset := gpuOk_reset defaultConfig
  { memWf := rfl
    pcRange := by decide
    spLow := by decide
    spHigh := by decide
    faultIff := rfl
    faultAddr := by rintro r ⟨⟩
    faultDetail := by rintro r a ⟨⟩
    queueShape := .inl rfl
    configWf := defaultConfig_wf
    fbWf := g.fbWf
    fbDepth := g.fbDepth
    tiles0Wf := g.tiles0Wf
    tiles1Wf := g.tiles1Wf
    imagesFit := by rintro image ⟨⟩
    entryFixed := .inl rfl }

/-! ## The host's operations -/

/-- A render writes the GPU and the queue only (R354, R359). -/
theorem render_frame (s : State) : ∃ q, render s = { s with gpu := composite s.config s.mem s.gpu, queue := q } := by
  unfold render State.enqueue
  split
  · exact ⟨s.queue, rfl⟩
  · exact ⟨s.queue ++ [s.config.vblankVector], rfl⟩

/-- A load, refused or not, writes memory, the images and the entry point only (R420). -/
theorem hostApply_loadProgram_frame (bytes : List Byte) (a : Addr) (s : State) :
    ∃ m is e, hostApply (.loadProgram bytes a) s = { s with mem := m, images := is, entry := e } := by
  unfold hostApply loadProgram
  dsimp only
  split
  · exact ⟨s.mem, s.images, s.entry, rfl⟩
  · exact ⟨_, _, _, rfl⟩

/-! ## The run state (R28) -/

/-- What an instruction does to the run state: HLT halts, every other one leaves the core Running or faults. -/
theorem exec_run_cases {i : Instr} {s t : State} (hr : s.run = .running) (h : exec i s = .next t) :
    (i = .hlt ∧ t.run = .halted) ∨ (i ≠ .hlt ∧ (t.run = .running ∨ ∃ c, t = s.takeFault c)) := by
  by_cases hi : i = .hlt
  · subst hi; cases h; exact .inl ⟨rfl, rfl⟩
  · obtain ⟨c, ht, -⟩ | e := exec_cases h
    · exact .inr ⟨hi, .inr ⟨c, ht⟩⟩
    · exact .inr ⟨hi, .inl (by rw [e.run, if_neg hi, hr])⟩

/-- What a step of a Running core does to the run state. -/
theorem step_run_cases {s t : State} (hr : s.run = .running) (h : step s = .next t) :
    ((s.queue = [] ∧ fetchInstr s = .ok .hlt) ∧ t.run = .halted) ∨
    (¬(s.queue = [] ∧ fetchInstr s = .ok .hlt) ∧ (t.run = .running ∨ ∃ c, t = s.tick.takeFault c)) := by
  obtain ⟨hn, -⟩ | ⟨-, v, rest, hq, hd⟩ | ⟨-, -, c, hf, ht⟩ | ⟨-, hq, i, hf, he⟩ := step_cases h
  · exact absurd hr hn
  · refine .inr ⟨by simp [hq], ?_⟩
    obtain ⟨c, ht, -⟩ | ⟨-, -, -, -, -, trun, -⟩ := dispatch_cases hd
    · exact .inr ⟨c, ht⟩
    · exact .inl (trun.trans hr)
  · exact .inr ⟨by simp [hf], .inr ⟨c, ht⟩⟩
  · obtain ⟨rfl, ht⟩ | ⟨hi, ht⟩ := exec_run_cases (s := s.tick) hr he
    · exact .inl ⟨⟨hq, hf⟩, ht⟩
    · exact .inr ⟨by simpa [hq, hf] using hi, ht⟩

/-- Of a core that is not Running no host operation but a reset moves the run state. -/
theorem hostApply_run_of_stopped {s : State} {c : HostCommand} (hs : s.run ≠ .running) (hc : c ≠ .reset) :
    (hostApply c s).run = s.run := by
  cases c with
  | step => exact congrArg State.run (hostStep_of_step (step_not_running hs))
  | runCycles n => exact congrArg (fun r => r.2.run) (runCycles_stopped hs n)
  | tickFrame =>
    show (render (runCycles s.cyclesPerFrame s).2).run = s.run
    obtain ⟨q, hrender⟩ := render_frame s
    rw [runCycles_stopped hs, hrender]
  | setCyclesPerFrame n => rfl
  | loadProgram bytes a =>
    obtain ⟨m, is, e, hload⟩ := hostApply_loadProgram_frame bytes a s
    rw [hload]
  | reset => exact absurd rfl hc

/-- Settles O11, by what a step does to the run state. -/
theorem runStateMovesOnlyAsStated : Obligations.RunStateMovesOnlyAsStated := by
  refine ⟨rfl, fun s t hr h => ?_, fun s c hs hc => hostApply_run_of_stopped hs hc, fun _ => rfl⟩
  have faultedRun : (∃ c, t = FaultedFrom { s with cycles := s.cycles + 1 } c) → t.run = .faulted := by
    rintro ⟨c, rfl⟩; rfl
  obtain ⟨hhlt, trun⟩ | ⟨hhlt, trun | ⟨c, rfl⟩⟩ := step_run_cases hr h
  · exact ⟨iff_of_true trun hhlt, by simp [trun], faultedRun⟩
  · exact ⟨iff_of_false (by simp [trun]) hhlt, by simp [trun], faultedRun⟩
  · exact ⟨iff_of_false (by simp) hhlt, iff_of_true rfl ⟨c, rfl⟩⟩

/-! ## The SP (R24) -/

/-- Only the stack operations move the SP; a fault moves nothing. -/
theorem exec_moves_sp {i : Instr} {s t : State} (h : exec i s = .next t) (hsp : t.sp ≠ s.sp) :
    i.opcode ∈ [Opcode.push, .pop, .call, .ret, .reti] := by
  obtain ⟨c, rfl, -⟩ | e := exec_cases h
  · exact absurd rfl hsp
  · exact e.sp hsp

/-- Settles O16. -/
theorem stackPointerStaysInItsRegion : Obligations.StackPointerStaysInItsRegion := by
  refine ⟨fun s t hs h => ?_, fun i s t h hsp => exec_moves_sp h hsp⟩
  rw [← hostStep_of_step h]
  exact (hostStep_kept s).sp hs

/-! ## What the driver keeps (R39, R41) -/

/-- What no operation of the core or the GPU writes: the configuration, the images, the entry point and cyclesPerFrame;
and the terminal stream is only added to. -/
structure DriverKept (s t : State) : Prop where
  config : t.config = s.config
  images : t.images = s.images
  entry : t.entry = s.entry
  cyclesPerFrame : t.cyclesPerFrame = s.cyclesPerFrame
  terminal : ∃ out, t.terminal = s.terminal ++ out

theorem DriverKept.refl (s : State) : DriverKept s s := ⟨rfl, rfl, rfl, rfl, [], (List.append_nil _).symm⟩

theorem DriverKept.trans {s t u : State} (h : DriverKept s t) (h' : DriverKept t u) : DriverKept s u := by
  obtain ⟨out, ho⟩ := h.terminal
  obtain ⟨out', ho'⟩ := h'.terminal
  exact ⟨h'.config.trans h.config, h'.images.trans h.images, h'.entry.trans h.entry,
    h'.cyclesPerFrame.trans h.cyclesPerFrame, out ++ out', by rw [ho', ho, List.append_assoc]⟩

theorem hostStep_driverKept (s : State) : DriverKept s (hostStep s) :=
  have k := hostStep_kept s
  ⟨k.config, k.images, k.entry, k.cyclesPerFrame, k.terminal⟩

theorem runCycles_driverKept (n : Nat) (s : State) : DriverKept s (runCycles n s).2 :=
  runCycles_keeps (P := DriverKept s) (fun t h => h.trans (hostStep_driverKept t)) n s (.refl s)

theorem render_driverKept (s : State) : DriverKept s (render s) := by
  obtain ⟨q, hrender⟩ := render_frame s
  rw [hrender]
  exact ⟨rfl, rfl, rfl, rfl, [], (List.append_nil _).symm⟩

theorem tickFrame_driverKept (s : State) : DriverKept s (tickFrame s) :=
  (runCycles_driverKept s.cyclesPerFrame s).trans (render_driverKept _)

theorem hostReset_driverKept (s : State) : DriverKept s (hostReset s) :=
  ⟨rfl, rfl, rfl, rfl, [], (List.append_nil _).symm⟩

/-- Every host operation but the two that have fields of their own keeps all of the driver's state. -/
theorem hostApply_driverKept {c : HostCommand} (s : State) (hload : ¬∃ bytes a, c = .loadProgram bytes a)
    (hset : ¬∃ n, c = .setCyclesPerFrame n) : DriverKept s (hostApply c s) := by
  cases c with
  | step => exact hostStep_driverKept s
  | runCycles n => exact runCycles_driverKept n s
  | tickFrame => exact tickFrame_driverKept s
  | setCyclesPerFrame n => exact absurd ⟨n, rfl⟩ hset
  | loadProgram bytes a => exact absurd ⟨bytes, a, rfl⟩ hload
  | reset => exact hostReset_driverKept s

/-- Settles O18: a load and `setCyclesPerFrame` write their own fields, the other operations none of the driver's. -/
theorem configurationIsNeverWritten : Obligations.ConfigurationIsNeverWritten := by
  intro c s
  by_cases hload : ∃ bytes a, c = .loadProgram bytes a
  · obtain ⟨bytes, a, rfl⟩ := hload
    obtain ⟨m, is, e, h⟩ := hostApply_loadProgram_frame bytes a s
    rw [h]
    exact ⟨rfl, fun hc => absurd rfl (hc bytes a), fun _ => rfl, fun _ => rfl, [], (List.append_nil _).symm⟩
  · by_cases hset : ∃ n, c = .setCyclesPerFrame n
    · obtain ⟨n, rfl⟩ := hset
      exact ⟨rfl, fun _ => ⟨rfl, rfl⟩, fun hc => absurd rfl (hc n), fun _ => rfl, [], (List.append_nil _).symm⟩
    · have k := hostApply_driverKept s hload hset
      exact ⟨k.config, fun _ => ⟨k.images, k.entry⟩, fun _ => k.cyclesPerFrame, fun _ => rfl, k.terminal⟩

/-! ## Memory (R32, R78) -/

/-- Settles O19, by the laws of canonical lists. -/
theorem canonicalMemoriesThatReadAlikeAreEqual : Obligations.CanonicalMemoriesThatReadAlikeAreEqual :=
  ⟨fun _ _ h h' he => Memory.ext h h' he,
    fun _ a v h => ⟨Memory.wf_write_addr h a v, fun b => Memory.read_write h a.toNat v b⟩⟩

/-! ## The flags byte (R26) -/

theorem flags_number_lt (f : Flags) : f.number < 16 := by
  have := f.v.toNat_le; have := f.n.toNat_le; have := f.c.toNat_le; have := f.z.toNat_le
  unfold Flags.number
  omega

/-- Settles O20. -/
theorem flagsByteHoldsFourFlags : Obligations.FlagsByteHoldsFourFlags :=
  ⟨fun f => ⟨flags_toByte_toNat f, by rw [flags_toByte_toNat]; exact flags_number_lt f, flags_ofByte_toByte f⟩,
    fun b => by rw [flags_toByte_toNat, flags_ofByte_number]⟩

/-! ## The table of the flags (R27) -/

@[simp] theorem portWrite_flags (s : State) (p v : Byte) : (portWrite s p v).flags = s.flags := by
  unfold portWrite
  split_ifs
  · rfl
  · rfl
  · rfl
  · rfl
  · cases handlerOf s.config.ports p <;> rfl

@[simp] theorem readSideEffect_flags (s : State) (h : PortHandler) (v : Byte) :
    (readSideEffect s h v).flags = s.flags := by
  unfold readSideEffect
  cases h.readEffect <;> rfl

@[simp] theorem portRead_flags (s : State) (p : Byte) : (portRead s p).2.flags = s.flags := by
  unfold portRead
  split
  · rfl
  · cases handlerOf s.config.ports p with
    | none => rfl
    | some h =>
      dsimp only
      cases h.read with
      | blockFunction id => exact readSideEffect_flags s h _
      | externalInput => exact readSideEffect_flags { s with inputDraws := s.inputDraws + 1 } h _

/-- Data movement, ports and control transfers, RETI apart, leave all four flags (decision D7). -/
theorem exec_keeps_flags {i : Instr} {s t : State} (h : exec i s = .next t)
    (hi : i.opcode ∈ [Opcode.movReg, .movImm, .load, .store, .push, .pop, .inPort, .outPort, .jmp, .jz, .jnz, .call,
      .ret, .hlt]) : t.flags = s.flags := by
  cases i
  case movReg | movImm | load | hlt => cases h; rfl
  case store p r =>
    have h := (execStore_eq p r s).symm.trans h
    split at h <;> cases h <;> rfl
  case push r =>
    have h := (execPush_eq r s).symm.trans h
    split at h <;> cases h <;> rfl
  case pop r =>
    have h := (execPop_eq r s).symm.trans h
    split at h <;> cases h <;> rfl
  case jmp a =>
    have h := (execJmp_eq a s).symm.trans h
    split at h <;> cases h <;> rfl
  case jz a =>
    have h := (execJz_eq a s).symm.trans h
    split_ifs at h <;> cases h <;> rfl
  case jnz a =>
    have h := (execJnz_eq a s).symm.trans h
    split_ifs at h <;> cases h <;> rfl
  case call a =>
    have h := (execCall_eq a s).symm.trans h
    split_ifs at h <;> cases h <;> rfl
  case ret =>
    have h := (execRet_eq s).symm.trans h
    split_ifs at h <;> cases h <;> rfl
  case outPort p r => cases h; exact portWrite_flags (s.advance 3) p (s.reg r)
  case inPort r p => cases h; exact portRead_flags (s.advance 3) p
  all_goals simp [Instr.opcode] at hi

/-- INC, DEC and the logic instructions leave C and V (decisions D9, D10). -/
theorem exec_keeps_c_v {i : Instr} {s t : State} (h : exec i s = .next t)
    (hi : i.opcode ∈ [Opcode.inc, .dec, .andReg, .andImm, .orReg, .orImm, .xorReg, .xorImm, .notReg]) :
    t.flags.c = s.flags.c ∧ t.flags.v = s.flags.v := by
  cases i
  case inc | dec | andReg | andImm | orReg | orImm | xorReg | xorImm | notReg => cases h; exact ⟨rfl, rfl⟩
  all_goals simp [Instr.opcode] at hi

/-- MUL, DIV and the shifts leave V (decisions D11, D12). -/
theorem exec_keeps_v {i : Instr} {s t : State} (h : exec i s = .next t)
    (hi : i.opcode ∈ [Opcode.mulReg, .mulImm, .divReg, .divImm, .shl, .shr]) : t.flags.v = s.flags.v := by
  cases i
  case mulReg | mulImm | shl | shr => cases h; rfl
  case divReg r =>
    have h := (settle_divideBy (s.reg r) s).symm.trans h
    split at h <;> cases h <;> rfl
  case divImm imm =>
    have h := (settle_divideBy imm s).symm.trans h
    split at h <;> cases h <;> rfl
  all_goals simp [Instr.opcode] at hi

/-- An instruction that faults changes no flag (R302). -/
theorem exec_fault_keeps_flags {i : Instr} {s t : State} (hr : s.run = .running) (h : exec i s = .next t)
    (ht : t.run = .faulted) : t.flags = s.flags := by
  obtain ⟨-, e⟩ | ⟨-, e | ⟨c, rfl⟩⟩ := exec_run_cases hr h
  · rw [e] at ht; cases ht
  · rw [e] at ht; cases ht
  · rfl

/-- Settles O21, a row of the table at a time. -/
theorem flagsChangeOnlyAsTheTableSays : Obligations.FlagsChangeOnlyAsTheTableSays :=
  fun _ _ _ h => ⟨exec_keeps_flags h, exec_keeps_c_v h, exec_keeps_v h, fun hr ht => exec_fault_keeps_flags hr h ht⟩

end Sys2Proof.Machine
end

section
/-!
PROOFS. Memory (spec/20_memory.md): ROM is never written (R63, R67, R68, R80).
-/

namespace Sys2Proof.Machine

/-- A step reads back every byte of ROM as it was: a store there faults (R67), and a push writes below 0x0200 while the SP
is in the stack region (R24), which is `Kept.rom`. -/
theorem step_keeps_rom {s t : State} (hw : Memory.wf s.mem = true) (hs : s.spInStack) (h : step s = .next t) {a : Nat}
    (ha : 0xC000 ≤ a) : Memory.read t.mem a = Memory.read s.mem a := by
  rw [← hostStep_of_step h]
  exact (hostStep_kept s).rom hw hs a ha

/-- Settles O17. -/
theorem noStepChangesRom : Obligations.NoStepChangesRom :=
  fun _ _ _ hw hs h ha => step_keeps_rom hw hs h ha

end Sys2Proof.Machine
end

section
/-!
PROOFS. Encodings and decoding (spec/30_encoding.md): an instruction's bytes decode to it under every opcode map (R90 to
R97), and which bytes do not decode (R93 to R95, R98).
-/

namespace Sys2Proof

/-! ## Encode, then decode (R90 to R97) -/

/-- An instruction is as long as its opcode byte and its operand bytes. -/
theorem encoded_length (op : Byte) (i : Instr) : (op :: i.operands).length = i.length := by
  have harity : i.operands.length = i.opcode.operandBytes := (operandCodec i).1
  rw [List.length_cons, harity, Instr.length, Opcode.length, Nat.add_comm]

theorem Instr.one_le_length (i : Instr) : 1 ≤ i.length := Nat.le_add_right 1 _

theorem Instr.length_le_three (i : Instr) : i.length ≤ 3 := Nat.add_le_add_left i.opcode.operandBytes_le 1

/-- A well-formed instruction's encoding is the byte the map gives its opcode, and its operand bytes. -/
theorem encode_of_wf {m : OpcodeMap} {i : Instr} (hi : i.wf m = true) : ∃ op, encode m i = some (op :: i.operands) := by
  obtain ⟨op, hop⟩ := OpcodeMap.byteOf_of_names hi
  exact ⟨op, by simp [encode, hop]⟩

/-- Settles O1: the bytes are `encode_of_wf`'s, and `decode_encode` reads them back. -/
theorem encodeThenDecodeGivesTheInstruction : Obligations.EncodeThenDecodeGivesTheInstruction := by
  intro m i hm hi
  obtain ⟨op, henc⟩ := encode_of_wf hi
  have hlen := encoded_length op i
  exact ⟨op :: i.operands, henc, hlen, hlen ▸ i.one_le_length, hlen ▸ i.length_le_three, decode_encode hm henc⟩

/-- Settles O5: each word is an opcode byte and the operand bytes of its instruction. -/
theorem exampleWordsDecode : Obligations.ExampleWordsDecode :=
  ⟨decode_of_lookup (i := .movReg .a .b) rfl [],
    decode_of_lookup (i := .movImm .x 0x00) rfl [],
    decode_of_lookup (i := .load .a .x) rfl [],
    decode_of_lookup (i := .store .x .a) rfl [],
    decode_of_lookup (i := .subImm .c 0x03) rfl [],
    decode_of_lookup (i := .notReg .b) rfl [],
    decode_of_lookup (i := .call 0x020B) rfl [],
    decode_of_lookup (i := .outPort 0x01 .a) rfl [],
    decode_of_lookup (i := .inPort .b 0x7F) rfl [],
    decode_of_lookup (i := .cmpImm .a 0x00) rfl []⟩

/-! ## Opcode bytes that do not decode (R98 (a)) -/

/-- Once its opcode byte is looked up, no byte sequence is rejected for an unknown opcode. -/
theorem decodedWith_ne_unknownOpcode (r : Except BadOperand Instr) (rest : List Byte) (op : Byte) :
    decodedWith r rest ≠ .error (.unknownOpcode op) := by
  cases r <;> simp [decodedWith]

/-- The decoder rejects an opcode byte exactly when the map does not list it. -/
theorem decode_unknownOpcode_iff (m : OpcodeMap) (op : Byte) (rest : List Byte) :
    decode m (op :: rest) = .error (.unknownOpcode op) ↔ m.lookup op = none := by
  cases hl : m.lookup op with
  | none => simp [decode, hl]
  | some o =>
    simp only [decode, hl, reduceCtorEq, iff_false]
    split
    · exact decodedWith_ne_unknownOpcode _ _ _
    · exact decodedWith_ne_unknownOpcode _ _ _
    · exact decodedWith_ne_unknownOpcode _ _ _
    · simp

/-- Settles O3: the default map read over the 256 bytes. -/
theorem unassignedOpcodeBytesDoNotDecode : Obligations.UnassignedOpcodeBytesDoNotDecode := by
  intro b rest
  rw [decode_unknownOpcode_iff]
  revert b
  decide

/-! ## Operand bytes that do not decode (R93 to R95, R98 (b) to (d)) -/

theorem regOfCode_eq_none_iff (c : BitVec 4) : regOfCode c = none ↔ 5 < c.toNat := by
  revert c; decide

theorem baseOfCode_eq_none_iff (c : BitVec 4) : baseOfCode c = none ↔ c.toNat ∉ [0, 2, 4] := by
  revert c; decide

theorem hiNibble_toNat (b : Byte) : (hiNibble b).toNat = b.toNat / 16 := by
  revert b; decide

theorem loNibble_toNat (b : Byte) : (loNibble b).toNat = b.toNat % 16 := by
  revert b; decide

/-- An R byte names a register exactly when, as a number, it is a register code. -/
theorem regOfRByte_eq_none_iff (b : Byte) : regOfRByte b = none ↔ 5 < b.toNat := by
  revert b; decide

/-- A format's R byte is rejected exactly when it is, as a number, no register code. -/
theorem decodeR_iff (k : Nat) (b : Byte) (mk : Reg → Instr) :
    (decodeR k b mk = .error (k, b) ↔ 5 < b.toNat) ∧ ((∃ i, decodeR k b mk = .ok i) ↔ b.toNat ≤ 5) := by
  rw [← Nat.not_lt, ← regOfRByte_eq_none_iff]
  cases hr : regOfRByte b <;> simp [decodeR, hr]

/-- An RR byte is rejected exactly when one of its fields is no register code. -/
theorem decodeRR_iff (b : Byte) (mk : Reg → Reg → Instr) :
    (decodeRR b mk = .error (1, b) ↔ 5 < b.toNat / 16 ∨ 5 < b.toNat % 16) ∧
    ((∃ i, decodeRR b mk = .ok i) ↔ b.toNat / 16 ≤ 5 ∧ b.toNat % 16 ≤ 5) := by
  rw [← Nat.not_lt, ← Nat.not_lt, ← hiNibble_toNat, ← loNibble_toNat, ← regOfCode_eq_none_iff, ← regOfCode_eq_none_iff]
  cases hr : regOfCode (hiNibble b) <;> cases hs : regOfCode (loNibble b) <;> simp [decodeRR, hr, hs]

/-- LOAD's operand byte is rejected exactly when its high field is no register code or its low field no base. -/
theorem decodeOperands_load_iff (b b2 : Byte) :
    (decodeOperands .load b b2 = .error (1, b) ↔ 5 < b.toNat / 16 ∨ b.toNat % 16 ∉ [0, 2, 4]) ∧
    ((∃ i, decodeOperands .load b b2 = .ok i) ↔ b.toNat / 16 ≤ 5 ∧ b.toNat % 16 ∈ [0, 2, 4]) := by
  rw [← Nat.not_lt, ← hiNibble_toNat, ← loNibble_toNat, ← regOfCode_eq_none_iff,
    ← not_not (a := (loNibble b).toNat ∈ [0, 2, 4]), ← baseOfCode_eq_none_iff]
  cases hr : regOfCode (hiNibble b) <;> cases hp : baseOfCode (loNibble b) <;> simp [decodeOperands, hr, hp]

/-- STORE's operand byte is rejected exactly when its high field is no base or its low field no register code. -/
theorem decodeOperands_store_iff (b b2 : Byte) :
    (decodeOperands .store b b2 = .error (1, b) ↔ b.toNat / 16 ∉ [0, 2, 4] ∨ 5 < b.toNat % 16) ∧
    ((∃ i, decodeOperands .store b b2 = .ok i) ↔ b.toNat / 16 ∈ [0, 2, 4] ∧ b.toNat % 16 ≤ 5) := by
  rw [← Nat.not_lt, ← hiNibble_toNat, ← loNibble_toNat, ← regOfCode_eq_none_iff,
    ← not_not (a := (hiNibble b).toNat ∈ [0, 2, 4]), ← baseOfCode_eq_none_iff]
  cases hp : baseOfCode (hiNibble b) <;> cases hr : regOfCode (loNibble b) <;> simp [decodeOperands, hr, hp]

/-- Settles O4: each opcode's operand decoder is that of its format. -/
theorem operandBytesThatDoNotDecode : Obligations.OperandBytesThatDoNotDecode := by
  intro b1 b2
  obtain ⟨loadError, loadOk⟩ := decodeOperands_load_iff b1 b2
  obtain ⟨storeError, storeOk⟩ := decodeOperands_store_iff b1 b2
  obtain ⟨outError, outOk⟩ := decodeR_iff 2 b2 fun r => .outPort b1 r
  refine ⟨fun o ho => ?_, fun o ho => ?_, loadError, loadOk, storeError, storeOk, outError, outOk, fun o ho => ?_⟩
  · obtain ⟨mk, e⟩ : ∃ mk, decodeOperands o b1 b2 = decodeR 1 b1 mk := by fin_cases ho <;> exact ⟨_, rfl⟩
    rw [e]; exact decodeR_iff 1 b1 mk
  · obtain ⟨mk, e⟩ : ∃ mk, decodeOperands o b1 b2 = decodeRR b1 mk := by fin_cases ho <;> exact ⟨_, rfl⟩
    rw [e]; exact decodeRR_iff b1 mk
  · fin_cases ho <;> exact ⟨_, rfl⟩

end Sys2Proof
end

section
/-!
PROOFS. Fetch, decode and execute (spec/30_encoding.md R100 to R102): the instruction a step runs, the faults of fetch and
decode in the order of spec/60_exceptions.md R307, and that a step always answers.
-/

namespace Sys2Proof.Machine

/-! ## The instruction a step runs (R100, R101) -/

/-- The bytes at the PC start with the byte at the PC. -/
theorem bytesAtPc_succ (s : State) (n : Nat) :
    bytesAtPc s (n + 1) = Memory.read s.mem s.pc :: (List.range n).map fun k => Memory.read s.mem (s.pc + (k + 1)) := by
  simp [bytesAtPc, List.range_succ_eq_map, Function.comp_def]

/-- Bytes at the PC that decode, every one of them executable, are the instruction fetched. -/
theorem fetchInstr_of_decode {s : State} {i : Instr} (hx : ∀ k, k < i.length → executable (s.pc + k) = true)
    (hd : decode s.config.opcodeMap (bytesAtPc s i.length) = .ok (i, [])) : fetchInstr s = .ok i := by
  have hlookup : s.config.opcodeMap.lookup (Memory.read s.mem s.pc) = some i.opcode := by
    obtain ⟨n, hn⟩ := Nat.exists_eq_add_one.2 i.one_le_length
    rw [hn, bytesAtPc_succ] at hd
    exact lookup_of_decode hd
  have hd' : decode s.config.opcodeMap (bytesAtPc s i.opcode.length) = .ok (i, []) := hd
  rw [fetchInstr_of_bytes (hx 0 i.one_le_length) hlookup hx, hd']

/-- Settles O6. -/
theorem stepRunsTheDecodedInstruction : Obligations.StepRunsTheDecodedInstruction := by
  intro s i hr hq hx hd
  rw [step_fetch hr hq, fetchInstr_of_decode hx hd]
  rfl

/-! ## The faults of fetch and decode (R66, R98, R307 (2 to 5)) -/

/-- R307 (2): the opcode byte cannot be fetched. -/
theorem fetchInstr_opcode_unfetchable {s : State} (h0 : executable s.pc = false) :
    fetchInstr s = .error (.memoryBoundsViolation s.pc) := by
  simp [fetchInstr, fetch8_error (ne_true_of_eq_false h0), bind, Except.bind]

/-- R307 (3): the opcode byte is not in the map. -/
theorem fetchInstr_opcode_unknown {s : State} (h0 : executable s.pc = true)
    (hl : s.config.opcodeMap.lookup (Memory.read s.mem s.pc) = none) :
    fetchInstr s = .error (.invalidOpcode s.pc (Memory.read s.mem s.pc)) := by
  simp [fetchInstr, fetch8_ok h0, hl, bind, Except.bind]

/-- R307 (4): the first operand byte cannot be fetched. -/
theorem fetchInstr_operand1_unfetchable {s : State} {o : Opcode} (h0 : executable s.pc = true)
    (hl : s.config.opcodeMap.lookup (Memory.read s.mem s.pc) = some o) (hlen : 2 ≤ o.length)
    (h1 : executable (s.pc + 1) = false) : fetchInstr s = .error (.memoryBoundsViolation (s.pc + 1)) := by
  have hops : 1 ≤ o.operandBytes := Nat.le_of_add_le_add_left (a := 1) hlen
  simp [fetchInstr, fetch8_ok h0, hl, fetchOperand_error hops (ne_true_of_eq_false h1), bind, Except.bind]

/-- R307 (4): the first operand byte can be fetched, and the second cannot. -/
theorem fetchInstr_operand2_unfetchable {s : State} {o : Opcode} (h0 : executable s.pc = true)
    (hl : s.config.opcodeMap.lookup (Memory.read s.mem s.pc) = some o) (hlen : 3 ≤ o.length)
    (h1 : executable (s.pc + 1) = true) (h2 : executable (s.pc + 2) = false) :
    fetchInstr s = .error (.memoryBoundsViolation (s.pc + 2)) := by
  have hops : 2 ≤ o.operandBytes := Nat.le_of_add_le_add_left (a := 1) hlen
  simp [fetchInstr, fetch8_ok h0, hl, fetchOperand_ok (Nat.le_of_succ_le hops) h1,
    fetchOperand_error hops (ne_true_of_eq_false h2), bind, Except.bind]

/-- R307 (5): an operand byte does not decode. -/
theorem fetchInstr_operand_undecodable {s : State} {o : Opcode}
    (hl : s.config.opcodeMap.lookup (Memory.read s.mem s.pc) = some o)
    (hx : ∀ j, j < o.length → executable (s.pc + j) = true) {k : Nat} {b : Byte}
    (hd : decode s.config.opcodeMap (bytesAtPc s o.length) = .error (.badOperand k b)) :
    fetchInstr s = .error (.invalidOpcode (s.pc + k) b) := by
  rw [fetchInstr_of_bytes (hx 0 (Nat.le_add_right 1 _)) hl hx, hd]

/-- A step whose fetch faults takes that fault, its cycle counted. -/
theorem step_of_fetch_error {s : State} (hr : s.run = .running) (hq : s.queue = []) {c : FaultCause}
    (hf : fetchInstr s = .error c) : step s = .next (FaultedFrom { s with cycles := s.cycles + 1 } c) := by
  rw [step_fetch hr hq, hf]
  rfl

/-- Settles O7: one lemma for each fault. -/
theorem fetchAndDecodeFaultsComeInOrder : Obligations.FetchAndDecodeFaultsComeInOrder := by
  intro s hr hq
  have faults {c : FaultCause} := step_of_fetch_error (c := c) hr hq
  refine ⟨fun h0 => ?_, fun h0 hl => ?_, fun o h0 hl => ⟨fun hlen h1 => ?_, fun hlen h1 h2 => ?_, fun k b hx hd => ?_⟩⟩
  · exact faults (fetchInstr_opcode_unfetchable h0)
  · exact faults (fetchInstr_opcode_unknown h0 hl)
  · exact faults (fetchInstr_operand1_unfetchable h0 hl hlen h1)
  · exact faults (fetchInstr_operand2_unfetchable h0 hl hlen h1 h2)
  · exact faults (fetchInstr_operand_undecodable hl hx hd)

/-! ## A step always answers (R99, R302, R305) -/

/-- Settles O10. -/
theorem everyStepAnswersANextState : Obligations.EveryStepAnswersANextState := ⟨step_next, exec_next⟩

end Sys2Proof.Machine
end

section
/-!
PROOFS. Data movement (spec/40_data_movement.md): MOV, LOAD and STORE (R120 to R123), PUSH and POP (R124 to R127). Each
statement is an encoding, what the instruction does in each case, and the frame of its shape.
-/

namespace Sys2Proof

/-! ## The encodings with a base (R95) -/

theorem encodedAs_load (r : Reg) (p : Base) : EncodedAs (.load r p) [0x03, rrNumber r.number p.number] :=
  rrByte_reg_base r p ▸ encodedAs_default rfl

theorem encodedAs_store (p : Base) (r : Reg) : EncodedAs (.store p r) [0x04, rrNumber p.number r.number] :=
  rrByte_base_reg p r ▸ encodedAs_default rfl

/-- The odd register codes name no base (R95). -/
theorem baseOfCode_of_not_base {q : Reg} (hq : q ∈ [Reg.b, .d, .y]) : baseOfCode q.code = none := by
  fin_cases hq <;> rfl

/-- A LOAD whose base is a high register does not decode (R98 (d)). -/
theorem decode_load_of_not_base (r : Reg) {q : Reg} (hq : q ∈ [Reg.b, .d, .y]) (rest : List Byte) :
    decode defaultOpcodeMap (0x03 :: rrNumber r.number q.number :: rest) =
      .error (.badOperand 1 (rrNumber r.number q.number)) := by
  have hd : decodeOperands .load (rrByte r.code q.code) 0 = .error (1, rrByte r.code q.code) := by
    simp [decodeOperands, baseOfCode_of_not_base hq]
  rw [← rrByte_regs]
  exact congrArg (decodedWith · rest) hd

/-- A STORE whose base is a high register does not decode (R98 (d)). -/
theorem decode_store_of_not_base {q : Reg} (hq : q ∈ [Reg.b, .d, .y]) (r : Reg) (rest : List Byte) :
    decode defaultOpcodeMap (0x04 :: rrNumber q.number r.number :: rest) =
      .error (.badOperand 1 (rrNumber q.number r.number)) := by
  have hd : decodeOperands .store (rrByte q.code r.code) 0 = .error (1, rrByte q.code r.code) := by
    simp [decodeOperands, baseOfCode_of_not_base hq]
  rw [← rrByte_regs]
  exact congrArg (decodedWith · rest) hd

end Sys2Proof

namespace Sys2Proof.Machine

/-! ## The instructions that can fault, a case at a time -/

theorem exec_store_outside_rom {p : Base} {s : State} (r : Reg) (h : (pairAddress s.regs p).toNat < 0xC000) :
    exec (.store p r) s = .next ((s.advance 2).storeByte (pairAddress s.regs p) (s.reg r)) :=
  (execStore_eq p r s).trans (if_neg (Nat.not_le.2 h))

theorem raises_store_in_rom {p : Base} {s : State} (r : Reg) (h : 0xC000 ≤ (pairAddress s.regs p).toNat) :
    Raises (.store p r) s (.memoryBoundsViolation (pairAddress s.regs p).toNat) :=
  (execStore_eq p r s).trans (if_pos h)

theorem exec_push_of_room {s : State} (r : Reg) (h : 0x0101 ≤ s.sp.toNat) :
    exec (.push r) s = .next (push8 (s.advance 2) (s.reg r)) :=
  (execPush_eq r s).trans (if_pos h)

theorem raises_push_full {s : State} (r : Reg) (h : s.sp.toNat < 0x0101) : Raises (.push r) s (.stackOverflow s.sp) :=
  (execPush_eq r s).trans (if_neg (Nat.not_le.2 h))

theorem exec_pop_of_held {s : State} (r : Reg) (h : s.sp.toNat ≤ 0x01FE) :
    exec (.pop r) s = .next ((pop8 (s.advance 2)).2.setReg r (Memory.read s.mem s.sp.toNat)) :=
  (execPop_eq r s).trans (if_pos h)

theorem raises_pop_empty {s : State} (r : Reg) (h : 0x01FE < s.sp.toNat) : Raises (.pop r) s (.stackUnderflow s.sp) :=
  (execPop_eq r s).trans (if_neg (Nat.not_le.2 h))

/-! ## Frames of one stored byte and of a pop -/

/-- After a store of one byte: the byte, and no other changed. -/
theorem storeByte_frame {s : State} (hw : Memory.wf s.mem = true) (a : Addr) (v : Byte) :
    Memory.read (s.storeByte a v).mem a.toNat = v ∧ SameMemoryBut a.toNat 1 s (s.storeByte a v) :=
  ⟨Memory.read_write_same hw _ v, fun _ hb => Memory.read_write_ne hw v (by omega)⟩

/-- After Push8: the byte at sp - 1, and no other changed (R125). -/
theorem push8_frame {s : State} (hw : Memory.wf s.mem = true) (v : Byte) :
    Memory.read (push8 s v).mem (s.sp - 1).toNat = v ∧ SameMemoryBut (s.sp - 1).toNat 1 s (push8 s v) :=
  storeByte_frame (s := { s with sp := s.sp - 1 }) hw (s.sp - 1) v

/-- A register write changes no other register. -/
theorem sameRegsBut_setReg (s : State) (r : Reg) (v : Byte) : SameRegsBut [r] s (s.setReg r v) :=
  fun _ hq => State.setReg_reg_ne s v (by simpa using hq)

/-! ## LOAD and STORE (R122, R123) -/

/-- Settles O24: the address is read from the registers before the write. -/
theorem loadReadsThroughThePair : Obligations.LoadReadsThroughThePair := by
  refine ⟨fun r p st => ?_, fun r q rest hq => decode_load_of_not_base r hq rest⟩
  have haddr : (pairAddress st.regs p).toNat = pairNumber st p := pairAddress_toNat st p
  have hvalue : st.byteAt (pairAddress st.regs p) = Memory.read st.mem (pairNumber st p) :=
    congrArg (Memory.read st.mem) haddr
  exact ⟨encodedAs_load r p, haddr, _, rfl, (State.setReg_reg_same _ r _).trans hvalue, onlyRegs_setReg st 2 r _, rfl,
    rfl⟩

/-- Settles O25: a store outside ROM writes its byte, a store in ROM faults. -/
theorem storeWritesThroughThePair : Obligations.StoreWritesThroughThePair := by
  refine ⟨fun p r st hw => ⟨encodedAs_store p r, pairAddress_toNat st p, fun h => ?_, raises_store_in_rom r⟩,
    fun q r rest hq => decode_store_of_not_base hq r rest⟩
  obtain ⟨hread, hmem⟩ := storeByte_frame (s := st.advance 2) hw (pairAddress st.regs p) (st.reg r)
  exact ⟨_, exec_store_outside_rom r h, hread, hmem, fun _ _ => rfl, rfl, rfl, rfl, sameOutside_refl st⟩

/-! ## PUSH and POP (R124 to R127) -/

/-- Settles O26: `push8_frame` while there is room, the fault of R124 when there is none. -/
theorem pushStoresBelowTheStackPointer : Obligations.PushStoresBelowTheStackPointer := by
  refine fun r st hw => ⟨encodedAs_r rfl rfl, fun h => ?_, raises_push_full r⟩
  obtain ⟨hread, hmem⟩ := push8_frame (s := st.advance 2) hw (st.reg r)
  exact ⟨_, exec_push_of_room r h, rfl, hread, ⟨fun _ _ => rfl, hmem, sameOutside_refl st⟩, rfl, rfl⟩

/-- Settles O27: the byte at the SP goes to the register, and memory is not written. -/
theorem popReadsAtTheStackPointer : Obligations.PopReadsAtTheStackPointer := by
  refine fun r st => ⟨encodedAs_r rfl rfl, fun h => ?_, raises_pop_empty r⟩
  exact ⟨_, exec_pop_of_held r h, State.setReg_reg_same _ r _, rfl, sameRegsBut_setReg _ r _, fun _ => rfl, rfl, rfl,
    sameOutside_refl st⟩

/-- Settles O28: PUSH leaves its byte at the SP, where POP reads it, and the SP below the empty position. -/
theorem pushThenPopRoundTrips : Obligations.PushThenPopRoundTrips := by
  intro r q st hw hlow hhigh
  obtain ⟨htop, -⟩ := push8_frame (s := st.advance 2) hw (st.reg r)
  have hsp : (push8 (st.advance 2) (st.reg r)).sp.toNat ≤ 0x01FE := by
    rw [push8_sp, State.advance_sp, addr_sub_one_toNat (by omega)]
    omega
  exact ⟨_, _, exec_push_of_room r hlow, exec_pop_of_held q hsp, (State.setReg_reg_same _ q _).trans htop,
    sameRegsBut_setReg _ q _, addr_sub_add_one st.sp, rfl⟩

/-! ## MOV (R120, R121) -/

/-- Settles O22. -/
theorem movRegisterCopies : Obligations.MovRegisterCopies := fun r _ st =>
  ⟨encodedAs_rr rfl rfl, _, rfl, State.setReg_reg_same _ r _, onlyRegs_setReg st 2 r _, rfl, rfl⟩

/-- Settles O23. -/
theorem movImmediateLoads : Obligations.MovImmediateLoads := fun r _ st =>
  ⟨encodedAs_rb rfl rfl, _, rfl, State.setReg_reg_same _ r _, onlyRegs_setReg st 3 r _, rfl, rfl⟩

end Sys2Proof.Machine
end

section
/-!
PROOFS. Arithmetic (spec/41_arithmetic.md R142 to R151): ADD, SUB, MUL, DIV, INC and DEC. Each instruction that completes
ends in `writeResult`, so a statement about it is its encoding, what its flag computation gives, and one frame.
-/

namespace Sys2Proof.Machine

/-! ## Instructions that write a result and the flags -/

section
variable {i : Instr} {s : State} {n : Nat} {r : Reg} {res : Byte × Flags}

/-- An instruction that ends in `writeResult`: whatever holds of the computed result and flags holds of the register and
the flags after it, and nothing else changes but the PC. -/
theorem exec_writeResult_spec {P : Byte → Flags → Prop} (h : exec i s = .next (s.writeResult n r res))
    (hres : P res.1 res.2) :
    ∃ t, exec i s = .next t ∧ P (t.reg r) t.flags ∧ OnlyRegs [r] s t ∧ t.pc = s.pc + n :=
  ⟨_, h, by rwa [writeResult_reg, writeResult_flags], onlyRegs_writeResult s n r res, rfl⟩

/-- An instruction that ends in `writeResult` and keeps C and V: its value, and Z and N from it. -/
theorem exec_writeResult_zeroNegOnly {v : Nat} (h : exec i s = .next (s.writeResult n r res))
    (hvalue : res.1.toNat = v) (hflags : ZeroNegOnly s.flags res.2 res.1) :
    ∃ t, exec i s = .next t ∧ (t.reg r).toNat = v ∧ ZeroNegOnly s.flags t.flags (t.reg r) ∧
      OnlyRegs [r] s t ∧ t.pc = s.pc + n :=
  have ⟨t, hexec, ⟨hreg, hzn⟩, hframe, hpc⟩ :=
    exec_writeResult_spec (P := fun b f => b.toNat = v ∧ ZeroNegOnly s.flags f b) h ⟨hvalue, hflags⟩
  ⟨t, hexec, hreg, hzn, hframe, hpc⟩

end

/-! ## DIV by a divisor, from a register or an immediate (R148, R149) -/

section
variable {i : Instr} {s : State} {divisor : Byte}

theorem exec_div_of_ne_zero (h : exec i s = settle s (divideBy divisor s)) (hd : divisor ≠ 0) :
    ∃ t, exec i s = .next t ∧ IsQuotient (s.reg .a) divisor (t.reg .a) s.flags t.flags ∧ OnlyRegs [.a] s t ∧
      t.pc = s.pc + 2 :=
  have completes : exec i s = .next (s.writeResult 2 .a (divFlags s.flags (s.reg .a) divisor)) :=
    h.trans ((settle_divideBy divisor s).trans (if_neg hd))
  exec_writeResult_spec (P := fun b f => IsQuotient (s.reg .a) divisor b s.flags f) completes
    (divFlags_isQuotient s.flags _ _)

theorem raises_div_of_eq_zero (h : exec i s = settle s (divideBy divisor s)) (hd : divisor = 0) :
    Raises i s .divideByZero :=
  h.trans ((settle_divideBy divisor s).trans (if_pos hd))

end

/-! ## The statements -/

/-- Settles O29, by what AddFlags gives. -/
theorem addGivesTheSumAndItsFlags : Obligations.AddGivesTheSumAndItsFlags :=
  ⟨fun r s st => ⟨encodedAs_rr rfl rfl,
      exec_writeResult_spec (P := IsSum (st.reg r) (st.reg s)) rfl (addFlags_isSum _ _)⟩,
    fun r imm st => ⟨encodedAs_rb rfl rfl,
      exec_writeResult_spec (P := IsSum (st.reg r) imm) rfl (addFlags_isSum _ _)⟩⟩

/-- Settles O30, by what SubFlags gives. -/
theorem subGivesTheDifferenceAndItsFlags : Obligations.SubGivesTheDifferenceAndItsFlags :=
  ⟨fun r s st => ⟨encodedAs_rr rfl rfl,
      exec_writeResult_spec (P := IsDifference (st.reg r) (st.reg s)) rfl (subFlags_isDifference _ _)⟩,
    fun r imm st => ⟨encodedAs_rb rfl rfl,
      exec_writeResult_spec (P := IsDifference (st.reg r) imm) rfl (subFlags_isDifference _ _)⟩⟩

/-- Settles O32: the flag computation is given the old flags, whose V it keeps. -/
theorem mulGivesTheLowProductInA : Obligations.MulGivesTheLowProductInA :=
  ⟨fun s st => ⟨encodedAs_r rfl rfl,
      exec_writeResult_spec (P := fun b f => IsProduct (st.reg .a) (st.reg s) b st.flags f) rfl
        (mulFlags_isProduct st.flags _ _)⟩,
    fun imm st => ⟨encodedAs_default rfl,
      exec_writeResult_spec (P := fun b f => IsProduct (st.reg .a) imm b st.flags f) rfl
        (mulFlags_isProduct st.flags _ _)⟩⟩

/-- Settles O33: both forms are `divideBy`, which faults exactly on a divisor of 0. -/
theorem divGivesTheQuotientInA : Obligations.DivGivesTheQuotientInA :=
  ⟨fun _ _ => ⟨encodedAs_r rfl rfl, exec_div_of_ne_zero rfl, raises_div_of_eq_zero rfl⟩,
    fun _ _ => ⟨encodedAs_default rfl, exec_div_of_ne_zero rfl, raises_div_of_eq_zero rfl⟩⟩

/-- Settles O34. -/
theorem incAndDecStepByOne : Obligations.IncAndDecStepByOne := fun _ st =>
  ⟨encodedAs_r rfl rfl, encodedAs_r rfl rfl,
    exec_writeResult_zeroNegOnly rfl (incFlags_toNat st.flags _) (incFlags_zeroNegOnly st.flags _),
    exec_writeResult_zeroNegOnly rfl (decFlags_toNat st.flags _) (decFlags_zeroNegOnly st.flags _)⟩

end Sys2Proof.Machine
end

section
/-!
PROOFS. Logic and shifts (spec/42_logic.md R170 to R179): AND, OR, XOR and NOT write a result and the flags of LogicFlags;
SHL and SHR write the shifted-out bit to C as well. None faults, so each statement is a computation and one frame.
-/

namespace Sys2Proof.Machine

/-! ## Instructions that work bit by bit (R170) -/

/-- An instruction that ends in `writeLogic`: each bit of its result is in the register after it, Z and N are the
result's, and nothing else changes but the PC. -/
theorem exec_writeLogic_bits {i : Instr} {s : State} {n : Nat} {r : Reg} {res : Byte} {bit : Nat → Bool}
    (h : exec i s = .next (s.writeLogic n r res)) (hbits : ∀ k, res.getLsbD k = bit k) :
    ∃ t, exec i s = .next t ∧ (∀ k, k < 8 → (t.reg r).getLsbD k = bit k) ∧
      ZeroNegOnly s.flags t.flags (t.reg r) ∧ OnlyRegs [r] s t ∧ t.pc = s.pc + n :=
  ⟨_, h, fun k _ => by rw [writeLogic_reg, hbits], writeLogic_spec s n r res⟩

/-! ## The flags of the shifts (R178, R179) -/

/-- SHL shifts bit 7 out. -/
theorem shlFlags_c_iff (f : Flags) (a : Byte) : (shlFlags f a).2.c = true ↔ 128 ≤ a.toNat :=
  negFlag_iff a

/-- SHR shifts bit 0 out. -/
theorem shrFlags_c_iff (f : Flags) (a : Byte) : (shrFlags f a).2.c = true ↔ a.toNat % 2 = 1 := by
  rw [show (shrFlags f a).2.c = a.getLsbD 0 from rfl, bit0_eq, decide_eq_true_eq]

/-- SHR fills bit 7 with 0: a halved byte is below 128. -/
theorem shrFlags_n (f : Flags) (a : Byte) : (shrFlags f a).2.n = false := by
  have hlt : (shrFlags f a).1.toNat < 128 := by rw [shrFlags_toNat]; omega
  exact Bool.eq_false_iff.2 (mt (negFlag_iff _).1 (Nat.not_le.2 hlt))

/-! ## The statements -/

/-- Settles O35, by the bits of each operator. -/
theorem logicWorksBitByBit : Obligations.LogicWorksBitByBit :=
  ⟨fun _ _ _ => ⟨encodedAs_rr rfl rfl, encodedAs_rr rfl rfl, encodedAs_rr rfl rfl,
      exec_writeLogic_bits rfl fun _ => BitVec.getLsbD_and,
      exec_writeLogic_bits rfl fun _ => BitVec.getLsbD_or,
      exec_writeLogic_bits rfl fun _ => BitVec.getLsbD_xor⟩,
    fun _ _ _ => ⟨encodedAs_rb rfl rfl, encodedAs_rb rfl rfl, encodedAs_rb rfl rfl,
      exec_writeLogic_bits rfl fun _ => BitVec.getLsbD_and,
      exec_writeLogic_bits rfl fun _ => BitVec.getLsbD_or,
      exec_writeLogic_bits rfl fun _ => BitVec.getLsbD_xor⟩⟩

/-- Settles O36: the complement of a byte is 255 less the byte. -/
theorem notComplements : Obligations.NotComplements := fun _ _ =>
  ⟨encodedAs_r rfl rfl, exec_writeResult_zeroNegOnly rfl BitVec.toNat_not (logicFlags_zeroNegOnly _ _)⟩

/-- Settles O37, by what each shift computes and its frame. -/
theorem shiftsMoveByOneBit : Obligations.ShiftsMoveByOneBit := by
  refine fun r st => ⟨encodedAs_r rfl rfl, encodedAs_r rfl rfl, ⟨_, rfl, ?shl⟩, ⟨_, rfl, ?shr⟩⟩
  case shl =>
    rw [writeResult_reg, writeResult_flags]
    exact ⟨shlFlags_toNat st.flags _, shlFlags_c_iff st.flags _, zeroFlag_iff _, negFlag_iff _, rfl,
      onlyRegs_writeResult st 2 r _, rfl⟩
  case shr =>
    rw [writeResult_reg, writeResult_flags]
    exact ⟨shrFlags_toNat st.flags _, shrFlags_c_iff st.flags _, zeroFlag_iff _, shrFlags_n st.flags _, rfl,
      onlyRegs_writeResult st 2 r _, rfl⟩

end Sys2Proof.Machine
end

section
/-!
PROOFS. Control transfer (spec/43_control.md R190 to R197): the jumps, CALL, RET, RETI and HLT. Each check of an
instruction that transfers control is a case of its own, and the statements put an encoding, the cases and the frame
together.
-/

namespace Sys2Proof.Machine

/-! ## The jumps: a checked transfer, or the next instruction (R190) -/

section
variable {i : Instr} {s : State} {a : Addr}

/-- An instruction that is a checked transfer: it goes to an executable target, and faults on any other (R69, R190). -/
theorem exec_transferTo_spec (h : exec i s = settle s (transferTo a s)) :
    (executable a.toNat = true →
      ∃ t, exec i s = .next t ∧ t.pc = a.toNat ∧ t.flags = s.flags ∧ OnlyRegs [] s t) ∧
    (executable a.toNat = false → Raises i s (.memoryBoundsViolation a.toNat)) := by
  have hcases := h.trans (settle_transferTo s s a)
  refine ⟨fun hx => ?goes, fun hx => ?faults⟩
  case goes => exact ⟨_, hcases.trans (if_pos hx), rfl, rfl, fun _ _ => rfl, rfl, fun _ => rfl, sameOutside_refl s⟩
  case faults => exact hcases.trans (if_neg (Bool.eq_false_iff.1 hx))

/-- An instruction that only passes on to the next one changes nothing but the PC. -/
theorem exec_advance_spec {n : Nat} (h : exec i s = .next (s.advance n)) :
    ∃ t, exec i s = .next t ∧ t.pc = s.pc + n ∧ t.flags = s.flags ∧ OnlyRegs [] s t :=
  ⟨_, h, rfl, rfl, fun _ _ => rfl, rfl, fun _ => rfl, sameOutside_refl s⟩

end

/-! ## CALL, a case at a time (R194) -/

section
variable {s : State} {a : Addr}

theorem exec_call_of_room (ha : executable a.toNat = true) (hret : s.pc + 3 ≤ 0xFFFF) (hs : 0x0102 ≤ s.sp.toNat) :
    exec (.call a) s = .next ((push16 s (BitVec.ofNat 16 (s.pc + 3))).jumpTo a) :=
  (execCall_eq a s).trans (by rw [if_pos ha, if_neg (Nat.not_lt.2 hret), if_pos hs])

theorem raises_call_target (ha : executable a.toNat = false) :
    Raises (.call a) s (.memoryBoundsViolation a.toNat) :=
  (execCall_eq a s).trans (if_neg (Bool.eq_false_iff.1 ha))

theorem raises_call_return (ha : executable a.toNat = true) (hret : 0xFFFF < s.pc + 3) :
    Raises (.call a) s (.memoryBoundsViolation (s.pc + 3)) :=
  (execCall_eq a s).trans ((if_pos ha).trans (if_pos hret))

theorem raises_call_full (ha : executable a.toNat = true) (hret : s.pc + 3 ≤ 0xFFFF) (hs : s.sp.toNat < 0x0102) :
    Raises (.call a) s (.stackOverflow s.sp) :=
  (execCall_eq a s).trans (by rw [if_pos ha, if_neg (Nat.not_lt.2 hret), if_neg (Nat.not_le.2 hs)]; rfl)

end

/-! ## RET and RETI, a case at a time (R195, R196) -/

section
variable {s : State}

theorem exec_ret_of_executable (hs : s.sp.toNat ≤ 0x01FD) (ht : executable (pop16 s).1.toNat = true) :
    exec .ret s = .next ((pop16 s).2.jumpTo (pop16 s).1) :=
  (execRet_eq s).trans ((if_pos hs).trans (if_pos ht))

theorem raises_ret_empty (hs : 0x01FD < s.sp.toNat) : Raises .ret s (.stackUnderflow s.sp) :=
  (execRet_eq s).trans (if_neg (Nat.not_le.2 hs))

theorem raises_ret_target (hs : s.sp.toNat ≤ 0x01FD) (ht : executable (pop16 s).1.toNat = false) :
    Raises .ret s (.memoryBoundsViolation (pop16 s).1.toNat) :=
  (execRet_eq s).trans ((if_pos hs).trans (if_neg (Bool.eq_false_iff.1 ht)))

theorem exec_reti_of_executable (hs : s.sp.toNat ≤ 0x01FC) (ht : executable (pop16 (pop8 s).2).1.toNat = true) :
    exec .reti s =
      .next (((pop16 (pop8 s).2).2.setFlags (Flags.ofByte (pop8 s).1)).jumpTo (pop16 (pop8 s).2).1) :=
  (execReti_eq s).trans ((if_pos hs).trans (if_pos ht))

theorem raises_reti_empty (hs : 0x01FC < s.sp.toNat) : Raises .reti s (.stackUnderflow s.sp) :=
  (execReti_eq s).trans (if_neg (Nat.not_le.2 hs))

theorem raises_reti_target (hs : s.sp.toNat ≤ 0x01FC) (ht : executable (pop16 (pop8 s).2).1.toNat = false) :
    Raises .reti s (.memoryBoundsViolation (pop16 (pop8 s).2).1.toNat) :=
  (execReti_eq s).trans ((if_pos hs).trans (if_neg (Bool.eq_false_iff.1 ht)))

end

/-! ## Push16, then Pop16 (R125) -/

/-- A return address of the address space is stored whole. -/
theorem toNat_ofNat_addr {n : Nat} (h : n ≤ 0xFFFF) : (BitVec.ofNat 16 n).toNat = n :=
  (BitVec.toNat_ofNat n 16).trans (Nat.mod_eq_of_lt (Nat.lt_succ_of_le h))

theorem pop16_push16_sp (s : State) (w : Addr) : (pop16 (push16 s w)).2.sp = s.sp := by
  rw [pop16_sp, push16_sp, addr_sub_add_one, addr_sub_add_one]

/-- Pop16 gives back the word that Push16 stored. -/
theorem pop16_push16_value {s : State} (hw : Memory.wf s.mem = true) (hs : 2 ≤ s.sp.toNat) (w : Addr) :
    (pop16 (push16 s w)).1 = w := by
  obtain ⟨hhigh, hlow, -⟩ := push16_frame hw hs w
  rw [pop16_value, push16_sp, addr_sub_add_one, hlow, hhigh, addrOfBytes_bytes]

/-! ## A halted core -/

/-- A vector raised later does not wake the core (R197). -/
theorem enqueue_run (s : State) (v : Addr) : (s.enqueue v).run = s.run := by
  unfold State.enqueue
  split <;> rfl

/-! ## The statements -/

/-- Settles O38, by the executable ranges and the checked transfer. -/
theorem jumpGoesToAnExecutableTarget : Obligations.JumpGoesToAnExecutableTarget :=
  ⟨fun _ => executable_iff, fun _ _ => ⟨encodedAs_a rfl rfl, exec_transferTo_spec rfl⟩⟩

/-- Settles O39: on Z one of the two jumps is a checked transfer and the other passes on, unchecked. -/
theorem conditionalJumpsTestZero : Obligations.ConditionalJumpsTestZero := by
  refine fun a st => ⟨encodedAs_a rfl rfl, encodedAs_a rfl rfl, fun hz => ?zero, fun hz => ?nonzero⟩
  case zero =>
    have hjz : exec (.jz a) st = settle st (transferTo a st) := congrArg (settle st) (if_pos hz)
    have hjnz : exec (.jnz a) st = .next (st.advance 3) := congrArg (settle st) (if_pos hz)
    exact ⟨exec_advance_spec hjnz, exec_transferTo_spec hjz⟩
  case nonzero =>
    have hn : ¬st.flags.z = true := Bool.eq_false_iff.1 hz
    have hjz : exec (.jz a) st = .next (st.advance 3) := congrArg (settle st) (if_neg hn)
    have hjnz : exec (.jnz a) st = settle st (transferTo a st) := congrArg (settle st) (if_neg hn)
    exact ⟨exec_advance_spec hjz, exec_transferTo_spec hjnz⟩

/-- Settles O40: a return address that fits 16 bits is stored whole, its high byte first. -/
theorem callPushesTheReturnAddress : Obligations.CallPushesTheReturnAddress := by
  refine fun a st hw => ⟨encodedAs_a rfl rfl, fun ha hret hs => ?_, raises_call_target, raises_call_return,
    raises_call_full⟩
  obtain ⟨hhigh, hlow, hmem⟩ := push16_frame hw (by omega) (BitVec.ofNat 16 (st.pc + 3))
  have hword : (BitVec.ofNat 16 (st.pc + 3)).toNat = st.pc + 3 := toNat_ofNat_addr hret
  refine ⟨_, exec_call_of_room ha hret hs, rfl, rfl, ?high, ?low, ⟨fun _ _ => rfl, hmem, sameOutside_refl st⟩, rfl⟩
  case high => rw [State.jumpTo_mem, hhigh, hiByte_toNat, hword]
  case low => rw [State.jumpTo_mem, hlow, loByte_toNat, hword]

/-- Settles O41: what Pop16 gives is the word at the SP. -/
theorem retPopsItsTarget : Obligations.RetPopsItsTarget := by
  refine fun st => ⟨encodedAs_default rfl, fun hs ht => ?returns, raises_ret_empty, fun hs ht => ?faults⟩
  case returns =>
    rw [← pop16_word hs] at ht ⊢
    exact ⟨_, exec_ret_of_executable hs ht, rfl, rfl, fun _ _ => rfl, fun _ => rfl, rfl, sameOutside_refl st⟩
  case faults =>
    rw [← pop16_word hs] at ht ⊢
    exact raises_ret_target hs ht

/-- Settles O42: F is loaded from the byte at the SP, and the word above it is the target. -/
theorem retiPopsFlagsAndPc : Obligations.RetiPopsFlagsAndPc := by
  refine fun st => ⟨encodedAs_default rfl, fun hs ht => ?returns, raises_reti_empty, fun hs ht => ?faults⟩
  case returns =>
    rw [← pop8_pop16_word hs] at ht ⊢
    exact ⟨_, exec_reti_of_executable hs ht, flags_ofByte_number _, rfl, rfl, fun _ _ => rfl, fun _ => rfl,
      sameOutside_refl st⟩
  case faults =>
    rw [← pop8_pop16_word hs] at ht ⊢
    exact raises_reti_target hs ht

/-- Settles O43: a core that is not Running steps to itself, and only a reset moves its run state. -/
theorem hltHaltsForGood : Obligations.HltHaltsForGood := by
  refine fun st => ⟨encodedAs_default rfl, _, rfl, rfl, rfl, rfl, rfl, rfl, fun _ _ => rfl, fun _ => rfl,
    ⟨rfl, rfl, rfl, rfl, rfl, rfl⟩, rfl, rfl, rfl, fun v => ?sleeps, fun c hc => ?stays, fun hr hq hf => ?counts⟩
  case sleeps => exact step_not_running (by rw [enqueue_run]; exact nofun)
  case stays => exact hostApply_run_of_stopped nofun hc
  case counts => rw [step_fetch hr hq, hf]; rfl

/-- Settles O44: RET pops the word that CALL pushed. -/
theorem callThenRetComesBack : Obligations.CallThenRetComesBack := by
  intro a st hw ha hret hlow hhigh
  have hfits : st.pc + 3 ≤ 0xFFFF := executable_le hret
  have hroom : 2 ≤ st.sp.toNat := by omega
  have hheld : (push16 st (BitVec.ofNat 16 (st.pc + 3))).sp.toNat ≤ 0x01FD := by
    rw [push16_sp_toNat hroom]; omega
  have htarget : (pop16 (push16 st (BitVec.ofNat 16 (st.pc + 3)))).1.toNat = st.pc + 3 := by
    rw [pop16_push16_value hw hroom, toNat_ofNat_addr hfits]
  have hback : executable (pop16 (push16 st (BitVec.ofNat 16 (st.pc + 3)))).1.toNat = true := by rw [htarget, hret]
  exact ⟨_, _, exec_call_of_room ha hfits hlow, exec_ret_of_executable hheld hback, htarget, pop16_push16_sp st _,
    fun _ _ => rfl, rfl, sameOutside_refl st⟩

end Sys2Proof.Machine
end

section
/-!
PROOFS. Port I/O (spec/44_io.md R210, R211): OUT and IN are the port bus of R340 to R347 and an advance of the PC. Each
port operation has its frame, one equation of the whole state, and an equation for each kind of port.
-/

namespace Sys2Proof.Machine

/-! ## The fixed ports (R341) -/

theorem fixedPorts_contains_iff (p : Byte) : fixedPorts.contains p = true ↔ ¬notFixed p := by
  simp only [fixedPorts, notFixed, List.contains_iff_mem, List.mem_cons, List.not_mem_nil, or_false]
  tauto

/-! ## PortWrite (R340 to R347) -/

/-- A write to a port changes nothing but the GPU and, on port 0x01, the terminal stream (R342). -/
theorem portWrite_frame (s : State) (p v : Byte) :
    portWrite s p v =
      { s with terminal := if p = 0x01 then s.terminal ++ [v] else s.terminal, gpu := (portWrite s p v).gpu } := by
  unfold portWrite terminalPort
  split_ifs
  case neg => cases handlerOf s.config.ports p <;> rfl
  all_goals rfl

section
variable {s : State} {p : Byte} {h : PortHandler}

/-- A write to a port with no fixed handler is its configured handler's, if it has one (R346, R347). -/
theorem portWrite_of_notFixed (hp : notFixed p) (v : Byte) :
    portWrite s p v =
      (handlerOf s.config.ports p).elim s fun h => s.applyHandler (Config.handlerWriteEffect h.write v s.gpu) := by
  obtain ⟨hterm, hx, hy, hdraw⟩ := hp
  unfold portWrite terminalPort latchXPort latchYPort drawPort
  rw [if_neg hterm, if_neg hx, if_neg hy, if_neg hdraw]
  cases handlerOf s.config.ports p <;> rfl

/-- An unmapped port ignores the write (R346). -/
theorem portWrite_unmapped (hp : notFixed p) (hh : handlerOf s.config.ports p = none) (v : Byte) :
    portWrite s p v = s := by
  rw [portWrite_of_notFixed hp, hh]; rfl

/-- A configured port has its handler's write effect (R347). -/
theorem portWrite_configured (hp : notFixed p) (hh : handlerOf s.config.ports p = some h) (v : Byte) :
    portWrite s p v = s.applyHandler (Config.handlerWriteEffect h.write v s.gpu) := by
  rw [portWrite_of_notFixed hp, hh]; rfl

end

/-! ## The side effect of a read (R76) -/

/-- The side effect of a read changes nothing but the GPU. -/
theorem readSideEffect_frame (s : State) (h : PortHandler) (v : Byte) :
    readSideEffect s h v = { s with gpu := (readSideEffect s h v).gpu } := by
  unfold readSideEffect
  cases h.readEffect <;> rfl

theorem readSideEffect_of_none {h : PortHandler} (he : h.readEffect = none) (s : State) (v : Byte) :
    readSideEffect s h v = s := by
  unfold readSideEffect
  rw [he]

theorem readSideEffect_of_some {h : PortHandler} {id : Nat} (he : h.readEffect = some id) (s : State) (v : Byte) :
    readSideEffect s h v = s.applyHandler (Config.handlerReadEffect id v s.gpu) := by
  unfold readSideEffect
  rw [he]

/-- The side effect does not see how many bytes were drawn. -/
theorem readSideEffect_gpu_inputDraws (s : State) (n : Nat) (h : PortHandler) (v : Byte) :
    (readSideEffect { s with inputDraws := n } h v).gpu = (readSideEffect s h v).gpu := by
  unfold readSideEffect
  cases h.readEffect <;> rfl

/-! ## PortRead (R340 to R347) -/

section
variable {s : State} {p : Byte} {h : PortHandler}

/-- The fixed ports and the unmapped ones read 0x00, with no side effect (R342 to R346). -/
theorem portRead_zero (hp : ¬notFixed p ∨ handlerOf s.config.ports p = none) : portRead s p = (0x00, s) := by
  unfold portRead
  split
  next => rfl
  next hfixed =>
    have hnone : handlerOf s.config.ports p = none :=
      hp.resolve_left fun hn => hfixed ((fixedPorts_contains_iff p).2 hn)
    rw [hnone]

/-- A port whose handler's value is a function of the block's state (R347). -/
theorem portRead_blockFunction {id : Nat} (hp : notFixed p) (hh : handlerOf s.config.ports p = some h)
    (hr : h.read = .blockFunction id) :
    portRead s p = (Config.handlerValue id s.portView, readSideEffect s h (Config.handlerValue id s.portView)) := by
  unfold portRead
  rw [if_neg fun hfixed => (fixedPorts_contains_iff p).1 hfixed hp, hh]
  dsimp only
  rw [hr]

/-- A port whose value is drawn from outside the block: the draw is counted, so the next one is fresh (R347, I9). -/
theorem portRead_externalInput (hp : notFixed p) (hh : handlerOf s.config.ports p = some h)
    (hr : h.read = .externalInput) :
    portRead s p =
      (Config.externalInput p s.inputDraws,
        readSideEffect { s with inputDraws := s.inputDraws + 1 } h (Config.externalInput p s.inputDraws)) := by
  unfold portRead
  rw [if_neg fun hfixed => (fixedPorts_contains_iff p).1 hfixed hp, hh]
  dsimp only
  rw [hr]

/-- Wherever its value comes from, a configured port's read has on the GPU the side effect for the byte read (R76). -/
theorem portRead_gpu_configured (hp : notFixed p) (hh : handlerOf s.config.ports p = some h) :
    (portRead s p).2.gpu = (readSideEffect s h (portRead s p).1).gpu := by
  cases hr : h.read with
  | blockFunction id => rw [portRead_blockFunction hp hh hr]
  | externalInput => rw [portRead_externalInput hp hh hr]; exact readSideEffect_gpu_inputDraws s _ h _

end

/-- A read of a port changes nothing but the GPU and the count of draws. -/
theorem portRead_frame (s : State) (p : Byte) :
    (portRead s p).2 = { s with gpu := (portRead s p).2.gpu, inputDraws := (portRead s p).2.inputDraws } := by
  by_cases hzero : ¬notFixed p ∨ handlerOf s.config.ports p = none
  case pos => rw [portRead_zero hzero]
  case neg =>
    obtain ⟨hp, hmapped⟩ := not_or.1 hzero
    obtain ⟨h, hh⟩ := Option.ne_none_iff_exists'.1 hmapped
    cases hr : h.read with
    | blockFunction id => rw [portRead_blockFunction (not_not.1 hp) hh hr, readSideEffect_frame]
    | externalInput => rw [portRead_externalInput (not_not.1 hp) hh hr, readSideEffect_frame]

/-! ## The instructions -/

/-- OUT moves the PC and writes to its port, so nothing but the terminal stream and the GPU is open (R210). -/
theorem exec_outPort (port : Byte) (r : Reg) (st : State) :
    exec (.outPort port r) st =
      .next { st.advance 3 with
        terminal := if port = 0x01 then st.terminal ++ [st.reg r] else st.terminal
        gpu := (portWrite (st.advance 3) port (st.reg r)).gpu } :=
  congrArg Host.Outcome.next (portWrite_frame (st.advance 3) port (st.reg r))

/-- IN moves the PC, reads its port and writes the register, so nothing but the GPU and the count of draws is open
(R211). -/
theorem exec_inPort (r : Reg) (port : Byte) (st : State) :
    exec (.inPort r port) st =
      .next (State.setReg { st.advance 3 with
        gpu := (portRead (st.advance 3) port).2.gpu
        inputDraws := (portRead (st.advance 3) port).2.inputDraws } r (portRead (st.advance 3) port).1) :=
  congrArg (fun t : State => Host.Outcome.next (t.setReg r (portRead (st.advance 3) port).1))
    (portRead_frame (st.advance 3) port)

/-! ## The statements -/

/-- Settles O45: the frame of a port write, and what each kind of port does to the GPU. -/
theorem outReachesItsPort : Obligations.OutReachesItsPort := by
  intro port r st
  refine ⟨encodedAs_br rfl rfl, _, exec_outPort port r st, rfl, rfl, rfl, fun _ _ => rfl, fun _ => rfl, rfl, rfl,
    ⟨rfl, rfl, rfl, rfl, rfl, rfl⟩, rfl, rfl, ?output, ?latchX, ?latchY, ?draw, fun hp hh => ?unmapped,
    fun h hp hh => ?configured⟩
  case output => rintro rfl; rfl
  case latchX => rintro rfl; rfl
  case latchY => rintro rfl; rfl
  case draw => rintro rfl; rfl
  case unmapped => rw [portWrite_unmapped (s := st.advance 3) hp hh]; rfl
  case configured => rw [portWrite_configured (s := st.advance 3) hp hh]; rfl

/-- Settles O47: the frame of a port read and of the register write, and what each kind of port gives. -/
theorem inReadsItsPort : Obligations.InReadsItsPort := by
  intro r port st
  refine ⟨encodedAs_rb rfl rfl, _, exec_inPort r port st, rfl, rfl, rfl, sameRegsBut_setReg _ r _, fun _ => rfl, rfl,
    rfl, ⟨rfl, rfl, rfl, rfl, rfl, rfl⟩, rfl, fun hzero => ?zero, fun h hp hh => ?configured⟩
  case zero =>
    rw [State.setReg_reg_same, portRead_zero (s := st.advance 3) hzero]
    exact ⟨rfl, rfl, rfl⟩
  case configured =>
    have hgpu := portRead_gpu_configured (s := st.advance 3) hp hh
    rw [State.setReg_reg_same]
    refine ⟨fun he => ?pure, fun id he => ?effect, fun id hr => ?function, fun hr => ?drawn⟩
    case pure => rw [readSideEffect_of_none he] at hgpu; exact hgpu
    case effect => rw [readSideEffect_of_some he] at hgpu; exact hgpu
    case function =>
      rw [portRead_blockFunction (s := st.advance 3) hp hh hr, readSideEffect_frame]
      exact ⟨rfl, rfl⟩
    case drawn =>
      rw [portRead_externalInput (s := st.advance 3) hp hh hr, readSideEffect_frame]
      exact ⟨rfl, rfl⟩

end Sys2Proof.Machine
end

section
/-!
PROOFS. Comparison (spec/45_compare.md R220, R221): each form of CMP writes the flags of a subtraction and moves the PC,
and so has the frame of an instruction that writes no register.
-/

namespace Sys2Proof.Machine

/-- Writing the flags and moving the PC changes no register, and nothing outside the flags and the PC. -/
theorem onlyRegs_setFlags (s : State) (n : Nat) (f : Flags) : OnlyRegs [] s ((s.advance n).setFlags f) :=
  ⟨fun _ _ => rfl, rfl, fun _ => rfl, sameOutside_refl s⟩

/-- An instruction that writes the flags of a - b and drops the difference: the witness `res` is the byte dropped. -/
theorem exec_compare_spec {i : Instr} {s : State} {n : Nat} {a b : Byte}
    (h : exec i s = .next ((s.advance n).setFlags (subFlags a b).2)) :
    ∃ t res, exec i s = .next t ∧ IsDifference a b res t.flags ∧ OnlyRegs [] s t ∧ t.pc = s.pc + n :=
  ⟨_, (subFlags a b).1, h, subFlags_isDifference a b, onlyRegs_setFlags s n _, rfl⟩

/-- Settles O31, by what SubFlags gives. -/
theorem compareGivesTheFlagsOfTheDifference : Obligations.CompareGivesTheFlagsOfTheDifference :=
  ⟨fun _ _ _ => ⟨encodedAs_rr rfl rfl, exec_compare_spec rfl⟩,
    fun _ _ _ => ⟨encodedAs_rb rfl rfl, exec_compare_spec rfl⟩⟩

end Sys2Proof.Machine
end

section
/-!
PROOFS. Faults and interrupts (spec/60_exceptions.md R300 to R318): what a fault and a stopped core leave unchanged, the
dispatch of an interrupt with its faults, its return, and dispatches nested until the stack is full.
-/

namespace Sys2Proof.Machine

/-! ## Faults and stopped cores (R302, R303, R315) -/

/-- Settles O8: of what a step does to the run state, only taking a fault ends Faulted. -/
theorem faultingStepChangesNothingElse : Obligations.FaultingStepChangesNothingElse := by
  intro s t hr h hfaulted
  obtain ⟨-, trun⟩ | ⟨-, trun | ⟨c, rfl⟩⟩ := step_run_cases hr h
  · exact nomatch hfaulted.symm.trans trun
  · exact nomatch hfaulted.symm.trans trun
  · exact ⟨c, rfl⟩

/-- Settles O9. -/
theorem stoppedCoreStaysAsItIs : Obligations.StoppedCoreStaysAsItIs :=
  fun _ hs => ⟨step_not_running hs, runCycles_stopped hs⟩

/-! ## The faults of a dispatch, in their order (R314) -/

section
variable {s : State} {v : Addr} {rest : List Addr} (hr : s.run = .running) (hq : s.queue = v :: rest)
include hr hq

/-- The vector is checked first. -/
theorem step_dispatch_vector (hx : executable v.toNat = false) :
    step s = .next (FaultedFrom { s with cycles := s.cycles + 1 } (.memoryBoundsViolation v.toNat)) := by
  rw [step_dispatch hr hq, enterInterrupt_eq, if_neg (Bool.eq_false_iff.1 hx)]
  rfl

/-- Then the PC to be saved. -/
theorem step_dispatch_savedPc (hx : executable v.toNat = true) (hp : 0xFFFF < s.pc) :
    step s = .next (FaultedFrom { s with cycles := s.cycles + 1 } (.memoryBoundsViolation s.pc)) := by
  rw [step_dispatch hr hq, enterInterrupt_eq, if_pos hx, State.tick_pc, if_pos hp]
  rfl

/-- Then the room on the stack. -/
theorem step_dispatch_stack_full (hx : executable v.toNat = true) (hp : s.pc ≤ 0xFFFF) (hs : s.sp.toNat < 0x0103) :
    step s = .next (FaultedFrom { s with cycles := s.cycles + 1 } (.stackOverflow s.sp)) := by
  rw [step_dispatch hr hq, enterInterrupt_eq, if_pos hx, State.tick_pc, if_neg (Nat.not_lt.2 hp), State.tick_sp,
    if_neg (Nat.not_le.2 hs)]
  rfl

end

/-- Settles O50: `pushFrame_frame` when the three checks pass, and the fault of each when it is the first to fail. -/
theorem dispatchSavesPcAndFlags : Obligations.DispatchSavesPcAndFlags := by
  intro s v rest hw hr hq
  refine ⟨fun hx hp hs => ?dispatches, step_dispatch_vector hr hq, step_dispatch_savedPc hr hq,
    step_dispatch_stack_full hr hq⟩
  obtain ⟨hhigh, hlow, hflags, hmem⟩ :=
    pushFrame_frame (s := s.tick) hw (Nat.le_trans (by decide) hs) (BitVec.ofNat 16 s.pc) s.flags.toByte
  have hword : (BitVec.ofNat 16 s.pc).toNat = s.pc := toNat_ofNat_addr hp
  refine ⟨_, step_dispatch_ok hr hq hx hp hs, rfl, rfl, rfl, rfl, ?high, ?low, ?flags, hmem, fun _ _ => rfl, rfl, hr,
    rfl, rfl, rfl, rfl, rfl, rfl, rfl, rfl⟩
  case high => exact (congrArg BitVec.toNat hhigh).trans (by rw [hiByte_toNat, hword])
  case low => exact (congrArg BitVec.toNat hlow).trans (by rw [loByte_toNat, hword])
  case flags => exact (congrArg BitVec.toNat hflags).trans (flags_toByte_toNat s.flags)

/-! ## A dispatch undone (R317) -/

/-- The pops of RETI move the SP over three bytes and change nothing else. -/
theorem pop16_pop8_frame (s : State) : (pop16 (pop8 s).2).2 = { s with sp := s.sp + 1 + 1 + 1 } := rfl

/-- RETI over the three bytes that pushed the PC w and the flags f loads both, puts the SP back and changes nothing
else (R196). -/
theorem exec_reti_of_pushFrame {s t : State} (hw : Memory.wf s.mem = true) (hlow : 3 ≤ s.sp.toNat)
    (hhigh : s.sp.toNat ≤ 0x01FF) {w : Addr} (hx : executable w.toNat = true) {f : Flags}
    (hmem : t.mem = (push8 (push16 s w) f.toByte).mem) (hsp : t.sp = s.sp - 1 - 1 - 1) :
    exec .reti t = .next { t with pc := w.toNat, sp := s.sp, flags := f } := by
  obtain ⟨hhi, hlo, hflags, -⟩ := pushFrame_frame hw hlow w f.toByte
  have hheld : t.sp.toNat ≤ 0x01FC := by rw [hsp, addr_sub_three_toNat hlow]; omega
  have hf : (pop8 t).1 = f.toByte := by rw [pop8_value, hmem, hsp, hflags]
  have hpc : (pop16 (pop8 t).2).1 = w := by
    rw [pop16_value, pop8_mem, pop8_sp, hmem, hsp, addr_sub_add_one, addr_sub_add_one, hlo, hhi, addrOfBytes_bytes]
  have hback : t.sp + 1 + 1 + 1 = s.sp := by simp only [hsp, addr_sub_add_one]
  rw [exec_reti_of_executable hheld (by rwa [hpc]), hf, hpc, flags_ofByte_toByte, pop16_pop8_frame, hback]
  rfl

/-- Settles O51: RETI pops what the dispatch pushed. -/
theorem retiUndoesADispatch : Obligations.RetiUndoesADispatch := by
  intro s v rest hw hr hq hv hx hlow hhigh
  have hpc : s.pc ≤ 0xFFFF := executable_le hx
  have hword : (BitVec.ofNat 16 s.pc).toNat = s.pc := toNat_ofNat_addr hpc
  refine ⟨_, step_dispatch_ok hr hq hv hpc hlow,
    (exec_reti_of_pushFrame (s := s.tick) (w := BitVec.ofNat 16 s.pc) (f := s.flags) hw (Nat.le_trans (by decide) hlow)
      hhigh (by rw [hword, hx]) (by rfl) (by rfl)).trans ?_⟩
  rw [hword]
  rfl

/-! ## Nested dispatches (R316) -/

/-- With nothing pending, an interrupted step is the step with VBlank alone in the queue. -/
theorem interruptedStep_of_step {s t : State} (hq : s.queue = [])
    (h : step { s with queue := [s.config.vblankVector] } = .next t) : interruptedStep s = t := by
  have henq : s.enqueue s.config.vblankVector = { s with queue := [s.config.vblankVector] } := by
    simp [State.enqueue, hq]
  rw [interruptedStep, henq, hostStep_of_step h]

section
variable {s : State} (hr : s.run = .running) (hq : s.queue = [])
  (hx : executable s.config.vblankVector.toNat = true) (hp : s.pc ≤ 0xFFFF)
include hr hq hx hp

/-- Interrupted with room for three bytes, a core enters the handler. -/
theorem interruptedStep_dispatches (hs : 0x0103 ≤ s.sp.toNat) :
    (interruptedStep s).run = .running ∧ (interruptedStep s).queue = [] ∧
      (interruptedStep s).config = s.config ∧ (interruptedStep s).pc = s.config.vblankVector.toNat ∧
      (interruptedStep s).sp.toNat = s.sp.toNat - 3 := by
  rw [interruptedStep_of_step hq (step_dispatch_ok hr rfl hx hp hs)]
  exact ⟨hr, rfl, rfl, rfl, addr_sub_three_toNat (Nat.le_trans (by decide) hs)⟩

/-- Interrupted with less room, it faults. -/
theorem interruptedStep_overflows (hs : s.sp.toNat < 0x0103) :
    (interruptedStep s).run = .faulted ∧
      (interruptedStep s).fault = some { cause := .stackOverflow s.sp, addr := s.pc } := by
  rw [interruptedStep_of_step hq (step_dispatch_stack_full hr rfl hx hp hs)]
  exact ⟨rfl, rfl⟩

end

/-- The core after k nested dispatches from s, each of which left three bytes on the stack. -/
structure NestedDispatches (s : State) (k : Nat) (t : State) : Prop where
  run : t.run = .running
  queue : t.queue = []
  config : t.config = s.config
  sp : t.sp.toNat = 0x01FF - 3 * k
  pc : t.pc = if k = 0 then s.pc else s.config.vblankVector.toNat

theorem NestedDispatches.pc_le {s t : State} {k : Nat} (h : NestedDispatches s k t) (hp : s.pc ≤ 0xFFFF) :
    t.pc ≤ 0xFFFF := by
  have hv := s.config.vblankVector.isLt
  rw [h.pc]
  split <;> omega

/-- One more dispatch, while the stack has room for it. -/
theorem NestedDispatches.succ {s t : State} {k : Nat} (h : NestedDispatches s k t) (hp : s.pc ≤ 0xFFFF)
    (hx : executable s.config.vblankVector.toNat = true) (hk : k < 85) :
    NestedDispatches s (k + 1) (interruptedStep t) := by
  obtain ⟨run, queue, config, pc, sp⟩ :=
    interruptedStep_dispatches h.run h.queue (h.config ▸ hx) (h.pc_le hp) (by rw [h.sp]; omega)
  exact ⟨run, queue, config.trans h.config, by rw [sp, h.sp]; omega, by rw [pc, h.config]; rfl⟩

/-- From an empty stack up to 85 dispatches nest. -/
theorem nestedDispatches_iterate {s : State} (hr : s.run = .running) (hq : s.queue = []) (hp : s.pc ≤ 0xFFFF)
    (hs : s.sp = 0x01FF) (hx : executable s.config.vblankVector.toNat = true) {k : Nat} (hk : k ≤ 85) :
    NestedDispatches s k (interruptedStep^[k] s) := by
  induction k with
  | zero => exact ⟨hr, hq, rfl, congrArg BitVec.toNat hs, rfl⟩
  | succ k ih =>
    rw [Function.iterate_succ_apply']
    exact (ih (Nat.le_of_succ_le hk)).succ hp hx hk

/-- The 86th finds the SP at 0x0100 and faults, in the handler. -/
theorem NestedDispatches.overflows {s t : State} (h : NestedDispatches s 85 t)
    (hx : executable s.config.vblankVector.toNat = true) :
    (interruptedStep t).run = .faulted ∧
      (interruptedStep t).fault = some { cause := .stackOverflow 0x0100, addr := s.config.vblankVector.toNat } := by
  have hpc : t.pc = s.config.vblankVector.toNat := h.pc
  have hsp : t.sp = 0x0100 := BitVec.eq_of_toNat_eq h.sp
  rw [← hpc, ← hsp]
  exact interruptedStep_overflows h.run h.queue (h.config ▸ hx) (hpc ▸ executable_le hx) (by rw [hsp]; decide)

/-- Settles O52: 85 dispatches fill the stack down to 0x0100, and the next one has no room. -/
theorem nestedDispatchesFillTheStack : Obligations.NestedDispatchesFillTheStack := by
  intro s hr hq hp hs hx
  have nested {k : Nat} (hk : k ≤ 85) := nestedDispatches_iterate hr hq hp hs hx hk
  rw [Function.iterate_succ_apply' interruptedStep 85]
  exact ⟨fun k hk => ⟨(nested hk).run, (nested hk).sp, (nested hk).queue⟩, (nested le_rfl).overflows hx⟩

end Sys2Proof.Machine
end

section
/-!
PROOFS. The GPU (spec/60_exceptions.md R350 to R360): the pixel draw, the update operations, the frame render and the
default formats. Whatever draws is said to draw by `Paints`.
-/

namespace Sys2Proof.Machine

/-! ## Pixel draw (R345, R351, R352) -/

/-- An 8-bit mode's colour is the palette index itself (R351). -/
theorem colour_toNat_of_m320x200x8 {m : VideoMode} (hm : m = .m320x200x8) (g : Gpu) (i : Byte) :
    (g.colour m i).toNat = i.toNat := by
  subst hm
  exact BitVec.toNat_setWidth_of_le (by decide)

/-- A 16-bit mode's colour is the conversion of the palette entry (R351). -/
theorem colour_of_m640x480x16 {m : VideoMode} (hm : m = .m640x480x16) (g : Gpu) (i : Byte) :
    g.colour m i = Config.conv16 (g.pal[i.toNat]'i.isLt) := by
  subst hm
  rfl

/-- Settles O46: the draw is one `plot`, at (LX, LY). -/
theorem pixelDrawWritesOnePixel : Obligations.PixelDrawWritesOnePixel := by
  intro r st hfb
  have paints := paints_plot st.config st.gpu.lx.toNat st.gpu.ly.toNat (st.reg r)
  refine ⟨_, exec_outPort 0x82 r st, paints.frame st.gpu, fun x y hx hy => ?onScreen, fun hoff => if_neg hoff,
    fun hm => colour_toNat_of_m320x200x8 hm st.gpu _, fun hm => colour_of_m640x480x16 hm st.gpu _⟩
  refine (paints.pixel st.gpu hfb x y hx hy).trans ?_
  split_ifs <;> rfl

/-! ## The update operations (R353) -/

/-- Settles O48: no operation of the effect's list writes them. -/
theorem handlersKeepFramebufferAndCoordinates : Obligations.HandlersKeepFramebufferAndCoordinates :=
  applyEffect_keeps

section
variable {f : TileFormat} {g : Gpu}

theorem apply_setSprite_of_lt {slot : Nat} (h : slot < 64) (field : SpriteField) (value : Nat) :
    g.apply f (.setSprite slot field value) =
      { g with spr := g.spr.set slot (g.spr[slot].setField field value) } := dif_pos h

theorem apply_setSprite_of_le {slot : Nat} (h : 64 ≤ slot) (field : SpriteField) (value : Nat) :
    g.apply f (.setSprite slot field value) = g := dif_neg (Nat.not_lt.2 h)

theorem apply_setPalette_of_lt {i : Nat} (h : i < 256) (rgb : Rgb) :
    g.apply f (.setPalette i rgb) = { g with pal := g.pal.set i rgb } := dif_pos h

theorem apply_setPalette_of_le {i : Nat} (h : 256 ≤ i) (rgb : Rgb) : g.apply f (.setPalette i rgb) = g :=
  dif_neg (Nat.not_lt.2 h)

/-- There are two layers. -/
theorem updateLayer_of_le {layer : Nat} (h : 2 ≤ layer) (u : TileLayer → TileLayer) : g.updateLayer layer u = g := by
  rw [Gpu.updateLayer, if_neg (by omega), if_neg (by omega)]

theorem updateLayer_of_id {u : TileLayer → TileLayer} (h : ∀ l, u l = l) (layer : Nat) :
    g.updateLayer layer u = g := by
  unfold Gpu.updateLayer
  split_ifs
  · rw [h]
  · rw [h]
  · rfl

theorem setTile_out_of_range {row col : Nat} (h : f.gh ≤ row ∨ f.gw ≤ col) (t : Byte) (l : TileLayer) :
    l.setTile f row col t = l := if_neg (by omega)

theorem setTile_in_range {row col : Nat} (hr : row < f.gh) (hc : col < f.gw) (t : Byte) (l : TileLayer) :
    l.setTile f row col t = { l with tiles := sparseWrite blankTile l.tiles (tileKey f row col) t } :=
  if_pos ⟨hr, hc⟩

theorem tile_write {l : TileLayer} (hl : sparseWf blankTile (f.gh * f.gw) 0 l.tiles = true) {row col : Nat}
    (hc : col < f.gw) (t : Byte) {row' col' : Nat} (hc' : col' < f.gw) :
    ({ l with tiles := sparseWrite blankTile l.tiles (tileKey f row col) t } : TileLayer).tile f row' col' =
      if row' = row ∧ col' = col then t else l.tile f row' col' := by
  simp only [TileLayer.tile, sparseRead_write _ _ _ hl, tileKey_inj hc' hc]

end

/-- Settles O49: each operation is an equation of the whole GPU, in range and out of it. -/
theorem gpuUpdatesSetOneEntry : Obligations.GpuUpdatesSetOneEntry := by
  intro f g
  refine ⟨fun slot field value h => apply_setSprite_of_le h field value, fun slot h value => ?sprite,
    fun i rgb h => apply_setPalette_of_le h rgb, fun i h rgb => apply_setPalette_of_lt h rgb,
    fun layer row col t h => ?noTile, fun hl row col t hr hc => ?tile0, fun hl row col t hr hc => ?tile1,
    fun layer axis value b h => ⟨updateLayer_of_le h _, updateLayer_of_le h fun l => { l with enabled := b }⟩,
    fun value => ⟨_, BitVec.toNat_ofNat value 16, rfl, rfl, rfl, rfl⟩, fun b => ⟨rfl, rfl⟩⟩
  case sprite =>
    have hset (field : SpriteField) := apply_setSprite_of_lt (f := f) (g := g) h field value
    exact ⟨⟨_, BitVec.toNat_ofNat value 8, hset .bitmap⟩, ⟨_, BitVec.toNat_ofNat value 8, hset .pal⟩,
      ⟨_, BitVec.toNat_ofNat value 16, hset .x⟩, ⟨_, BitVec.toNat_ofNat value 16, hset .y⟩,
      ⟨_, decide_eq_true_iff, hset .hflip⟩, ⟨_, decide_eq_true_iff, hset .vflip⟩,
      ⟨_, decide_eq_true_iff, hset .enabled⟩⟩
  case noTile =>
    obtain h | h := h
    · exact updateLayer_of_le h _
    · exact updateLayer_of_id (setTile_out_of_range h t) layer
  case tile0 =>
    exact ⟨_, congrArg (fun l => { g with tl0 := l }) (setTile_in_range hr hc t g.tl0),
      fun row' col' _ hc' => tile_write hl hc t hc'⟩
  case tile1 =>
    exact ⟨_, congrArg (fun l => { g with tl1 := l }) (setTile_in_range hr hc t g.tl1),
      fun row' col' _ hc' => tile_write hl hc t hc'⟩

/-! ## The frame render (R354 to R360) -/

/-- Settles O53: RenderLayer paints what the layer shows. -/
theorem layerRenderWritesItsPixels : Obligations.LayerRenderWritesItsPixels := fun c mem l g hg =>
  have paints := paints_renderLayer c mem l
  ⟨paints.frame g, paints.pixel g hg⟩

/-- Settles O54: drawing the slots in order paints what the last of them shows. -/
theorem spriteRenderShowsTheHighestSlot : Obligations.SpriteRenderShowsTheHighestSlot := fun c mem g hg =>
  have paints := paints_sprites c mem g.spr.toList
  ⟨paints.frame g, paints.pixel g hg⟩

/-- A vector raised is pending, whether it was before or not (R311). -/
theorem mem_queue_enqueue (s : State) (v : Addr) : v ∈ (s.enqueue v).queue := by
  unfold State.enqueue
  split
  next h => exact List.contains_iff_mem.1 h
  next => exact List.mem_concat_self

/-- The render of a machine with another memory, the same in VRAM and SRAM, is the same (R62). -/
theorem render_congr {s : State} {mem' : List Host.Cell} (h : SameGraphics s.mem mem') :
    render { s with mem := mem' } = { render s with mem := mem' } := by
  unfold render State.enqueue
  rw [composite_congr h]
  split <;> rfl

/-- Settles O55: what the composite paints, the queue, and what of memory is read. -/
theorem renderShowsTheTopmostPixel : Obligations.RenderShowsTheTopmostPixel := by
  intro s hfb
  obtain ⟨hframe, hpixel⟩ := paints_composite s.config s.mem s.gpu hfb
  refine ⟨?frame, mem_queue_enqueue _ _, ?pixels, fun mem' hw hw' h => render_congr ⟨hw, hw', h⟩⟩
  case frame =>
    obtain ⟨q, hrender⟩ := render_frame s
    rw [hrender, ← hframe]
  case pixels =>
    rw [render_gpu]
    exact hpixel

/-! ## The default formats (R357, R358) -/

/-- VRAM holds 128 tiles of 64 bytes, so the wrap of the address is a wrap of the tile's index (R357). -/
theorem tilePixel_default (m : VideoMode) (mem : List Host.Cell) (t : Byte) {tx ty : Nat} (hx : tx < 8) (hy : ty < 8) :
    tilePixel (defaultTileFormat m) mem t tx ty =
      if Memory.read mem (0x8000 + (t.toNat % 128) * 64 + ty * 8 + tx) = 0 then none
      else some (Memory.read mem (0x8000 + (t.toNat % 128) * 64 + ty * 8 + tx)) := by
  have haddr : 0x8000 + (t.toNat * 64 + ty * 8 + tx) % 0x2000 = 0x8000 + (t.toNat % 128) * 64 + ty * 8 + tx := by omega
  rw [← haddr]
  rfl

theorem tilePixel_default_add_128 (m : VideoMode) (mem : List Host.Cell) (t : Byte) {tx ty : Nat} (hx : tx < 8)
    (hy : ty < 8) :
    tilePixel (defaultTileFormat m) mem (t + 128) tx ty = tilePixel (defaultTileFormat m) mem t tx ty := by
  have hindex : (t + 128).toNat % 128 = t.toNat % 128 := by bv_omega
  rw [tilePixel_default m mem _ hx hy, tilePixel_default m mem _ hx hy, hindex]

theorem spritePixel_sram (mem : List Host.Cell) (b pal : Byte) (bx row : Nat) :
    spritePixel .sram mem b pal bx row =
      if Memory.read mem (0xA000 + (b.toNat % 32) * 256 + row * 16 + bx) = 0 then none
      else some (BitVec.ofNat 8
        (pal.toNat + (Memory.read mem (0xA000 + (b.toNat % 32) * 256 + row * 16 + bx)).toNat)) := rfl

theorem spritePixel_sram_add_32 (mem : List Host.Cell) (b pal : Byte) (bx row : Nat) :
    spritePixel .sram mem (b + 32) pal bx row = spritePixel .sram mem b pal bx row := by
  have hindex : (b + 32).toNat % 32 = b.toNat % 32 := by bv_omega
  rw [spritePixel_sram, spritePixel_sram, hindex]

/-- Settles O56. -/
theorem defaultGraphicsFormats : Obligations.DefaultGraphicsFormats :=
  ⟨rfl, rfl, rfl, rfl, fun _ => ⟨rfl, rfl⟩,
    fun m mem t _ _ hx hy => ⟨tilePixel_default m mem t hx hy, tilePixel_default_add_128 m mem t hx hy⟩,
    fun mem b pal bx row _ _ => ⟨fun h => (spritePixel_sram mem b pal bx row).trans (if_pos h),
      fun h => ⟨_, (spritePixel_sram mem b pal bx row).trans (if_neg h), BitVec.toNat_ofNat _ 8⟩,
      spritePixel_sram_add_32 mem b pal bx row⟩⟩

end Sys2Proof.Machine
end

section
/-!
PROOFS. The Execution Driver (spec/70_reset_and_hazards.md R400 to R427): runs, frames, loads and resets, and the invariant
kept by each of them.
-/

namespace Sys2Proof.Machine

/-! ## Runs (R422, R423) -/

/-- k steps lead from s to t in a run of at most n: each starts from a Running core, and a run stops short of n only when
the core no longer runs (R422). -/
structure RunOfSteps (n : Nat) (s : State) (k : Nat) (t : State) : Prop where
  steps : t = hostStep^[k] s
  bound : k ≤ n
  running : ∀ j, j < k → (hostStep^[j] s).run = .running
  stopped : k < n → t.run ≠ .running

/-- A run that takes no step: none was asked for, or the core does not run. -/
theorem RunOfSteps.none {n : Nat} {s : State} (h : 0 < n → s.run ≠ .running) : RunOfSteps n s 0 s :=
  ⟨rfl, Nat.zero_le n, fun _ hj => absurd hj (Nat.not_lt_zero _), h⟩

/-- One step of a Running core in front of a run. -/
theorem RunOfSteps.succ {n k : Nat} {s t : State} (hr : s.run = .running) (h : RunOfSteps n (hostStep s) k t) :
    RunOfSteps (n + 1) s (k + 1) t where
  steps := h.steps
  bound := Nat.succ_le_succ h.bound
  running
    | 0, _ => hr
    | j + 1, hj => h.running j (Nat.lt_of_succ_lt_succ hj)
  stopped hk := h.stopped (Nat.lt_of_succ_lt_succ hk)

theorem runCycles_runOfSteps (n : Nat) (s : State) : RunOfSteps n s (runCycles n s).1 (runCycles n s).2 := by
  induction n generalizing s with
  | zero => exact .none fun h => absurd h (Nat.lt_irrefl 0)
  | succ n ih =>
    by_cases hr : s.run = .running
    · rw [runCycles_succ hr]; exact (ih (hostStep s)).succ hr
    · rw [runCycles_stopped hr]; exact .none fun _ => hr

/-- A run counts its steps (R423): it is the run of the same state with the counter at the value it has. -/
theorem runCycles_count (n : Nat) (s : State) : (runCycles n s).2.cycles = s.cycles + (runCycles n s).1 :=
  congrArg (fun r => r.2.cycles) (runCycles_cycles n s s.cycles)

/-- Settles O12, by what a run is and by what it does with another count. -/
theorem runCyclesTakesAndCountsItsSteps : Obligations.RunCyclesTakesAndCountsItsSteps := fun n s =>
  have run := runCycles_runOfSteps n s
  ⟨run.steps, run.bound, run.running, run.stopped, runCycles_count n s, runCycles_cycles n s⟩

/-! ## Loads (R405, R420) -/

theorem entryAfterLoad_of_fixed {a : Addr} (h : a = 0x0200 ∨ a = 0xC000) (old : Addr) : entryAfterLoad old a = a :=
  if_pos h

theorem entryAfterLoad_of_not_fixed {a : Addr} (h : ¬(a = 0x0200 ∨ a = 0xC000)) (old : Addr) :
    entryAfterLoad old a = old := if_neg h

theorem loadProgram_refused {bytes : List Byte} {a : Addr} (h : 0x10000 < a.toNat + bytes.length) (s : State) :
    loadProgram bytes a s = none := if_pos h

theorem loadProgram_loads {bytes : List Byte} {a : Addr} (h : a.toNat + bytes.length ≤ 0x10000) (s : State) :
    loadProgram bytes a s = some
      { s with
        mem := Memory.writeBytes s.mem a.toNat bytes
        images := s.images ++ [(a, bytes)]
        entry := entryAfterLoad s.entry a } := if_neg (Nat.not_lt.2 h)

/-- Settles O58: a load that is refused and one that is not. -/
theorem loadProgramWritesItsImage : Obligations.LoadProgramWritesItsImage := fun _ _ s hw =>
  ⟨fun h => loadProgram_refused h s, fun h =>
    ⟨_, loadProgram_loads h s, Memory.read_writeBytes hw h, rfl, fun ha => entryAfterLoad_of_fixed ha s.entry,
      fun h1 h2 => entryAfterLoad_of_not_fixed (not_or_intro h1 h2) s.entry, rfl⟩⟩

/-! ## The invariant across the host's operations -/

theorem State.Inv.hostStep {s : State} (h : s.Inv) : (hostStep s).Inv :=
  everyStepKeepsTheInvariant s _ h (step_eq_hostStep s)

theorem State.Inv.runCycles {s : State} (h : s.Inv) (n : Nat) : (runCycles n s).2.Inv :=
  runCycles_keeps (P := State.Inv) (fun _ => State.Inv.hostStep) n s h

/-- A render keeps the invariant: the drawing keeps the GPU's part, and the queue is the one VBlank (R354, R359). -/
theorem State.Inv.render {s : State} (h : s.Inv) : (render s).Inv := by
  have g : GpuOk s.config (composite s.config s.mem s.gpu) := gpuOk_composite s.mem h.gpuOk
  rw [render_eq h.queueShape]
  exact
    { h with
      queueShape := .inr rfl
      fbWf := g.fbWf
      fbDepth := g.fbDepth
      tiles0Wf := g.tiles0Wf
      tiles1Wf := g.tiles1Wf }

theorem State.Inv.tickFrame {s : State} (h : s.Inv) : (tickFrame s).Inv := (h.runCycles s.cyclesPerFrame).render

/-- A load keeps the invariant: the bytes fit, and the entry point moves only to a fixed load address (R405, R420). -/
theorem State.Inv.loadProgram {s t : State} (h : s.Inv) {bytes : List Byte} {a : Addr}
    (hload : loadProgram bytes a s = some t) : t.Inv := by
  by_cases hfit : a.toNat + bytes.length ≤ 0x10000
  case neg => rw [loadProgram_refused (Nat.not_le.1 hfit)] at hload; cases hload
  case pos =>
    rw [loadProgram_loads hfit] at hload
    cases hload
    refine { h with memWf := Memory.wf_writeBytes h.memWf hfit, imagesFit := ?images, entryFixed := ?entry }
    case images => exact List.forall_mem_append.2 ⟨h.imagesFit, List.forall_mem_singleton.2 hfit⟩
    case entry =>
      by_cases ha : a = 0x0200 ∨ a = 0xC000
      · rwa [entryAfterLoad_of_fixed ha]
      · rw [entryAfterLoad_of_not_fixed ha]; exact h.entryFixed

/-- A reset keeps the invariant: the kept images fit, so the memory reloaded is canonical (R400). -/
theorem State.Inv.hostReset {s : State} (h : s.Inv) : (hostReset s).Inv :=
  have g : GpuOk s.config Gpu.reset := gpuOk_reset s.config
  { memWf := reloadedMemory_wf h.imagesFit
    pcRange := Nat.le_of_lt s.entry.isLt
    spLow := (by decide : 0x0100 ≤ (0x01FF : Addr).toNat)
    spHigh := (by decide : (0x01FF : Addr).toNat ≤ 0x01FF)
    faultIff := rfl
    faultAddr := by rintro r ⟨⟩
    faultDetail := by rintro r a ⟨⟩
    queueShape := .inl rfl
    configWf := h.configWf
    fbWf := g.fbWf
    fbDepth := g.fbDepth
    tiles0Wf := g.tiles0Wf
    tiles1Wf := g.tiles1Wf
    imagesFit := h.imagesFit
    entryFixed := h.entryFixed }

/-- Settles O15, an operation at a time. -/
theorem everyHostOperationKeepsTheInvariant : Obligations.EveryHostOperationKeepsTheInvariant := by
  intro c s h
  cases c with
  | step => exact h.hostStep
  | runCycles n => exact h.runCycles n
  | tickFrame => exact h.tickFrame
  | setCyclesPerFrame n => exact { h with }
  | loadProgram bytes a =>
    show ((Machine.loadProgram bytes a s).getD s).Inv
    cases hload : Machine.loadProgram bytes a s with
    | none => exact h
    | some t => exact h.loadProgram hload
  | reset => exact h.hostReset

/-! ## Frames (R424) -/

/-- Settles O57: the frame's steps keep the invariant, so the render finds at most the one VBlank in the queue. -/
theorem vBlankIsPendingAfterEveryFrame : Obligations.VBlankIsPendingAfterEveryFrame := by
  intro s h
  have ht : (runCycles s.cyclesPerFrame s).2.Inv := h.runCycles s.cyclesPerFrame
  have hconfig : (runCycles s.cyclesPerFrame s).2.config = s.config := (runCycles_driverKept s.cyclesPerFrame s).config
  have hcycles := runCycles_count s.cyclesPerFrame s
  rw [tickFrame]
  generalize (runCycles s.cyclesPerFrame s).2 = t at ht hconfig hcycles ⊢
  obtain ⟨hframe, -⟩ := paints_composite t.config t.mem t.gpu ht.fbWf
  rw [render_eq ht.queueShape, ← hframe]
  exact ⟨congrArg (fun c => [c.vblankVector]) hconfig, hcycles, rfl⟩

/-! ## Resets (R400 to R402) -/

@[simp] theorem hostReset_reg (s : State) (r : Reg) : (hostReset s).reg r = 0x00 := by cases r <;> rfl

theorem hostReset_pal (s : State) (i : Nat) (h : i < 256) : (hostReset s).gpu.pal[i] = { r := 0, g := 0, b := 0 } :=
  Vector.getElem_replicate h

theorem hostReset_spr (s : State) (i : Nat) (h : i < 64) : (hostReset s).gpu.spr[i] = Sprite.reset :=
  Vector.getElem_replicate h

/-- With nothing loaded, the memory after a reset is all zero (R401). -/
theorem hostReset_mem_of_no_images {s : State} (h : s.images = []) : (hostReset s).mem = [] :=
  congrArg reloadedMemory h

/-- The last image loaded reads back after a reset, over what the images before it leave (R400). -/
theorem hostReset_read_of_last_image {s : State}
    (hfit : ∀ image ∈ s.images, image.1.toNat + image.2.length ≤ 0x10000) {front : List (Addr × List Byte)} {a : Addr}
    {bytes : List Byte} (h : s.images = front ++ [(a, bytes)]) (b : Nat) :
    Memory.read (hostReset s).mem b =
      if a.toNat ≤ b ∧ b < a.toNat + bytes.length then bytes.getD (b - a.toNat) 0
      else Memory.read (hostReset { s with images := front }).mem b := by
  have hmem : (hostReset s).mem = Memory.writeBytes (reloadedMemory front) a.toNat bytes :=
    (congrArg reloadedMemory h).trans (reloadedMemory_append front a bytes)
  rw [h] at hfit
  obtain ⟨hfront, hlast⟩ := List.forall_mem_append.1 hfit
  rw [hmem]
  exact Memory.read_writeBytes (reloadedMemory_wf hfront) (hlast _ (List.mem_singleton_self _)) b

/-- Settles O59: the register file and the GPU's tables are reset as wholes, and memory by its last image. -/
theorem resetRestoresTheBlock : Obligations.ResetRestoresTheBlock := by
  intro s hfit
  refine ⟨hostReset_reg s, rfl, rfl, rfl, rfl, rfl, rfl, rfl, rfl, rfl, fun _ _ => rfl, hostReset_pal s, hostReset_spr s,
    ?layers, rfl, rfl, rfl, rfl, rfl, fun h b => ?noImages, fun front a bytes h => hostReset_read_of_last_image hfit h,
    fun c hc hs => hostApply_run_of_stopped hs hc⟩
  case layers =>
    have layer : (∀ row col, TileLayer.reset.tile s.config.tileFormat row col = 0x00) ∧ TileLayer.reset.sx = 0x0000 ∧
        TileLayer.reset.sy = 0x0000 ∧ TileLayer.reset.enabled = false := ⟨fun _ _ => rfl, rfl, rfl, rfl⟩
    exact List.forall_mem_cons.2 ⟨layer, List.forall_mem_singleton.2 layer⟩
  case noImages => rw [hostReset_mem_of_no_images h]; rfl

/-- A machine with nothing loaded, at the configuration and cadence of a fresh one, resets to the fresh machine, the count
of inputs drawn apart (R402). -/
theorem hostReset_eq_reset {s : State} (himages : s.images = []) (hentry : s.entry = 0x0200)
    (hconfig : s.config = defaultConfig) (hterminal : s.terminal = [])
    (hcadence : s.cyclesPerFrame = Config.cyclesPerFrame) :
    hostReset s = { State.reset with inputDraws := s.inputDraws } := by
  rw [hostReset, himages, hentry, hconfig, hterminal, hcadence]
  rfl

/-- Settles O60: the fresh machine is itself a machine with nothing loaded. -/
theorem freshMachineIsAReset : Obligations.FreshMachineIsAReset :=
  ⟨hostReset_eq_reset rfl rfl rfl rfl rfl, rfl, rfl, fun _ => rfl, rfl, rfl, rfl, rfl, fun _ => hostReset_eq_reset⟩

end Sys2Proof.Machine
end

section
/-!
PROOFS. Decode, then encode (spec/30_encoding.md section 4): each encoding is unique (decision D43).
-/

namespace Sys2Proof

/-- A decoding succeeds when its operands do, and leaves the bytes after them. -/
theorem decodedWith_eq_ok_iff {r : Except BadOperand Instr} {tl rest : List Byte} {i : Instr} :
    decodedWith r tl = .ok (i, rest) ↔ r = .ok i ∧ tl = rest := by
  cases r <;> simp [decodedWith]

/-- Under every opcode map, what follows the opcode byte of bytes that decode is the instruction's operand bytes and the
bytes left over: one case for each number of operand bytes (R90). -/
theorem eq_operands_append_of_decode {m : OpcodeMap} {op : Byte} {tl rest : List Byte} {i : Instr}
    (h : decode m (op :: tl) = .ok (i, rest)) : tl = i.operands ++ rest := by
  simp only [decode, lookup_of_decode h] at h
  split at h
  case h_4 => cases h
  all_goals
    next harity =>
    obtain ⟨hd, rfl⟩ := decodedWith_eq_ok_iff.1 h
    rw [(operands_of_decode hd).2, harity]
    rfl

/-- Settles O2: the default map gives the opcode the byte it was read from, and the operand bytes read back. -/
theorem decodedBytesAreTheEncoding : Obligations.DecodedBytesAreTheEncoding := by
  intro bytes i rest h
  cases bytes with
  | nil => cases h
  | cons op tl =>
    have henc : encode defaultOpcodeMap i = some (op :: i.operands) :=
      (encodedAs_default (byteOf_of_lookup_default (lookup_of_decode h))).1
    exact ⟨op :: i.operands, henc, congrArg (op :: ·) (eq_operands_append_of_decode h)⟩

end Sys2Proof
end
